-- ==== Sys2Proof/Word.lean ====
section
/-! DEFINITION. The word and byte types of the core (`00_scope.md` R10). -/

namespace Sys2Proof

/-- A word is 32 bits (R10). `u32 v` of the spec is `v.toNat`, `s32 v` is `v.toInt`,
`trunc32 n` is `BitVec.ofNat 32 n`. -/
abbrev Word := BitVec 32

/-- The unit of both memories (`10_state.md` R37, R39). -/
abbrev Byte := BitVec 8

/-- `ceil_div(a, b) = (a + b − 1) div b` (R10). -/
def ceilDiv (a b : Nat) : Nat := (a + b - 1) / b

end Sys2Proof
end

