-- ==== Sys2Proof/Config.lean ====
section
/-! DEFINITION. The configuration record `cfg` of `00_scope.md` R9: everything the source leaves as a
parameter. The core never writes it. The record is plain data and stands in the state (log 1), so that a
statement about every state is a statement about every configuration. -/

namespace Sys2Proof

/-- `cfg.OPC.<name>`: the opcode number of each FIFO command (R9, `30_encoding.md` R96). -/
structure OpcodeNumbers where
  invalidCmd : Word
  update : Word
  rectCopy : Word
  defineCursor : Word
  defineAlphaCursor : Word
  updateVerbose : Word
  fence : Word
  escape : Word
  defineScreen : Word
  destroyScreen : Word
  defineGmrfb : Word
  blitGmrfbToScreen : Word
  blitScreenToGmrfb : Word
  annotationFill : Word
  annotationCopy : Word
  defineGmr2 : Word
  remapGmr2 : Word
  dead : Word
  dead2 : Word
  nop : Word
  nopError : Word
deriving DecidableEq, Repr

/-- `cfg.SKIP_ARGS.<name>`: the argument word count of each member of the skip class but REMAP_GMR2, whose 4 is the
source's (R9, R96, `44_skip_commands.md` R260); for the format-V members ESCAPE and DEFINE_SCREEN the count of their
fixed words (log 20). -/
structure SkipArgs where
  invalidCmd : Nat
  escape : Nat
  defineScreen : Nat
  destroyScreen : Nat
  defineGmrfb : Nat
  blitGmrfbToScreen : Nat
  blitScreenToGmrfb : Nat
  annotationFill : Nat
  annotationCopy : Nat
  defineGmr2 : Nat
  dead : Nat
  dead2 : Nat
  nop : Nat
  nopError : Nat
deriving DecidableEq, Repr

/-- `cfg.REG.<name>`: the index of each named register (`40_register_bank.md`, section 1). -/
structure RegisterIndices where
  id : Word
  enable : Word
  width : Word
  height : Word
  maxWidth : Word
  maxHeight : Word
  bitsPerPixel : Word
  redMask : Word
  greenMask : Word
  blueMask : Word
  bytesPerLine : Word
  fbStart : Word
  fbSize : Word
  capabilities : Word
  memStart : Word
  memSize : Word
  configDone : Word
  sync : Word
  busy : Word
  guestId : Word
  cursorId : Word
  cursorX : Word
  cursorY : Word
  cursorOn : Word
  scratchSize : Word
  pitchlock : Word
  irqmask : Word
  displayId : Word
  displayIsPrimary : Word
  displayPositionX : Word
  displayPositionY : Word
  displayWidth : Word
  displayHeight : Word
  cap2 : Word
deriving DecidableEq, Repr

/-- `cfg.HDR.<name>`: word offsets of the header words the source gives no number for (`20_memory.md` R72). -/
structure HeaderWords where
  hwVersion3d : Nat
  cursorOn : Nat
  cursorX : Nat
  cursorY : Nat
  cursorCount : Nat
  cursorLastUpdated : Nat
  hwVersion3dRevised : Nat
  guest3dHwVersion : Nat
  fenceGoal : Nat
deriving DecidableEq, Repr

/-- `cfg.IRQ.<name>`: the status and mask bit of each interrupt event (`30_encoding.md` R102). -/
structure IrqBits where
  anyFence : Word
  fifoProgress : Word
  fenceGoal : Word
deriving DecidableEq, Repr

/-- One entry of the parameter `cfg.RemapGmr2Payload` (`44_skip_commands.md` R272): the payload length in
words for one pair of arguments. -/
structure RemapEntry where
  flags : Word
  numPages : Word
  words : Nat
deriving DecidableEq, Repr

/-- The configuration record of `00_scope.md` R9. Field names follow the spec's.
`remapGmr2Payload` lists the arguments at which the function `cfg.RemapGmr2Payload` differs from its default
formula; the domain is finite, so every function of two words is such a list (log 9). -/
structure Config where
  fifoSize : Nat
  fbSize : Nat
  fbBase : Word
  fifoBase : Word
  maxWidth : Nat
  maxHeight : Nat
  maxDim : Nat
  bppLegal : List Nat
  defaultWidth : Nat
  defaultHeight : Nat
  defaultBpp : Nat
  scratchSize : Nat
  scratchBase : Nat
  paletteBase : Nat
  maxLoop : Nat
  cursorCap : Nat
  svgaId : Word
  supportedIds : List Word
  caps : Word
  caps2 : Word
  reg : RegisterIndices
  opc : OpcodeNumbers
  skipArgs : SkipArgs
  remapGmr2Payload : List RemapEntry
  opcRectFill : Option Word
  irq : IrqBits
  hdr : HeaderWords
  portIndex : Nat
  portValue : Nat
  portIrqStatus : Nat
  irqStatusSetsUnmasked : Bool
  fifoGateOnConfig : Bool
  guestInterleave : Bool
deriving DecidableEq, Repr

/-- A free word: the value of `draw Word` (`00_scope.md` R11) at the n-th draw since the machine started.
It has no body, so nothing can be proved of it (log 8). -/
opaque Config.drawWord : Nat → Word

/-- A free list of mask words: what a cursor mask array holds after a `Reset`, which R50 leaves
unspecified (log 7, 8). -/
opaque Config.drawMask : Nat → List Word

/-- The payload length of ESCAPE or DEFINE_SCREEN, by its opcode number and its fixed words, where
`cfg.SKIP_ARGS` leaves no room among them for the length-bearing word: the spec states none, so it has no body
(log 20). -/
opaque Config.unstatedPayload : Word → List Word → Nat

/-- What SCRATCH_SIZE reads where `cfg.SCRATCH_SIZE` does not fit a word: `40_register_bank.md` R152 states no value, so
it has no body (log 23). -/
opaque Config.oversizedScratch : Nat → Word

/-- What the FIFO memory holds at power-on, address by address: arbitrary bytes (`70_reset_and_hazards.md` R371), so
without a body (log 5). -/
opaque Config.powerOnFifo : Nat → Byte

/-- What the framebuffer memory holds at power-on (R371), without a body (log 5). -/
opaque Config.powerOnFb : Nat → Byte

end Sys2Proof
end

