-- ==== Sys2Proof/Machine/Bindings.lean ====
section
/-! DEFINITION. The constants of `00_scope.md` R8 and the default binding of every configuration parameter
(R9), the `cfg0` of `95_test_vectors.md`. -/

namespace Sys2Proof

/-- Redraw queue capacity, `REDRAW_CAP` (`00_scope.md` R8). -/
def redrawCap : Nat := 512
/-- Largest cursor width and height, `CURSOR_MAX_DIM` (R8). -/
def cursorMaxDim : Nat := 256
/-- Palette block length, `PALETTE_LEN` (R8). -/
def paletteLen : Nat := 768
/-- Smallest ring header in bytes, `FIFO_MIN_HDR` (R8). -/
def fifoMinHdr : Nat := 16
/-- Smallest ring extent in bytes, `FIFO_MIN_EXTENT` (R8: 10 KiB, with 1 KiB = 1024 bytes PRESUMED by the spec). -/
def fifoMinExtent : Nat := 10240

/-- The default opcode numbers (R96). PRESUMED: the VMware SVGA II family, as the spec marks them (log 17). -/
def OpcodeNumbers.default : OpcodeNumbers :=
  {
    invalidCmd := 0, update := 1, rectCopy := 3, defineCursor := 19, defineAlphaCursor := 22, updateVerbose := 25,
    fence := 30, escape := 33, defineScreen := 34, destroyScreen := 35, defineGmrfb := 36, blitGmrfbToScreen := 37,
    blitScreenToGmrfb := 38, annotationFill := 39, annotationCopy := 40, defineGmr2 := 41, remapGmr2 := 42, dead := 43,
    dead2 := 44, nop := 45, nopError := 46 }

/-- The default skip counts (R262 to R276). PRESUMED (log 17). -/
def SkipArgs.default : SkipArgs :=
  {
    invalidCmd := 0, escape := 2, defineScreen := 1, destroyScreen := 1, defineGmrfb := 4,
    blitGmrfbToScreen := 7, blitScreenToGmrfb := 7, annotationFill := 1,
    annotationCopy := 3, defineGmr2 := 2, dead := 0, dead2 := 0, nop := 0, nopError := 0 }

/-- The default register indices (`40_register_bank.md`). PRESUMED (log 17). -/
def RegisterIndices.default : RegisterIndices :=
  {
    id := 0, enable := 1, width := 2, height := 3, maxWidth := 4, maxHeight := 5,
    bitsPerPixel := 7, redMask := 9, greenMask := 10, blueMask := 11, bytesPerLine := 12, fbStart := 13,
    fbSize := 16, capabilities := 17, memStart := 18, memSize := 19, configDone := 20, sync := 21,
    busy := 22, guestId := 23, cursorId := 24, cursorX := 25, cursorY := 26, cursorOn := 27,
    scratchSize := 29, pitchlock := 32, irqmask := 33, displayId := 35, displayIsPrimary := 36, displayPositionX := 37,
    displayPositionY := 38, displayWidth := 39, displayHeight := 40, cap2 := 59 }

/-- The default header word offsets (R72). PRESUMED (log 17). -/
def HeaderWords.default : HeaderWords :=
  {
    hwVersion3d := 7, cursorOn := 9, cursorX := 10, cursorY := 11, cursorCount := 12, cursorLastUpdated := 13,
    hwVersion3dRevised := 17, guest3dHwVersion := 288, fenceGoal := 289 }

/-- The default binding of every parameter, the `cfg0` of `95_test_vectors.md` (R9). PRESUMED numbers (log 17). -/
def Config.default : Config where
  fifoSize := 65536
  fbSize := 16777216
  fbBase := 0xFD000000
  fifoBase := 0xFE000000
  maxWidth := 2368
  maxHeight := 1770
  maxDim := 2368
  bppLegal := [8, 16, 24, 32]
  defaultWidth := 0
  defaultHeight := 0
  defaultBpp := 32
  scratchSize := 64
  scratchBase := 1792
  paletteBase := 1024
  maxLoop := 1024
  cursorCap := 65536
  svgaId := 0x90000002
  supportedIds := [0x90000000, 0x90000001, 0x90000002]
  caps := 0x81178222
  caps2 := 0
  reg := RegisterIndices.default
  opc := OpcodeNumbers.default
  skipArgs := SkipArgs.default
  remapGmr2Payload := []
  opcRectFill := none
  irq := { anyFence := 0x1, fifoProgress := 0x2, fenceGoal := 0x4 }
  hdr := HeaderWords.default
  portIndex := 0
  portValue := 1
  portIrqStatus := 8
  irqStatusSetsUnmasked := false
  fifoGateOnConfig := false
  guestInterleave := true

end Sys2Proof
end

