-- ==== Sys2Proof/Syntax.lean ====
section
/-! DEFINITION. The instructions: one constructor of `Instr` for each row of `spec/opcode_table.json`.
Operands are whole 32-bit words (`30_encoding.md` R93); a format-V command carries its payload words, a
member of the skip class whose count is a parameter its argument words as a list. -/

namespace Sys2Proof

/-- The FIFO commands that have an opcode number (R96), RECT_FILL's being optional (R106). -/
inductive CmdName where
  | invalidCmd
  | update
  | rectFill
  | rectCopy
  | defineCursor
  | defineAlphaCursor
  | updateVerbose
  | fence
  | escape
  | defineScreen
  | destroyScreen
  | defineGmrfb
  | blitGmrfbToScreen
  | blitScreenToGmrfb
  | annotationFill
  | annotationCopy
  | defineGmr2
  | remapGmr2
  | dead
  | dead2
  | nop
  | nopError
deriving DecidableEq, Repr

/-- The named registers of `40_register_bank.md`, section 1, in the order of its table. -/
inductive RegName where
  | id
  | enable
  | width
  | height
  | maxWidth
  | maxHeight
  | bitsPerPixel
  | redMask
  | greenMask
  | blueMask
  | bytesPerLine
  | fbStart
  | fbSize
  | capabilities
  | memStart
  | memSize
  | configDone
  | sync
  | busy
  | guestId
  | cursorId
  | cursorX
  | cursorY
  | cursorOn
  | scratchSize
  | pitchlock
  | irqmask
  | displayId
  | displayIsPrimary
  | displayPositionX
  | displayPositionY
  | displayWidth
  | displayHeight
  | cap2
deriving DecidableEq, Repr

/-- What a value-port operation does to the register it addresses (R122, R123). -/
inductive RegAccess where
  | read
  | write (v : Word)
deriving DecidableEq, Repr

/-- The instructions of the core (R101, R105): FIFO commands, register operations, port operations. -/
inductive Instr where
  /-- INVALID_CMD (`R262`, format F). -/
  | invalidCmd (args : List Word)
  /-- UPDATE (`R215`, format F). -/
  | update (x y w h : Word)
  /-- RECT_FILL (`R219`, format F). -/
  | rectFill (colour x y w h : Word)
  /-- RECT_COPY (`R217`, format F). -/
  | rectCopy (srcX srcY dstX dstY w h : Word)
  /-- DEFINE_CURSOR (`R243`, format V). -/
  | defineCursor (id hotX hotY width height andBpp xorBpp : Word) (payload : List Word)
  /-- DEFINE_ALPHA_CURSOR (`R246`, format V). -/
  | defineAlphaCursor (id hotX hotY width height : Word) (pixels : List Word)
  /-- UPDATE_VERBOSE (`R216`, format F). -/
  | updateVerbose (x y w h reason : Word)
  /-- FENCE (`R218`, format F). -/
  | fence (fence : Word)
  /-- ESCAPE (`R263`, format V): its fixed words before `size` (`nsid`), those from `size` on, its payload. -/
  | escape (nsid size payload : List Word)
  /-- DEFINE_SCREEN (`R264`, format V). -/
  | defineScreen (args payload : List Word)
  /-- DESTROY_SCREEN (`R265`, format F). -/
  | destroyScreen (args : List Word)
  /-- DEFINE_GMRFB (`R266`, format F). -/
  | defineGmrfb (args : List Word)
  /-- BLIT_GMRFB_TO_SCREEN (`R267`, format F). -/
  | blitGmrfbToScreen (args : List Word)
  /-- BLIT_SCREEN_TO_GMRFB (`R268`, format F). -/
  | blitScreenToGmrfb (args : List Word)
  /-- ANNOTATION_FILL (`R269`, format F). -/
  | annotationFill (args : List Word)
  /-- ANNOTATION_COPY (`R270`, format F). -/
  | annotationCopy (args : List Word)
  /-- DEFINE_GMR2 (`R271`, format F). -/
  | defineGmr2 (args : List Word)
  /-- REMAP_GMR2 (`R272`, format V). -/
  | remapGmr2 (gmrId flags offsetPages numPages : Word) (payload : List Word)
  /-- DEAD (`R273`, format F). -/
  | dead (args : List Word)
  /-- DEAD_2 (`R274`, format F). -/
  | dead2 (args : List Word)
  /-- NOP (`R275`, format F). -/
  | nop (args : List Word)
  /-- NOP_ERROR (`R276`, format F). -/
  | nopError (args : List Word)
  /-- UNKNOWN (R280): an opcode word no other row names, with no argument words. -/
  | unknown (op : Word)
  /-- REG_ID (R124). -/
  | regId (acc : RegAccess)
  /-- REG_ENABLE (R125). -/
  | regEnable (acc : RegAccess)
  /-- REG_WIDTH (R126). -/
  | regWidth (acc : RegAccess)
  /-- REG_HEIGHT (R127). -/
  | regHeight (acc : RegAccess)
  /-- REG_MAX_WIDTH (R128). -/
  | regMaxWidth (acc : RegAccess)
  /-- REG_MAX_HEIGHT (R129). -/
  | regMaxHeight (acc : RegAccess)
  /-- REG_BITS_PER_PIXEL (R130). -/
  | regBitsPerPixel (acc : RegAccess)
  /-- REG_RED_MASK (R131). -/
  | regRedMask (acc : RegAccess)
  /-- REG_GREEN_MASK (R132). -/
  | regGreenMask (acc : RegAccess)
  /-- REG_BLUE_MASK (R133). -/
  | regBlueMask (acc : RegAccess)
  /-- REG_BYTES_PER_LINE (R134). -/
  | regBytesPerLine (acc : RegAccess)
  /-- REG_FB_START (R135). -/
  | regFbStart (acc : RegAccess)
  /-- REG_FB_SIZE (R136). -/
  | regFbSize (acc : RegAccess)
  /-- REG_CAPABILITIES (R141). -/
  | regCapabilities (acc : RegAccess)
  /-- REG_MEM_START (R137). -/
  | regMemStart (acc : RegAccess)
  /-- REG_MEM_SIZE (R138). -/
  | regMemSize (acc : RegAccess)
  /-- REG_CONFIG_DONE (R143). -/
  | regConfigDone (acc : RegAccess)
  /-- REG_SYNC (R144). -/
  | regSync (acc : RegAccess)
  /-- REG_BUSY (R145). -/
  | regBusy (acc : RegAccess)
  /-- REG_GUEST_ID (R147). -/
  | regGuestId (acc : RegAccess)
  /-- REG_CURSOR_ID (R148). -/
  | regCursorId (acc : RegAccess)
  /-- REG_CURSOR_X (R149). -/
  | regCursorX (acc : RegAccess)
  /-- REG_CURSOR_Y (R150). -/
  | regCursorY (acc : RegAccess)
  /-- REG_CURSOR_ON (R151). -/
  | regCursorOn (acc : RegAccess)
  /-- REG_SCRATCH_SIZE (R152). -/
  | regScratchSize (acc : RegAccess)
  /-- REG_PITCHLOCK (R160). -/
  | regPitchlock (acc : RegAccess)
  /-- REG_IRQMASK (R161). -/
  | regIrqmask (acc : RegAccess)
  /-- REG_DISPLAY_ID (R153). -/
  | regDisplayId (acc : RegAccess)
  /-- REG_DISPLAY_IS_PRIMARY (R154). -/
  | regDisplayIsPrimary (acc : RegAccess)
  /-- REG_DISPLAY_POSITION_X (R155). -/
  | regDisplayPositionX (acc : RegAccess)
  /-- REG_DISPLAY_POSITION_Y (R156). -/
  | regDisplayPositionY (acc : RegAccess)
  /-- REG_DISPLAY_WIDTH (R157). -/
  | regDisplayWidth (acc : RegAccess)
  /-- REG_DISPLAY_HEIGHT (R158). -/
  | regDisplayHeight (acc : RegAccess)
  /-- REG_CAP2 (R142). -/
  | regCap2 (acc : RegAccess)
  /-- REG_PALETTE (R166): entry `k` of the palette block. -/
  | regPalette (k : Nat) (acc : RegAccess)
  /-- REG_SCRATCH (R165): scratch register `x[i]`. -/
  | regScratch (i : Nat) (acc : RegAccess)
  /-- REG_INVALID (R167): an index outside every register and block. -/
  | regInvalid (index : Word) (acc : RegAccess)
  /-- PORT_INDEX_WRITE (R120). -/
  | portIndexWrite (v : Word)
  /-- PORT_INDEX_READ (R121). -/
  | portIndexRead
  /-- PORT_VALUE_READ (R122). -/
  | portValueRead
  /-- PORT_VALUE_WRITE (R123). -/
  | portValueWrite (v : Word)
  /-- PORT_IRQSTATUS_WRITE (R341). -/
  | portIrqStatusWrite (v : Word)
  /-- PORT_IRQSTATUS_READ (R342). -/
  | portIrqStatusRead
deriving DecidableEq, Repr

end Sys2Proof
end

