-- ==== Sys2Proof/Machine/Tables.lean ====
section
/-! DEFINITION. The tables that decoding rests on: opcode numbers, argument and payload lengths
(`30_encoding.md`), register indices and their classification (`20_memory.md` R71), and the constraints on the
configuration (`00_scope.md` R9). -/

namespace Sys2Proof

/-- Every command that may have an opcode number, in the order of the table of R96. -/
def CmdName.all : List CmdName :=
  [.invalidCmd, .update, .rectFill, .rectCopy, .defineCursor, .defineAlphaCursor,
   .updateVerbose, .fence, .escape, .defineScreen, .destroyScreen, .defineGmrfb,
   .blitGmrfbToScreen, .blitScreenToGmrfb, .annotationFill, .annotationCopy, .defineGmr2, .remapGmr2,
   .dead, .dead2, .nop, .nopError]

/-- The opcode number of a command: `cfg.OPC.<name>`, and `cfg.OPC_RECT_FILL` for the optional fill
(R96, R106). -/
def Config.opcode (c : Config) : CmdName → Option Word
  | .invalidCmd => some c.opc.invalidCmd
  | .update => some c.opc.update
  | .rectFill => c.opcRectFill
  | .rectCopy => some c.opc.rectCopy
  | .defineCursor => some c.opc.defineCursor
  | .defineAlphaCursor => some c.opc.defineAlphaCursor
  | .updateVerbose => some c.opc.updateVerbose
  | .fence => some c.opc.fence
  | .escape => some c.opc.escape
  | .defineScreen => some c.opc.defineScreen
  | .destroyScreen => some c.opc.destroyScreen
  | .defineGmrfb => some c.opc.defineGmrfb
  | .blitGmrfbToScreen => some c.opc.blitGmrfbToScreen
  | .blitScreenToGmrfb => some c.opc.blitScreenToGmrfb
  | .annotationFill => some c.opc.annotationFill
  | .annotationCopy => some c.opc.annotationCopy
  | .defineGmr2 => some c.opc.defineGmr2
  | .remapGmr2 => some c.opc.remapGmr2
  | .dead => some c.opc.dead
  | .dead2 => some c.opc.dead2
  | .nop => some c.opc.nop
  | .nopError => some c.opc.nopError

/-- The command an opcode word names, if any (`42_decoder.md` R214): the first whose number equals the word. -/
def Config.lookupOpcode (c : Config) (op : Word) : Option CmdName :=
  CmdName.all.find? (fun n => c.opcode n == some op)

/-- The fixed argument count `N` (R91, R96): the source's counts, REMAP_GMR2's 4 among them, and `cfg.SKIP_ARGS` for
every other member of the skip class (R260). -/
def Config.fixedArgs (c : Config) : CmdName → Nat
  | .update => 4
  | .rectFill => 5
  | .rectCopy => 6
  | .defineCursor => 7
  | .defineAlphaCursor => 5
  | .updateVerbose => 5
  | .fence => 1
  | .remapGmr2 => 4
  | .escape => c.skipArgs.escape
  | .defineScreen => c.skipArgs.defineScreen
  | .invalidCmd => c.skipArgs.invalidCmd
  | .destroyScreen => c.skipArgs.destroyScreen
  | .defineGmrfb => c.skipArgs.defineGmrfb
  | .blitGmrfbToScreen => c.skipArgs.blitGmrfbToScreen
  | .blitScreenToGmrfb => c.skipArgs.blitScreenToGmrfb
  | .annotationFill => c.skipArgs.annotationFill
  | .annotationCopy => c.skipArgs.annotationCopy
  | .defineGmr2 => c.skipArgs.defineGmr2
  | .dead => c.skipArgs.dead
  | .dead2 => c.skipArgs.dead2
  | .nop => c.skipArgs.nop
  | .nopError => c.skipArgs.nopError

/-- `MaskWords(width, bpp, height)` (`43_cursor_commands.md` R240), over the natural numbers. -/
def maskWords (width bpp height : Word) : Nat := ceilDiv (width.toNat * bpp.toNat) 32 * height.toNat

/-- `AlphaWords(width, height)` (R240). -/
def alphaWords (width height : Word) : Nat := width.toNat * height.toNat

/-- ESCAPE's payload length (`44_skip_commands.md` R263). -/
def escapeWords (size : Word) : Nat := ceilDiv size.toNat 4

/-- DEFINE_SCREEN's payload length (R264): `struct_size` is in bytes and counts itself. -/
def defineScreenWords (structSize : Word) : Nat := max (ceilDiv structSize.toNat 4) 1 - 1

/-- ESCAPE's payload length by its fixed words `nsid, size, ...` (R97, R263); where `cfg.SKIP_ARGS.ESCAPE` leaves no
`size` among them the spec states no length: a free one (log 20). -/
def Config.escapePayload (c : Config) (args : List Word) : Nat :=
  match args[1]? with
  | some size => escapeWords size
  | none => Config.unstatedPayload c.opc.escape args

/-- DEFINE_SCREEN's payload length by its fixed words `struct_size, ...` (R97, R264); without one, a free one
(log 20). -/
def Config.defineScreenPayload (c : Config) (args : List Word) : Nat :=
  match args[0]? with
  | some structSize => defineScreenWords structSize
  | none => Config.unstatedPayload c.opc.defineScreen args

/-- The default `RemapGmr2Payload` (R272). -/
def remapGmr2Default (flags numPages : Word) : Nat :=
  if flags &&& 0x1 ≠ 0 then 2
  else (if flags &&& 0x4 ≠ 0 then 1 else numPages.toNat) * (if flags &&& 0x2 ≠ 0 then 2 else 1)

/-- `cfg.RemapGmr2Payload(flags, num_pages)` (R272): the listed value where one is listed, else the default. -/
def Config.remapGmr2Words (c : Config) (flags numPages : Word) : Nat :=
  match c.remapGmr2Payload.find? (fun e => e.flags == flags && e.numPages == numPages) with
  | some e => e.words
  | none => remapGmr2Default flags numPages

/-- The payload length `M` of a command, computed from the fixed argument words alone (R91, R92, R97). Format F
has none. -/
def Config.payloadWords (c : Config) (n : CmdName) (args : List Word) : Nat :=
  match n with
  | .defineCursor =>
    maskWords (args.getD 3 0) (args.getD 5 0) (args.getD 4 0)
      + maskWords (args.getD 3 0) (args.getD 6 0) (args.getD 4 0)
  | .defineAlphaCursor => alphaWords (args.getD 3 0) (args.getD 4 0)
  | .escape => c.escapePayload args
  | .defineScreen => c.defineScreenPayload args
  | .remapGmr2 => c.remapGmr2Words (args.getD 1 0) (args.getD 3 0)
  | .update | .rectFill | .rectCopy | .updateVerbose | .fence
  | .invalidCmd | .destroyScreen | .defineGmrfb | .blitGmrfbToScreen | .blitScreenToGmrfb | .annotationFill
  | .annotationCopy | .defineGmr2 | .dead | .dead2 | .nop | .nopError => 0

/-- Every named register, in the order of the table of `40_register_bank.md`. -/
def RegName.all : List RegName :=
  [.id, .enable, .width, .height, .maxWidth, .maxHeight,
   .bitsPerPixel, .redMask, .greenMask, .blueMask, .bytesPerLine, .fbStart,
   .fbSize, .capabilities, .memStart, .memSize, .configDone, .sync,
   .busy, .guestId, .cursorId, .cursorX, .cursorY, .cursorOn,
   .scratchSize, .pitchlock, .irqmask, .displayId, .displayIsPrimary, .displayPositionX,
   .displayPositionY, .displayWidth, .displayHeight, .cap2]

/-- `cfg.REG.<name>`. -/
def Config.regIndex (c : Config) : RegName → Word
  | .id => c.reg.id
  | .enable => c.reg.enable
  | .width => c.reg.width
  | .height => c.reg.height
  | .maxWidth => c.reg.maxWidth
  | .maxHeight => c.reg.maxHeight
  | .bitsPerPixel => c.reg.bitsPerPixel
  | .redMask => c.reg.redMask
  | .greenMask => c.reg.greenMask
  | .blueMask => c.reg.blueMask
  | .bytesPerLine => c.reg.bytesPerLine
  | .fbStart => c.reg.fbStart
  | .fbSize => c.reg.fbSize
  | .capabilities => c.reg.capabilities
  | .memStart => c.reg.memStart
  | .memSize => c.reg.memSize
  | .configDone => c.reg.configDone
  | .sync => c.reg.sync
  | .busy => c.reg.busy
  | .guestId => c.reg.guestId
  | .cursorId => c.reg.cursorId
  | .cursorX => c.reg.cursorX
  | .cursorY => c.reg.cursorY
  | .cursorOn => c.reg.cursorOn
  | .scratchSize => c.reg.scratchSize
  | .pitchlock => c.reg.pitchlock
  | .irqmask => c.reg.irqmask
  | .displayId => c.reg.displayId
  | .displayIsPrimary => c.reg.displayIsPrimary
  | .displayPositionX => c.reg.displayPositionX
  | .displayPositionY => c.reg.displayPositionY
  | .displayWidth => c.reg.displayWidth
  | .displayHeight => c.reg.displayHeight
  | .cap2 => c.reg.cap2

/-- What a register index selects (`20_memory.md` R71). -/
inductive RegSel where
  | named (n : RegName)
  | palette (k : Nat)
  | scratch (i : Nat)
  | invalid (index : Word)
deriving DecidableEq, Repr

/-- The classification of a register index, in the order of R71: named, palette, scratch, invalid. -/
def Config.classify (c : Config) (index : Word) : RegSel :=
  match RegName.all.find? (fun n => c.regIndex n == index) with
  | some n => .named n
  | none =>
    if c.paletteBase ≤ index.toNat ∧ index.toNat < c.paletteBase + paletteLen then
      .palette (index.toNat - c.paletteBase)
    else if c.scratchBase ≤ index.toNat ∧ index.toNat < c.scratchBase + c.scratchSize then
      .scratch (index.toNat - c.scratchBase)
    else .invalid index

/-- Header words the source's order fixes (`20_memory.md` R72). -/
def hdrMin : Nat := 0
def hdrMax : Nat := 1
def hdrNextCmd : Nat := 2
def hdrStop : Nat := 3
def hdrCapabilities : Nat := 4
def hdrFlags : Nat := 5
def hdrFence : Nat := 6

/-- The header word offsets that are parameters (R72). -/
def HeaderWords.toList (h : HeaderWords) : List Nat :=
  [h.hwVersion3d, h.cursorOn, h.cursorX, h.cursorY, h.cursorCount, h.cursorLastUpdated,
   h.hwVersion3dRevised, h.guest3dHwVersion, h.fenceGoal]

/-- The capability flags every configuration has set: those that section 4.1 names (`00_scope.md` R9), by the table of
`40_register_bank.md` R141 the first six rows (rectangle copy, cursor, alpha cursor, multi-monitor stub, GMR
stub, command buffers). R141's own constraint, the first five, is part of it. DEDUCED (log 22). -/
def requiredCaps : Word := 0x01110222

/-- A word with exactly one bit set (`60_exceptions.md` R343). -/
def isSingleBit (b : Word) : Bool := (List.range 32).any (fun k => b == BitVec.ofNat 32 (2 ^ k))

/-- The constraints on sizes, bounds and reset values (`00_scope.md` R9, `20_memory.md` R72). -/
def Config.sizesOk (c : Config) : Bool :=
  c.fifoSize % 4 == 0 && decide (fifoMinHdr + fifoMinExtent ≤ c.fifoSize) && decide (c.fifoSize < 2 ^ 31)
  && decide (c.fbSize < 2 ^ 32)
  && decide (1 ≤ c.maxWidth) && decide (c.maxWidth < 2 ^ 31)
  && decide (1 ≤ c.maxHeight) && decide (c.maxHeight < 2 ^ 31)
  && decide (1 ≤ c.maxDim) && decide (c.maxDim < 2 ^ 31)
  && !c.bppLegal.isEmpty && c.bppLegal.all (fun b => decide (1 ≤ b) && decide (b ≤ 32))
  && decide (c.defaultWidth ≤ c.maxWidth) && decide (c.defaultHeight ≤ c.maxHeight)
  && c.bppLegal.contains c.defaultBpp
  && decide (1 ≤ c.maxLoop) && decide (1 ≤ c.cursorCap)
  && c.supportedIds.contains c.svgaId
  && c.caps &&& requiredCaps == requiredCaps
  && c.hdr.toList.all (fun h => decide (4 * (h + 1) ≤ c.fifoSize))

/-- An index lies in neither block (R9: a named register's index is outside both). -/
def Config.outsideBlocks (c : Config) (index : Word) : Bool :=
  !(decide (c.paletteBase ≤ index.toNat) && decide (index.toNat < c.paletteBase + paletteLen))
  && !(decide (c.scratchBase ≤ index.toNat) && decide (index.toNat < c.scratchBase + c.scratchSize))

/-- The constraints on numbers that must be distinct (R9, `92_eei_decisions.md` D2): opcodes, register indices and
blocks, interrupt bits, ports. -/
def Config.numbersOk (c : Config) : Bool :=
  decide ((CmdName.all.filterMap c.opcode).Nodup)
  && decide ((RegName.all.map c.regIndex).Nodup)
  && RegName.all.all (fun n => c.outsideBlocks (c.regIndex n))
  && (decide (c.paletteBase + paletteLen ≤ c.scratchBase)
      || decide (c.scratchBase + c.scratchSize ≤ c.paletteBase) || c.scratchSize == 0)
  && isSingleBit c.irq.anyFence && isSingleBit c.irq.fifoProgress && isSingleBit c.irq.fenceGoal
  && decide ([c.irq.anyFence, c.irq.fifoProgress, c.irq.fenceGoal].Nodup)
  && decide ([c.portIndex, c.portValue, c.portIrqStatus].Nodup)

/-- The configurations the spec allows: every constraint of R9 and R72 holds. -/
def Config.valid (c : Config) : Bool := c.sizesOk && c.numbersOk

end Sys2Proof
end

