-- ==== Sys2Proof/WellFormed.lean ====
section
/-! DEFINITION. The well-formed instructions of a configuration: those some encoding stands for. -/

namespace Sys2Proof

/-- A command of the skip class carries exactly its declared argument words (R261). -/
def Config.argsOk (c : Config) (n : CmdName) (args : List Word) : Bool := args.length == c.fixedArgs n

/-- A format-V command carries exactly the payload its fixed words declare (R91, R92). -/
def Config.payloadOk (c : Config) (n : CmdName) (fixed payload : List Word) : Bool :=
  payload.length == c.payloadWords n fixed

/-- An instruction that some encoding of the configuration stands for: lengths as declared, RECT_FILL only where
it has an opcode number (R106), an unknown opcode only where no row names it (R280), block elements inside their
blocks (R165, R166), an invalid index only where the classification says so (R167). -/
def Instr.wellFormed (c : Config) : Instr → Bool
  | .update _ _ _ _ => true
  | .rectFill _ _ _ _ _ => c.opcRectFill.isSome
  | .rectCopy _ _ _ _ _ _ => true
  | .defineCursor id hotX hotY width height andBpp xorBpp payload =>
    c.payloadOk .defineCursor [id, hotX, hotY, width, height, andBpp, xorBpp] payload
  | .defineAlphaCursor id hotX hotY width height pixels =>
    c.payloadOk .defineAlphaCursor [id, hotX, hotY, width, height] pixels
  | .updateVerbose _ _ _ _ _ => true
  | .fence _ => true
  | .escape nsid size payload =>
    nsid.length == min 1 c.skipArgs.escape && c.argsOk .escape (nsid ++ size) && c.payloadOk .escape (nsid ++ size) payload
  | .defineScreen args payload => c.argsOk .defineScreen args && c.payloadOk .defineScreen args payload
  | .remapGmr2 gmrId flags offsetPages numPages payload =>
    c.payloadOk .remapGmr2 [gmrId, flags, offsetPages, numPages] payload
  | .invalidCmd args => c.argsOk .invalidCmd args
  | .destroyScreen args => c.argsOk .destroyScreen args
  | .defineGmrfb args => c.argsOk .defineGmrfb args
  | .blitGmrfbToScreen args => c.argsOk .blitGmrfbToScreen args
  | .blitScreenToGmrfb args => c.argsOk .blitScreenToGmrfb args
  | .annotationFill args => c.argsOk .annotationFill args
  | .annotationCopy args => c.argsOk .annotationCopy args
  | .defineGmr2 args => c.argsOk .defineGmr2 args
  | .dead args => c.argsOk .dead args
  | .dead2 args => c.argsOk .dead2 args
  | .nop args => c.argsOk .nop args
  | .nopError args => c.argsOk .nopError args
  | .unknown op => (c.lookupOpcode op).isNone
  | .regId _ => true
  | .regEnable _ => true
  | .regWidth _ => true
  | .regHeight _ => true
  | .regMaxWidth _ => true
  | .regMaxHeight _ => true
  | .regBitsPerPixel _ => true
  | .regRedMask _ => true
  | .regGreenMask _ => true
  | .regBlueMask _ => true
  | .regBytesPerLine _ => true
  | .regFbStart _ => true
  | .regFbSize _ => true
  | .regCapabilities _ => true
  | .regMemStart _ => true
  | .regMemSize _ => true
  | .regConfigDone _ => true
  | .regSync _ => true
  | .regBusy _ => true
  | .regGuestId _ => true
  | .regCursorId _ => true
  | .regCursorX _ => true
  | .regCursorY _ => true
  | .regCursorOn _ => true
  | .regScratchSize _ => true
  | .regPitchlock _ => true
  | .regIrqmask _ => true
  | .regDisplayId _ => true
  | .regDisplayIsPrimary _ => true
  | .regDisplayPositionX _ => true
  | .regDisplayPositionY _ => true
  | .regDisplayWidth _ => true
  | .regDisplayHeight _ => true
  | .regCap2 _ => true
  | .regPalette k _ => decide (k < paletteLen) && decide (c.paletteBase + k < 2 ^ 32)
  | .regScratch i _ => decide (i < c.scratchSize) && decide (c.scratchBase + i < 2 ^ 32)
  | .regInvalid index _ => c.classify index == .invalid index
  | .portIndexWrite _ => true
  | .portIndexRead => true
  | .portValueRead => true
  | .portValueWrite _ => true
  | .portIrqStatusWrite _ => true
  | .portIrqStatusRead => true

end Sys2Proof
end

