-- ==== Sys2Proof/Decode.lean ====
section
/-! DEFINITION. The decoder and the encoder. A FIFO command is a list of words (`30_encoding.md` R90 to R100), a
port operation one access of the port window (R101), a register operation a latched index and an access (R71,
R105). Every decoder is total; what it does not decode it rejects by name. -/

namespace Sys2Proof

/-- Why a decoder gives no instruction. `incomplete`: the words end before the command does (R213; the core
rewinds). `undecodedPort`: a port access of another width or offset (`20_memory.md` R64). `trailingWords`: words
after the command, where exactly one command was asked for. -/
inductive DecodeError where
  | incomplete
  | undecodedPort
  | trailingWords
deriving DecidableEq, Repr

/-- The instruction for a command whose `N` fixed argument words and payload words have been read, in the word
orders of `30_encoding.md` R94, R95, R97, R106. -/
def buildCommand (n : CmdName) (args payload : List Word) : Instr :=
  match n with
  | .invalidCmd => .invalidCmd args
  | .update => .update (args.getD 0 0) (args.getD 1 0) (args.getD 2 0) (args.getD 3 0)
  | .rectFill => .rectFill (args.getD 0 0) (args.getD 1 0) (args.getD 2 0) (args.getD 3 0) (args.getD 4 0)
  | .rectCopy => .rectCopy (args.getD 0 0) (args.getD 1 0) (args.getD 2 0) (args.getD 3 0) (args.getD 4 0) (args.getD 5 0)
  | .defineCursor => .defineCursor (args.getD 0 0) (args.getD 1 0) (args.getD 2 0) (args.getD 3 0) (args.getD 4 0) (args.getD 5 0) (args.getD 6 0) payload
  | .defineAlphaCursor => .defineAlphaCursor (args.getD 0 0) (args.getD 1 0) (args.getD 2 0) (args.getD 3 0) (args.getD 4 0) payload
  | .updateVerbose => .updateVerbose (args.getD 0 0) (args.getD 1 0) (args.getD 2 0) (args.getD 3 0) (args.getD 4 0)
  | .fence => .fence (args.getD 0 0)
  | .escape => .escape (args.take 1) (args.drop 1) payload
  | .defineScreen => .defineScreen args payload
  | .destroyScreen => .destroyScreen args
  | .defineGmrfb => .defineGmrfb args
  | .blitGmrfbToScreen => .blitGmrfbToScreen args
  | .blitScreenToGmrfb => .blitScreenToGmrfb args
  | .annotationFill => .annotationFill args
  | .annotationCopy => .annotationCopy args
  | .defineGmr2 => .defineGmr2 args
  | .remapGmr2 => .remapGmr2 (args.getD 0 0) (args.getD 1 0) (args.getD 2 0) (args.getD 3 0) payload
  | .dead => .dead args
  | .dead2 => .dead2 args
  | .nop => .nop args
  | .nopError => .nopError args

/-- Reads one command from the front of a list of words and returns it with the words behind it
(R90 to R92): opcode word, then the fixed words, then the payload they declare. An opcode word no row names is a
command of its own (R98, R280). -/
def decodeCommand (c : Config) : List Word → Except DecodeError (Instr × List Word)
  | [] => .error .incomplete
  | op :: rest =>
    match c.lookupOpcode op with
    | none => .ok (.unknown op, rest)
    | some n =>
      if rest.length < c.fixedArgs n then .error .incomplete
      else
        let args := rest.take (c.fixedArgs n)
        let rest := rest.drop (c.fixedArgs n)
        if rest.length < c.payloadWords n args then .error .incomplete
        else .ok (buildCommand n args (rest.take (c.payloadWords n args)), rest.drop (c.payloadWords n args))

/-- Byte `k` of a word: `bits[8k+7:8k]` (`20_memory.md` R61). -/
def byteOf (w : Word) (k : Nat) : Byte := w.extractLsb' (8 * k) 8

/-- The four little-endian bytes of a word (`20_memory.md` R60). -/
def bytesOfWord (w : Word) : List Byte := [byteOf w 0, byteOf w 1, byteOf w 2, byteOf w 3]

/-- The word four bytes make, lowest address first (R60). -/
def wordOfBytes (b0 b1 b2 b3 : Byte) : Word :=
  BitVec.ofNat 32 (b0.toNat + 2 ^ 8 * b1.toNat + 2 ^ 16 * b2.toNat + 2 ^ 24 * b3.toNat)

/-- The words of a byte string, four bytes each; a last group of fewer than four is filled with zero bytes. -/
def wordsOfBytes : List Byte → List Word
  | b0 :: b1 :: b2 :: b3 :: bs => wordOfBytes b0 b1 b2 b3 :: wordsOfBytes bs
  | [b0, b1, b2] => [wordOfBytes b0 b1 b2 0]
  | [b0, b1] => [wordOfBytes b0 b1 0 0]
  | [b0] => [wordOfBytes b0 0 0 0]
  | [] => []

/-- One access of the port window (R64, R101): its offset, its width in bits, and the datum if it is a write. -/
structure PortAccess where
  offset : Nat
  width : Nat
  datum : RegAccess
deriving DecidableEq, Repr

/-- The port operation an access is (R64, R101): 32 bits wide at one of the three offsets. -/
def decodePort (c : Config) (a : PortAccess) : Except DecodeError Instr :=
  if a.width = 32 then
    if a.offset = c.portIndex then
      match a.datum with
      | .write v => .ok (.portIndexWrite v)
      | .read => .ok .portIndexRead
    else if a.offset = c.portValue then
      match a.datum with
      | .write v => .ok (.portValueWrite v)
      | .read => .ok .portValueRead
    else if a.offset = c.portIrqStatus then
      match a.datum with
      | .write v => .ok (.portIrqStatusWrite v)
      | .read => .ok .portIrqStatusRead
    else .error .undecodedPort
  else .error .undecodedPort

/-- The register operation on a named register. -/
def namedRegister (acc : RegAccess) : RegName → Instr
  | .id => .regId acc
  | .enable => .regEnable acc
  | .width => .regWidth acc
  | .height => .regHeight acc
  | .maxWidth => .regMaxWidth acc
  | .maxHeight => .regMaxHeight acc
  | .bitsPerPixel => .regBitsPerPixel acc
  | .redMask => .regRedMask acc
  | .greenMask => .regGreenMask acc
  | .blueMask => .regBlueMask acc
  | .bytesPerLine => .regBytesPerLine acc
  | .fbStart => .regFbStart acc
  | .fbSize => .regFbSize acc
  | .capabilities => .regCapabilities acc
  | .memStart => .regMemStart acc
  | .memSize => .regMemSize acc
  | .configDone => .regConfigDone acc
  | .sync => .regSync acc
  | .busy => .regBusy acc
  | .guestId => .regGuestId acc
  | .cursorId => .regCursorId acc
  | .cursorX => .regCursorX acc
  | .cursorY => .regCursorY acc
  | .cursorOn => .regCursorOn acc
  | .scratchSize => .regScratchSize acc
  | .pitchlock => .regPitchlock acc
  | .irqmask => .regIrqmask acc
  | .displayId => .regDisplayId acc
  | .displayIsPrimary => .regDisplayIsPrimary acc
  | .displayPositionX => .regDisplayPositionX acc
  | .displayPositionY => .regDisplayPositionY acc
  | .displayWidth => .regDisplayWidth acc
  | .displayHeight => .regDisplayHeight acc
  | .cap2 => .regCap2 acc

/-- The register operation a value-port access performs at a latched index (R71, R122, R123). -/
def decodeRegister (c : Config) (index : Word) (acc : RegAccess) : Instr :=
  match c.classify index with
  | .named n => namedRegister acc n
  | .palette k => .regPalette k acc
  | .scratch i => .regScratch i acc
  | .invalid idx => .regInvalid idx acc

/-- What stands for one instruction at the core's interface: the words of a FIFO command, an access of the port
window, or a latched register index with the access made through the value port. -/
inductive Code where
  | command (ws : List Word)
  | port (a : PortAccess)
  | register (index : Word) (acc : RegAccess)
deriving DecidableEq, Repr

/-- The decoder of one instruction. -/
def decode (c : Config) : Code → Except DecodeError Instr
  | .command ws =>
    match decodeCommand c ws with
    | .ok (i, []) => .ok i
    | .ok (_, _ :: _) => .error .trailingWords
    | .error e => .error e
  | .port a => decodePort c a
  | .register index acc => .ok (decodeRegister c index acc)

/-- The code of a well-formed instruction, written from the encoding tables of R94 to R97, R101 and R105. -/
def encode (c : Config) : Instr → Code
  | .invalidCmd args => .command (c.opc.invalidCmd :: args)
  | .update x y w h => .command (c.opc.update :: [x, y, w, h])
  | .rectFill colour x y w h => .command (c.opcRectFill.getD 0 :: [colour, x, y, w, h])
  | .rectCopy srcX srcY dstX dstY w h => .command (c.opc.rectCopy :: [srcX, srcY, dstX, dstY, w, h])
  | .defineCursor id hotX hotY width height andBpp xorBpp payload =>
    .command (c.opc.defineCursor :: (id :: hotX :: hotY :: width :: height :: andBpp :: xorBpp :: payload))
  | .defineAlphaCursor id hotX hotY width height pixels =>
    .command (c.opc.defineAlphaCursor :: (id :: hotX :: hotY :: width :: height :: pixels))
  | .updateVerbose x y w h reason => .command (c.opc.updateVerbose :: [x, y, w, h, reason])
  | .fence fence => .command (c.opc.fence :: [fence])
  | .escape nsid size payload => .command (c.opc.escape :: (nsid ++ size ++ payload))
  | .defineScreen args payload => .command (c.opc.defineScreen :: (args ++ payload))
  | .destroyScreen args => .command (c.opc.destroyScreen :: args)
  | .defineGmrfb args => .command (c.opc.defineGmrfb :: args)
  | .blitGmrfbToScreen args => .command (c.opc.blitGmrfbToScreen :: args)
  | .blitScreenToGmrfb args => .command (c.opc.blitScreenToGmrfb :: args)
  | .annotationFill args => .command (c.opc.annotationFill :: args)
  | .annotationCopy args => .command (c.opc.annotationCopy :: args)
  | .defineGmr2 args => .command (c.opc.defineGmr2 :: args)
  | .remapGmr2 gmrId flags offsetPages numPages payload =>
    .command (c.opc.remapGmr2 :: (gmrId :: flags :: offsetPages :: numPages :: payload))
  | .dead args => .command (c.opc.dead :: args)
  | .dead2 args => .command (c.opc.dead2 :: args)
  | .nop args => .command (c.opc.nop :: args)
  | .nopError args => .command (c.opc.nopError :: args)
  | .unknown op => .command [op]
  | .regId acc => .register c.reg.id acc
  | .regEnable acc => .register c.reg.enable acc
  | .regWidth acc => .register c.reg.width acc
  | .regHeight acc => .register c.reg.height acc
  | .regMaxWidth acc => .register c.reg.maxWidth acc
  | .regMaxHeight acc => .register c.reg.maxHeight acc
  | .regBitsPerPixel acc => .register c.reg.bitsPerPixel acc
  | .regRedMask acc => .register c.reg.redMask acc
  | .regGreenMask acc => .register c.reg.greenMask acc
  | .regBlueMask acc => .register c.reg.blueMask acc
  | .regBytesPerLine acc => .register c.reg.bytesPerLine acc
  | .regFbStart acc => .register c.reg.fbStart acc
  | .regFbSize acc => .register c.reg.fbSize acc
  | .regCapabilities acc => .register c.reg.capabilities acc
  | .regMemStart acc => .register c.reg.memStart acc
  | .regMemSize acc => .register c.reg.memSize acc
  | .regConfigDone acc => .register c.reg.configDone acc
  | .regSync acc => .register c.reg.sync acc
  | .regBusy acc => .register c.reg.busy acc
  | .regGuestId acc => .register c.reg.guestId acc
  | .regCursorId acc => .register c.reg.cursorId acc
  | .regCursorX acc => .register c.reg.cursorX acc
  | .regCursorY acc => .register c.reg.cursorY acc
  | .regCursorOn acc => .register c.reg.cursorOn acc
  | .regScratchSize acc => .register c.reg.scratchSize acc
  | .regPitchlock acc => .register c.reg.pitchlock acc
  | .regIrqmask acc => .register c.reg.irqmask acc
  | .regDisplayId acc => .register c.reg.displayId acc
  | .regDisplayIsPrimary acc => .register c.reg.displayIsPrimary acc
  | .regDisplayPositionX acc => .register c.reg.displayPositionX acc
  | .regDisplayPositionY acc => .register c.reg.displayPositionY acc
  | .regDisplayWidth acc => .register c.reg.displayWidth acc
  | .regDisplayHeight acc => .register c.reg.displayHeight acc
  | .regCap2 acc => .register c.reg.cap2 acc
  | .regPalette k acc => .register (BitVec.ofNat 32 (c.paletteBase + k)) acc
  | .regScratch i acc => .register (BitVec.ofNat 32 (c.scratchBase + i)) acc
  | .regInvalid index acc => .register index acc
  | .portIndexWrite v => .port { offset := c.portIndex, width := 32, datum := .write v }
  | .portIndexRead => .port { offset := c.portIndex, width := 32, datum := .read }
  | .portValueRead => .port { offset := c.portValue, width := 32, datum := .read }
  | .portValueWrite v => .port { offset := c.portValue, width := 32, datum := .write v }
  | .portIrqStatusWrite v => .port { offset := c.portIrqStatus, width := 32, datum := .write v }
  | .portIrqStatusRead => .port { offset := c.portIrqStatus, width := 32, datum := .read }

/-- The bytes of a number of `8 * n` bits, least significant first, as the table numbers them. -/
def bytesOfNat : Nat → Nat → List Byte
  | 0, _ => []
  | n + 1, w => BitVec.ofNat 8 w :: bytesOfNat n (w / 256)

/-- The command words a table word stands for: the bytes of `w` lowest first, as whole words, and behind them
words of zeros, as many as the longest command with zero operands needs. -/
def tableWords (c : Config) (nbits w : Nat) : List Word :=
  wordsOfBytes (bytesOfNat ((nbits + 7) / 8) w)
    ++ List.replicate ((CmdName.all.map c.fixedArgs).foldr max 0) 0

/-- The instruction the command decoder reads from a table word, under the default binding. Register and port rows
of the table have no words of their own: their numbers are register indices and port offsets (log 14). -/
def decodeTableWord (nbits w : Nat) : Option Instr :=
  match decodeCommand Config.default (tableWords Config.default nbits w) with
  | .ok (i, _) => some i
  | .error _ => none

end Sys2Proof
end

