-- ==== Sys2Proof/Machine/State.lean ====
section
/-! DEFINITION. The machine's state: everything `10_state.md` gives it, as plain data, with the model's own
fields for the environment's inputs; the faults and refusals; the state after reset. -/

namespace Sys2Proof.Machine

/-- A byte memory as (address, byte) pairs in one canonical form: the bytes written since power-on, at strictly rising
addresses (`Sys2Proof/Machine/Memory.lean`, log 5). -/
abbrev Memory := List Host.Cell

/-- A rectangle of the redraw queue (`10_state.md` R41). -/
structure Rect where
  x : Nat
  y : Nat
  w : Nat
  h : Nat
deriving DecidableEq, Repr

/-- The two variants of a cursor definition (R42). -/
inductive CursorKind where
  | legacy
  | alpha
deriving DecidableEq, Repr

/-- The cursor definition buffers `DS.cur` (R42). A mask array is the list of its first elements; every element
behind the list's end holds 0 (log 7). -/
structure CursorDef where
  kind : CursorKind
  id : Word
  hotX : Word
  hotY : Word
  width : Word
  height : Word
  andBpp : Word
  xorBpp : Word
  andMask : List Word
  xorMask : List Word
deriving DecidableEq, Repr

/-- Argument of a dirty-tracking event (R48). -/
inductive DirtyTracking where
  | start
  | stop
deriving DecidableEq, Repr

/-- The output events, the whole interface from the core to its collaborators (R48). -/
inductive OutEvent where
  | irqRaise
  | irqLower
  | update (x y w h : Nat)
  | fullRedraw
  | modeSet (w h stride bpp : Nat)
  | dirtyTracking (d : DirtyTracking)
  | legacyRender
  | cursorDefine (kind : CursorKind) (cur : CursorDef)
deriving DecidableEq, Repr

/-- Direction of the value-port access a diagnostic reports (`60_exceptions.md` R335). -/
inductive Direction where
  | read
  | write
deriving DecidableEq, Repr

/-- The diagnostics (R335), visible to the host only. -/
inductive Diag where
  | badRegWrite (name : RegName) (v : Word)
  | badRegIndex (dir : Direction) (index : Word)
  | unknownCmd (op : Word)
  | badRect (op : CmdName) (x y w h : Word)
deriving DecidableEq, Repr

/-- What started the running decoder invocation (`42_decoder.md` R221). -/
inductive Trigger where
  | sync
  | refresh
deriving DecidableEq, Repr

/-- The outcome of a decode step (R211). -/
inductive CommandOutcome where
  | applied
  | rewound
  | skippedUnknown
deriving DecidableEq, Repr

/-- The two memories the guest shares with the core (`20_memory.md` R70). -/
inductive Space where
  | fifo
  | fb
deriving DecidableEq, Repr

/-- One write of the guest to a shared memory: bytes stored from an address on, in one piece (R66, R76). -/
structure GuestWrite where
  space : Space
  addr : Nat
  bytes : List Byte
deriving DecidableEq, Repr

/-- One access of the guest to a shared memory that falls between two memory accesses of the core (R37, R39, R76): a
write, or a read of one byte. -/
inductive GuestAccess where
  | write (w : GuestWrite)
  | read (space : Space) (addr : Nat)
deriving DecidableEq, Repr

/-- What the environment does between two operations of the core: the guest's port accesses and its direct
accesses to the memories (R20, R76), and the host's events (R316, R370). -/
inductive Event where
  | port (a : PortAccess)
  | guestWrite (w : GuestWrite)
  | guestRead (space : Space) (addr : Nat)
  | refresh
  | reset
deriving DecidableEq, Repr

/-- The state of the machine. Names follow `DS.<field>` of `10_state.md`. -/
structure State where
  /-- The configuration, never written (R47). -/
  cfg : Config
  /-- R22. -/
  enable : Bool
  /-- R23. -/
  config : Bool
  /-- R24. -/
  width : Word
  /-- R24. -/
  height : Word
  /-- R24. -/
  bpp : Word
  /-- R25. -/
  pitchlock : Word
  /-- R25: the override is active when this is 1. -/
  pitchlockCount : Fin 2
  /-- R26. -/
  guestId : Word
  /-- R26. -/
  displayId : Word
  /-- R27: `cfg.SCRATCH_SIZE` words. -/
  scratch : List Word
  /-- R28. -/
  irqMask : Word
  /-- R28. -/
  irqStatus : Word
  /-- R28: the level last driven on the interrupt line. -/
  irqLine : Bool
  /-- R29. -/
  lastCursorCount : Word
  /-- R30: the latched register index. -/
  index : Word
  /-- R31. -/
  svgaId : Word
  /-- R32. -/
  cursorId : Word
  /-- R32. -/
  cursorX : Word
  /-- R32. -/
  cursorY : Word
  /-- R32. -/
  cursorOn : Word
  /-- R33. -/
  syncing : Bool
  /-- R34. -/
  invalidated : Bool
  /-- R35: latched ring header words; `fifoStop` is the program counter. -/
  fifoMin : Word
  fifoMax : Word
  fifoNext : Word
  fifoStop : Word
  /-- R41. -/
  queue : List Rect
  /-- R42. -/
  cur : CursorDef
  /-- R45 (d): opcode values already diagnosed, without repeats. -/
  logged : List Word
  /-- R48. -/
  out : List OutEvent
  /-- R49. -/
  diag : List Diag
  /-- R37: the FIFO memory, the header words of R38 inside it. -/
  fifo : Memory
  /-- R39: the framebuffer memory. -/
  fb : Memory
  /-- R36, R221: the running decoder invocation, if any. -/
  trigger : Option Trigger
  /-- R36: decode steps done in this invocation. -/
  steps : Nat
  /-- R36. -/
  progressed : Bool
  /-- R36. -/
  fired : Bool
  /-- R36: the consumer position at which the current command began. -/
  cmdStart : Word
  /-- R36: pending words not yet accounted for in the decode step. -/
  rem : Int
  /-- R211: the outcome of the last decode step. -/
  outcome : Option CommandOutcome
  /-- The model's own: what the environment will do next, oldest first (log 3). -/
  inputs : List Event
  /-- The model's own: guest accesses between memory accesses of the core, one group before each (log 4). -/
  guestSched : List (List GuestAccess)
  /-- The model's own: the bytes the guest's reads between memory accesses of the core returned, oldest first
  (log 10). -/
  guestReads : List Byte
  /-- The model's own: the value the guest's last read returned (log 10). -/
  guestData : Word
  /-- The model's own: how many free words have been drawn (log 8). -/
  draws : Nat
deriving DecidableEq, Repr

/-- Why the machine stops with a fault. None is a behaviour of the core: "there is no fatal/abort path in this
core" (`60_exceptions.md` R330). -/
inductive Fault where
  /-- Raised by the core's FIFO accesses when one is misaligned or leaves the FIFO memory. Safe: R83 says it cannot
  happen, and a statement says so of every valid configuration (log 12). -/
  | fifoAccess
  /-- Raised by the rectangle engine's accesses when one leaves the framebuffer. Safe: R292 says it cannot happen
  (log 12). -/
  | fbAccess
  /-- Raised by a guest memory access between operations at an address the memory does not have. Safe (log 12). -/
  | guestAddress
deriving DecidableEq, Repr

/-- Why the machine gives an input no meaning. -/
inductive Refusal where
  /-- Raised by `exec` for an instruction that has no meaning yet; no arm is left that raises it. Safe. -/
  | notModelled (mnemonic : String)
  /-- Raised by `step` for a port access of another width or offset, "refused: the model gives it no meaning"
  (`20_memory.md` R64). Safe (log 11). -/
  | undecodedPort
deriving DecidableEq, Repr

/-- The cursor definition the model names for the state after reset (R50 leaves it unspecified; log 7). -/
def CursorDef.initial : CursorDef where
  kind := .legacy
  id := 0
  hotX := 0
  hotY := 0
  width := 0
  height := 0
  andBpp := 0
  xorBpp := 0
  andMask := []
  xorMask := []

/-- The machine right after its first `Reset` under a configuration: the table of `10_state.md` R50, empty traces,
no invocation, no input. Nothing has written the memories, so every byte of them is arbitrary (`70_reset_and_hazards.md`
R371, log 5). Ring latches and cursor buffers are named values (log 6, 7). -/
def State.resetOf (c : Config) : State where
  cfg := c
  enable := false
  config := false
  width := BitVec.ofNat 32 c.defaultWidth
  height := BitVec.ofNat 32 c.defaultHeight
  bpp := BitVec.ofNat 32 c.defaultBpp
  pitchlock := 0
  pitchlockCount := 0
  guestId := 0
  displayId := 0
  scratch := List.replicate c.scratchSize 0
  irqMask := 0
  irqStatus := 0
  irqLine := false
  lastCursorCount := 0
  index := 0
  svgaId := c.svgaId
  cursorId := 0
  cursorX := 0
  cursorY := 0
  cursorOn := 0
  syncing := false
  invalidated := true
  fifoMin := 0
  fifoMax := 0
  fifoNext := 0
  fifoStop := 0
  queue := []
  cur := CursorDef.initial
  logged := []
  out := []
  diag := []
  fifo := []
  fb := []
  trigger := none
  steps := 0
  progressed := false
  fired := false
  cmdStart := 0
  rem := 0
  outcome := none
  inputs := []
  guestSched := []
  guestReads := []
  guestData := 0
  draws := 0

/-- The machine right after power-on, its first `Reset`, under the default binding (R50, R371). -/
def State.reset : State := State.resetOf Config.default

end Sys2Proof.Machine
end

