-- ==== Sys2Proof/Machine/Memory.lean ====
section
/-! DEFINITION. Byte memory: one canonical form, reads and writes of one byte, and the little-endian word accesses
built on them (`20_memory.md` R60). -/

namespace Sys2Proof.Machine

/-- What an address no entry lists reads as: the arbitrary byte the memory held at power-on
(`70_reset_and_hazards.md` R371), a free value (log 5). -/
def Memory.unwritten : Space → Nat → Byte
  | .fifo, a => Config.powerOnFifo a
  | .fb, a => Config.powerOnFb a

/-- The canonical form: the bytes written since power-on, at strictly rising addresses (log 5). -/
abbrev Memory.wf (m : Memory) : Prop := m.Pairwise (fun a b => a.1 < b.1)

/-- The byte an entry lists for an address. -/
def Memory.lookup : Memory → Nat → Option Byte
  | [], _ => none
  | (k, b) :: m, a => if k = a then some b else Memory.lookup m a

/-- The byte at an address of a memory: the one last written, or the power-on one (R371). -/
def Memory.read (space : Space) (m : Memory) (a : Nat) : Byte :=
  match Memory.lookup m a with
  | some b => b
  | none => Memory.unwritten space a

/-- Stores one byte, keeping the canonical form. -/
def Memory.write : Memory → Nat → Byte → Memory
  | [], a, v => [(a, v)]
  | (k, b) :: m, a, v =>
    if a < k then (a, v) :: (k, b) :: m
    else if a = k then (a, v) :: m
    else (k, b) :: Memory.write m a v

/-- Stores bytes at rising addresses. -/
def Memory.writeBytes : Memory → Nat → List Byte → Memory
  | m, _, [] => m
  | m, a, b :: bs => Memory.writeBytes (Memory.write m a b) (a + 1) bs

/-- Stores the bytes of a string whose addresses lie below `size`; the others are no bytes of this memory. -/
def Memory.writeWithin (size : Nat) : Memory → Nat → List Byte → Memory
  | m, _, [] => m
  | m, a, b :: bs => Memory.writeWithin size (if a < size then Memory.write m a b else m) (a + 1) bs

/-- The little-endian word at a byte address (R60). -/
def Memory.read32 (space : Space) (m : Memory) (a : Nat) : Word :=
  wordOfBytes (Memory.read space m a) (Memory.read space m (a + 1)) (Memory.read space m (a + 2))
    (Memory.read space m (a + 3))

/-- Stores a word, little-endian (R60). -/
def Memory.write32 (m : Memory) (a : Nat) (v : Word) : Memory := Memory.writeBytes m a (bytesOfWord v)

end Sys2Proof.Machine
end

