-- ==== Sys2Proof/Machine/Operands.lean ====
section
/-! DEFINITION. How operands are read and checked: signed and unsigned readings (`30_encoding.md` R93), the surface
description (`10_state.md` R40), rectangle and framebuffer range checks (`45_rect_engine.md` R290, R292), cursor
validity (`43_cursor_commands.md` R241), and the values of the computed registers (`40_register_bank.md` R140). -/

namespace Sys2Proof.Machine

/-- `s32(v)` (`00_scope.md` R10), the reading of rectangle fields (R93). -/
def s32 (v : Word) : Int := v.toInt

/-- `Bypp()` (R40): bytes per pixel. -/
def bypp (s : State) : Nat := (s.bpp.toNat + 7) / 8

/-- `Stride()` (R40): the pitch-lock value while the override is active, else width times bytes per pixel. -/
def stride (s : State) : Nat :=
  if s.pitchlockCount = 1 then s.pitchlock.toNat else s.width.toNat * bypp s

/-- A surface description (R40). -/
structure Surface where
  w : Nat
  h : Nat
  stride : Nat
  bpp : Nat
deriving DecidableEq, Repr

/-- `Surface()` (R40), computed from the state and never stored (R291). -/
def surface (s : State) : Surface :=
  { w := s.width.toNat, h := s.height.toNat, stride := stride s, bpp := s.bpp.toNat }

/-- `VerifyRect` (R290): each field, read as signed, in `[0, MAX_DIM]`, and the rectangle inside the surface,
inclusively. -/
def verifyRect (c : Config) (S : Surface) (x y w h : Word) : Bool :=
  decide (0 ≤ s32 x) && decide (s32 x ≤ c.maxDim)
  && decide (0 ≤ s32 y) && decide (s32 y ≤ c.maxDim)
  && decide (0 ≤ s32 w) && decide (s32 w ≤ c.maxDim)
  && decide (0 ≤ s32 h) && decide (s32 h ≤ c.maxDim)
  && decide (s32 x + s32 w ≤ S.w) && decide (s32 y + s32 h ≤ S.h)

/-- The rectangle four verified words describe (R294). -/
def rectOf (x y w h : Word) : Rect :=
  { x := (s32 x).toNat, y := (s32 y).toNat, w := (s32 w).toNat, h := (s32 h).toNat }

/-- `FbRangeOk` (R292): the last byte the rectangle's rows reach lies inside the framebuffer. -/
def fbRangeOk (c : Config) (S : Surface) (bypp : Nat) (r : Rect) : Bool :=
  r.w == 0 || r.h == 0 || decide ((r.y + r.h - 1) * S.stride + (r.x + r.w) * bypp ≤ c.fbSize)

/-- The bytes of one pixel of a colour (R298): the low `bypp` bytes, least significant first. -/
def pixelBytes (bypp : Nat) (colour : Word) : List Byte := (List.range bypp).map (byteOf colour)

/-- `CursorValid` (R241). -/
def cursorValid (c : Config) (width height : Word) (andWords xorWords : Nat) : Bool :=
  decide (width.toNat ≤ cursorMaxDim) && decide (height.toNat ≤ cursorMaxDim)
  && decide (andWords ≤ c.cursorCap) && decide (xorWords ≤ c.cursorCap)

/-- The colours of a pixel mask register (R131). -/
inductive Colour where
  | red
  | green
  | blue
deriving DecidableEq, Repr

/-- `PixelMask(colour, bpp)` (R131). -/
def pixelMask : Colour → Nat → Word
  | .red, bpp => if bpp = 32 ∨ bpp = 24 then 0x00FF0000 else if bpp = 16 then 0xF800 else if bpp = 15 then 0x7C00 else 0
  | .green, bpp => if bpp = 32 ∨ bpp = 24 then 0x0000FF00 else if bpp = 16 then 0x07E0 else if bpp = 15 then 0x03E0 else 0
  | .blue, bpp => if bpp = 32 ∨ bpp = 24 then 0x000000FF else if bpp = 16 ∨ bpp = 15 then 0x001F else 0

/-- A flag as a register shows it: bit 0, the others 0 (`40_register_bank.md`, section 1). -/
def flagWord (b : Bool) : Word := if b then 1 else 0

/-- Elements a write of `ws` from index 0 on leaves in a mask array (R243): `ws`, then what stood behind them. -/
def overwriteMask (ws old : List Word) : List Word := ws ++ old.drop ws.length

end Sys2Proof.Machine
end

