-- ==== Sys2Proof/Machine/Ops.lean ====
section
/-! DEFINITION. The named operations every meaning is made of: traces, the guest's interleaved writes, checked
memory accesses of the core, reads delivered to the guest, and the core's local error recoveries, which are its
only form of exception (`60_exceptions.md` R330). -/

namespace Sys2Proof.Machine

/-- The outcome of an operation that can leave its memory. -/
def toOutcome : Except Fault State → Host.Outcome State Fault Refusal
  | .ok s => .next s
  | .error f => .fault f

/-- `emit E` (`00_scope.md` R11, `10_state.md` R48). -/
def emit (e : OutEvent) (s : State) : State := { s with out := s.out ++ [e] }

/-- `diag K(info)` (R11, R49). -/
def addDiag (d : Diag) (s : State) : State := { s with diag := s.diag ++ [d] }

/-- Delivers the result of a guest read (R121, R122, R342; log 10). -/
def returnData (v : Word) (s : State) : State := { s with guestData := v }

/-- Records the outcome a command handler returns (R211). -/
def setOutcome (o : CommandOutcome) (s : State) : State := { s with outcome := some o }

/-- `draw Word` (R11): a free word, a fresh one at each draw (log 8). -/
def drawWord (s : State) : Word × State := (Config.drawWord s.draws, { s with draws := s.draws + 1 })

/-! ### The guest's accesses -/

/-- The size of a memory (`20_memory.md` R70). -/
def spaceSize (c : Config) : Space → Nat
  | .fifo => c.fifoSize
  | .fb => c.fbSize

/-- A guest write to a shared memory (R76): the guest can write every byte of it. -/
def storeGuest (s : State) (w : GuestWrite) : State :=
  match w.space with
  | .fifo => { s with fifo := Memory.writeWithin s.cfg.fifoSize s.fifo w.addr w.bytes }
  | .fb => { s with fb := Memory.writeWithin s.cfg.fbSize s.fb w.addr w.bytes }

/-- The byte at an address of a shared memory (`10_state.md` R37, R39). -/
def sharedByte (s : State) : Space → Nat → Byte
  | .fifo, addr => Memory.read .fifo s.fifo addr
  | .fb, addr => Memory.read .fb s.fb addr

/-- A guest access between two memory accesses of the core. A write happens there under `cfg.GUEST_INTERLEAVE` alone
(R76); a read can fall anywhere ("at any time", `10_state.md` R37) and has no effect but its result (R67). An address
the memory does not have is dropped (log 4). -/
def applyGuest (s : State) (a : GuestAccess) : State :=
  match a with
  | .write w => if s.cfg.guestInterleave then storeGuest s w else s
  | .read space addr =>
    if addr < spaceSize s.cfg space then { s with guestReads := s.guestReads ++ [sharedByte s space addr] } else s

/-- What happens just before a memory access of the core (R37, R76): the next group of scheduled guest accesses, a
finite sequence (log 4). -/
def tick (s : State) : State :=
  match s.guestSched with
  | [] => s
  | as :: rest => as.foldl applyGuest { s with guestSched := rest }

/-! ### The core's memory accesses -/

/-- `FifoRead32(off)` (R11, R60), checked (R83). -/
def fifoRead32 (off : Nat) (s : State) : Except Fault (Word × State) :=
  let t := tick s
  if off % 4 = 0 ∧ off + 4 ≤ t.cfg.fifoSize then .ok (Memory.read32 .fifo t.fifo off, t) else .error .fifoAccess

/-- `FifoWrite32(off, v)` (R11, R60), checked (R83). -/
def fifoWrite32 (off : Nat) (v : Word) (s : State) : Except Fault State :=
  let t := tick s
  if off % 4 = 0 ∧ off + 4 ≤ t.cfg.fifoSize then .ok { t with fifo := Memory.write32 t.fifo off v }
  else .error .fifoAccess

/-- `FbRead(off, n)` (R11): bytes lowest address first, each one access (R66), checked (R292). That they are also read
in that order, with the guest's accesses between two of them, is a DESIGN CHOICE (log 21). -/
def fbRead : Nat → Nat → State → Except Fault (List Byte × State)
  | _, 0, s => .ok ([], s)
  | off, n + 1, s =>
    let t := tick s
    if off < t.cfg.fbSize then
      match fbRead (off + 1) n t with
      | .ok (bs, u) => .ok (Memory.read .fb t.fb off :: bs, u)
      | .error f => .error f
    else .error .fbAccess

/-- `FbWrite(off, bytes)` (R11), each byte one access (R66), checked (R292). DESIGN CHOICE (log 21): the bytes are stored
lowest address first; R11 gives no order, and a guest access between two of them can see one. -/
def fbWrite : Nat → List Byte → State → Except Fault State
  | _, [], s => .ok s
  | off, b :: bs, s =>
    let t := tick s
    if off < t.cfg.fbSize then fbWrite (off + 1) bs { t with fb := Memory.write t.fb off b }
    else .error .fbAccess

/-! ### Local recoveries: what the core does instead of taking an exception (R330) -/

/-- A rejected register write (`40_register_bank.md` R146, `60_exceptions.md` R331): the diagnostic, nothing else. -/
def rejectWrite (name : RegName) (v : Word) (s : State) : State := addDiag (.badRegWrite name v) s

/-- An access at an invalid register index (R167, R337): the diagnostic, every time. -/
def invalidIndex (dir : Direction) (index : Word) (s : State) : State := addDiag (.badRegIndex dir index) s

/-- The once-only diagnostic of `SkipPath` (`42_decoder.md` R220): once per opcode value per reset. -/
def logOnce (op : Word) (s : State) : State :=
  if op ∈ s.logged then s else { addDiag (.unknownCmd op) s with logged := s.logged ++ [op] }

/-- The tail of `SkipPath(op, n)` (R220) once its words are consumed: log once, return SkippedUnknown. -/
def skipped (op : Word) (s : State) : State := setOutcome .skippedUnknown (logOnce op s)

end Sys2Proof.Machine
end

