-- ==== Sys2Proof/Machine/Flags.lean ====
section
/-! DEFINITION. The core's Boolean flags (`10_state.md` R46) and the Interrupt Controller (`60_exceptions.md` R338 to
R345): events, the line, acknowledge; FIFO mode; the start and the end of a decoder invocation. -/

namespace Sys2Proof.Machine

/-- FIFO mode (R23): enabled and configured; otherwise the device is in legacy fallback mode. -/
def fifoMode (s : State) : Bool := s.enable && s.config

/-- The dirty-tracking event of an ENABLE write (`40_register_bank.md` R125), from the values just written. -/
def trackingEvent (s : State) : OutEvent := .dirtyTracking (if fifoMode s then .stop else .start)

/-- `IrqEvent(bit)` (R339). -/
def irqEvent (bit : Word) (s : State) : State :=
  if s.irqMask &&& bit ≠ 0 then { s with irqStatus := s.irqStatus ||| bit, fired := true }
  else if s.cfg.irqStatusSetsUnmasked then { s with irqStatus := s.irqStatus ||| bit }
  else s

/-- The line decision at the end of an invocation (R340): raised if an event fired and a status bit is enabled. -/
def raiseLine (s : State) : State :=
  if s.fired ∧ s.irqStatus &&& s.irqMask ≠ 0 then emit .irqRaise { s with irqLine := true } else s

/-- Lowers the line and reports it, if it was raised (R341, R370, `90_conflicts.md` C6). -/
def lowerLine (s : State) : State := if s.irqLine then emit .irqLower { s with irqLine := false } else s

/-- Acknowledge (R341): clears exactly the bits specified; the line is lowered once `status` becomes zero. -/
def acknowledge (v : Word) (s : State) : State :=
  let t := { s with irqStatus := s.irqStatus &&& ~~~v }
  if t.irqStatus = 0 then lowerLine t else t

/-- The head of `DecoderInvoke` (`42_decoder.md` R210): the working variables start afresh and the drain loop runs
in the steps that follow, before any other operation of the guest or the host (log 2). -/
def startInvocation (t : Trigger) (s : State) : State :=
  { s with trigger := some t, steps := 0, progressed := false, fired := false }

/-- `EndOfInvocation` (R212): fifo-progress if a command advanced `stop`, the line decision, `syncing` cleared. -/
def endOfInvocation (s : State) : State :=
  let t := raiseLine (if s.progressed then irqEvent s.cfg.irq.fifoProgress s else s)
  { t with syncing := false, trigger := none }

end Sys2Proof.Machine
end

