-- ==== Sys2Proof/Machine/Redraw.lean ====
section
/-! DEFINITION. The Delayed Redraw Queue and the two halves of `Refresh` around the decoder
(`46_redraw_queue.md`). -/

namespace Sys2Proof.Machine

/-- The `Update` event of a queued rectangle (R312). -/
def updateEvent (r : Rect) : OutEvent := .update r.x r.y r.w r.h

/-- `flush()` (R312): every queued rectangle to the compositor in order, or none while invalidated; the queue is
empty afterwards. -/
def flush (s : State) : State :=
  { s with out := if s.invalidated then s.out else s.out ++ s.queue.map updateEvent, queue := [] }

/-- `append(r)` (R311): flushes first if the queue is at capacity. -/
def append (r : Rect) (s : State) : State :=
  let t := if s.queue.length = redrawCap then flush s else s
  { t with queue := t.queue ++ [r] }

/-- `FullSurfaceUpdate()` (`45_rect_engine.md` R295). -/
def fullSurfaceUpdate (s : State) : State :=
  append { x := 0, y := 0, w := (surface s).w, h := (surface s).h } s

/-- `CursorBypassPoll()` (R318): four free words. -/
def cursorBypassPoll (s : State) : State :=
  let (count, s) := drawWord s
  let (x, s) := drawWord s
  let (y, s) := drawWord s
  let (on, s) := drawWord s
  { s with lastCursorCount := count, cursorX := x, cursorY := y, cursorOn := on }

/-- The head of `Refresh` (R316, R317): the poll, then the legacy renderer or a decoder invocation. -/
def refreshStart (s : State) : State :=
  let t := cursorBypassPoll s
  if fifoMode t then startInvocation .refresh t else emit .legacyRender t

/-- The tail of `Refresh` in FIFO mode (R316): flush, then the full redraw if invalidated. -/
def refreshEnd (s : State) : State :=
  let t := flush s
  if t.invalidated then
    let S := surface t
    { emit .fullRedraw (emit (.modeSet S.w S.h S.stride S.bpp) t) with invalidated := false }
  else t

end Sys2Proof.Machine
end

