-- ==== Sys2Proof/Machine/RectEngine.lean ====
section
/-! DEFINITION. The Rectangle Engine (`45_rect_engine.md`): Update, Copy, Fill. An operation answers `none` where the
spec's returns `fail`, having changed nothing (R293). -/

namespace Sys2Proof.Machine

/-- `RectUpdate` (R294). -/
def rectUpdate (x y w h : Word) (s : State) : Option State :=
  if verifyRect s.cfg (surface s) x y w h then some (append (rectOf x y w h) s) else none

/-- The order of the lines of a copy (R296): bottom to top where the destination lies below the source. -/
def copyLines (sy dy h : Nat) : List Nat := if dy > sy then (List.range h).reverse else List.range h

/-- One line of a copy (R296): the whole row is read, then written. -/
def copyLine (S : Surface) (bypp : Nat) (src dst : Rect) (line : Nat) (s : State) : Except Fault State :=
  match fbRead ((src.y + line) * S.stride + src.x * bypp) (src.w * bypp) s with
  | .ok (row, t) => fbWrite ((dst.y + line) * S.stride + dst.x * bypp) row t
  | .error f => .error f

/-- The lines of a copy, in the order given. -/
def copyAll (S : Surface) (bypp : Nat) (src dst : Rect) : List Nat → State → Except Fault State
  | [], s => .ok s
  | line :: lines, s =>
    match copyLine S bypp src dst line s with
    | .ok t => copyAll S bypp src dst lines t
    | .error f => .error f

/-- The checks of a copy (R296), all before the first access. -/
def copyOk (s : State) (sx sy dx dy w h : Word) : Bool :=
  verifyRect s.cfg (surface s) sx sy w h && verifyRect s.cfg (surface s) dx dy w h
  && fbRangeOk s.cfg (surface s) (bypp s) (rectOf sx sy w h)
  && fbRangeOk s.cfg (surface s) (bypp s) (rectOf dx dy w h)

/-- `RectCopy` (R296). -/
def rectCopy (sx sy dx dy w h : Word) (s : State) : Except Fault (Option State) :=
  if copyOk s sx sy dx dy w h then
    match copyAll (surface s) (bypp s) (rectOf sx sy w h) (rectOf dx dy w h)
        (copyLines (s32 sy).toNat (s32 dy).toNat (s32 h).toNat) s with
    | .ok t => .ok (some (append (rectOf dx dy w h) t))
    | .error f => .error f
  else .ok none

/-- The scratch row of a fill (R298): the pixel, repeated. -/
def fillRow (bypp w : Nat) (colour : Word) : List Byte := (List.replicate w (pixelBytes bypp colour)).flatten

/-- The lines of a fill, top to bottom (R298). -/
def fillAll (S : Surface) (bypp : Nat) (row : List Byte) (dst : Rect) : List Nat → State → Except Fault State
  | [], s => .ok s
  | line :: lines, s =>
    match fbWrite ((dst.y + line) * S.stride + dst.x * bypp) row s with
    | .ok t => fillAll S bypp row dst lines t
    | .error f => .error f

/-- The checks of a fill (R298). -/
def fillOk (s : State) (x y w h : Word) : Bool :=
  verifyRect s.cfg (surface s) x y w h && fbRangeOk s.cfg (surface s) (bypp s) (rectOf x y w h)

/-- `RectFill` (R298). -/
def rectFill (colour x y w h : Word) (s : State) : Except Fault (Option State) :=
  if fillOk s x y w h then
    match fillAll (surface s) (bypp s) (fillRow (bypp s) (s32 w).toNat colour) (rectOf x y w h)
        (List.range (s32 h).toNat) s with
    | .ok t => .ok (some (append (rectOf x y w h) t))
    | .error f => .error f
  else .ok none

end Sys2Proof.Machine
end

