-- ==== Sys2Proof/Machine/Commands.lean ====
section
/-! DEFINITION. The implemented format-F commands (`42_decoder.md` R215 to R219): what each does once its argument
words are consumed. -/

namespace Sys2Proof.Machine

/-- The common effect of UPDATE and UPDATE_VERBOSE (R215, R216): enqueue the rectangle, or the whole surface with a
diagnostic where the rectangle fails validation. -/
def updateOrFallback (op : CmdName) (x y w h : Word) (s : State) : State :=
  match rectUpdate x y w h s with
  | some t => setOutcome .applied t
  | none => setOutcome .applied (fullSurfaceUpdate (addDiag (.badRect op x y w h) s))

/-- UPDATE (R215). -/
def execUpdate (x y w h : Word) (s : State) : Host.Outcome State Fault Refusal :=
  .next (updateOrFallback .update x y w h s)

/-- UPDATE_VERBOSE (R216): the `reason` word is consumed and otherwise ignored. -/
def execUpdateVerbose (x y w h _reason : Word) (s : State) : Host.Outcome State Fault Refusal :=
  .next (updateOrFallback .updateVerbose x y w h s)

/-- RECT_COPY (R217): Applied, or on failure the full-surface rectangle and the skip path with zero extra words
(`90_conflicts.md` C1). -/
def execRectCopy (srcX srcY dstX dstY w h : Word) (s : State) : Host.Outcome State Fault Refusal :=
  match rectCopy srcX srcY dstX dstY w h s with
  | .ok (some t) => .next (setOutcome .applied t)
  | .ok none => .next (skipped s.cfg.opc.rectCopy (fullSurfaceUpdate s))
  | .error f => .fault f

/-- RECT_FILL (R219), failing as RECT_COPY does. Where `cfg.OPC_RECT_FILL` is none no command reaches it, and a
failure has no opcode number to report (log 16). -/
def execRectFill (colour x y w h : Word) (s : State) : Host.Outcome State Fault Refusal :=
  match rectFill colour x y w h s with
  | .ok (some t) => .next (setOutcome .applied t)
  | .ok none =>
    match s.cfg.opcRectFill with
    | some op => .next (skipped op (fullSurfaceUpdate s))
    | none => .next (setOutcome .skippedUnknown (fullSurfaceUpdate s))
  | .error f => .fault f

/-- Whether the header slot of the fence goal exists (R218): the header region `[0, min)` holds the whole word. -/
def fenceGoalExists (s : State) : Bool := decide (4 * (s.cfg.hdr.fenceGoal + 1) ≤ s.fifoMin.toNat)

/-- The goal half of FENCE (R218): the fence-goal event where the slot exists and holds the fence value. -/
def fenceGoal (fence : Word) (s : State) : Except Fault State :=
  if fenceGoalExists s then do
    let (goal, s) ← fifoRead32 (4 * s.cfg.hdr.fenceGoal) s
    .ok (if goal = fence then irqEvent s.cfg.irq.fenceGoal s else s)
  else .ok s

/-- FENCE (R218): latch the value into header word 6, any-fence, then the goal. -/
def execFence (fence : Word) (s : State) : Host.Outcome State Fault Refusal :=
  toOutcome (do
    let s ← fifoWrite32 (4 * hdrFence) fence s
    let s ← fenceGoal fence (irqEvent s.cfg.irq.anyFence s)
    .ok (setOutcome .applied s))

end Sys2Proof.Machine
end

