-- ==== Sys2Proof/Machine/Cursor.lean ====
section
/-! DEFINITION. The cursor-definition commands (`43_cursor_commands.md`): what each does once its fixed and payload
words are consumed. The composition of the image is the cursor sink's (R248). -/

namespace Sys2Proof.Machine

/-- DEFINE_CURSOR (R243): a valid definition overwrites the buffers and goes to the cursor sink; an invalid one is
skipped, its payload consumed (R242). -/
def execDefineCursor (id hotX hotY width height andBpp xorBpp : Word) (payload : List Word) (s : State) :
    Host.Outcome State Fault Refusal :=
  let andWords := maskWords width andBpp height
  let xorWords := maskWords width xorBpp height
  if cursorValid s.cfg width height andWords xorWords then
    let andMask := payload.take andWords
    let xorMask := (payload.drop andWords).take xorWords
    let cur : CursorDef := { kind := .legacy, id, hotX, hotY, width, height, andBpp, xorBpp, andMask, xorMask }
    .next (setOutcome .applied (emit (.cursorDefine .legacy cur)
      { s with cur := { cur with andMask := overwriteMask andMask s.cur.andMask,
                                 xorMask := overwriteMask xorMask s.cur.xorMask } }))
  else .next (skipped s.cfg.opc.defineCursor s)

/-- DEFINE_ALPHA_CURSOR (R246): the packed pixels go to the XOR array, the AND array is not written. -/
def execDefineAlphaCursor (id hotX hotY width height : Word) (pixels : List Word) (s : State) :
    Host.Outcome State Fault Refusal :=
  let words := alphaWords width height
  if cursorValid s.cfg width height 0 words then
    let xorMask := pixels.take words
    let cur : CursorDef :=
      { kind := .alpha, id, hotX, hotY, width, height, andBpp := 0, xorBpp := 32, andMask := [], xorMask }
    .next (setOutcome .applied (emit (.cursorDefine .alpha cur)
      { s with cur := { cur with andMask := s.cur.andMask,
                                 xorMask := overwriteMask xorMask s.cur.xorMask } }))
  else .next (skipped s.cfg.opc.defineAlphaCursor s)

end Sys2Proof.Machine
end

