-- ==== Sys2Proof/Machine/Registers.lean ====
section
/-! DEFINITION. The Register Bank (`40_register_bank.md`): one meaning per register, read and write. -/

namespace Sys2Proof.Machine

/-- REG_ID (R124): a write is accepted among `cfg.SUPPORTED_IDS`. -/
def execRegId (acc : RegAccess) (s : State) : Host.Outcome State Fault Refusal :=
  match acc with
  | .read => .next (returnData (s.svgaId) s)
  | .write v =>
    if v ∈ s.cfg.supportedIds then .next { s with svgaId := v } else .next (rejectWrite .id v s)

/-- REG_ENABLE (R125): stores the flag, forces invalidation, switches dirty tracking on the new value. -/
def execRegEnable (acc : RegAccess) (s : State) : Host.Outcome State Fault Refusal :=
  match acc with
  | .read => .next (returnData (flagWord s.enable) s)
  | .write v =>
    let t := { s with enable := v != 0, invalidated := true }
    .next (emit (trackingEvent t) t)

/-- REG_WIDTH (R126): accepted within the maximum; an accepted write ends a pitch-lock override. -/
def execRegWidth (acc : RegAccess) (s : State) : Host.Outcome State Fault Refusal :=
  match acc with
  | .read => .next (returnData (s.width) s)
  | .write v =>
    if v.toNat ≤ s.cfg.maxWidth then .next { s with width := v, invalidated := true, pitchlockCount := 0 }
    else .next (rejectWrite .width v s)

/-- REG_HEIGHT (R127). -/
def execRegHeight (acc : RegAccess) (s : State) : Host.Outcome State Fault Refusal :=
  match acc with
  | .read => .next (returnData (s.height) s)
  | .write v =>
    if v.toNat ≤ s.cfg.maxHeight then .next { s with height := v, invalidated := true }
    else .next (rejectWrite .height v s)

/-- REG_MAX_WIDTH (R128): read only. -/
def execRegMaxWidth (acc : RegAccess) (s : State) : Host.Outcome State Fault Refusal :=
  match acc with
  | .read => .next (returnData (BitVec.ofNat 32 s.cfg.maxWidth) s)
  | .write v => .next (rejectWrite .maxWidth v s)

/-- REG_MAX_HEIGHT (R129): read only. -/
def execRegMaxHeight (acc : RegAccess) (s : State) : Host.Outcome State Fault Refusal :=
  match acc with
  | .read => .next (returnData (BitVec.ofNat 32 s.cfg.maxHeight) s)
  | .write v => .next (rejectWrite .maxHeight v s)

/-- REG_BITS_PER_PIXEL (R130): accepted in `cfg.BPP_LEGAL`. -/
def execRegBitsPerPixel (acc : RegAccess) (s : State) : Host.Outcome State Fault Refusal :=
  match acc with
  | .read => .next (returnData (s.bpp) s)
  | .write v =>
    if v.toNat ∈ s.cfg.bppLegal then .next { s with bpp := v, invalidated := true }
    else .next (rejectWrite .bitsPerPixel v s)

/-- REG_RED_MASK (R131): read only. -/
def execRegRedMask (acc : RegAccess) (s : State) : Host.Outcome State Fault Refusal :=
  match acc with
  | .read => .next (returnData (pixelMask .red s.bpp.toNat) s)
  | .write v => .next (rejectWrite .redMask v s)

/-- REG_GREEN_MASK (R132): read only. -/
def execRegGreenMask (acc : RegAccess) (s : State) : Host.Outcome State Fault Refusal :=
  match acc with
  | .read => .next (returnData (pixelMask .green s.bpp.toNat) s)
  | .write v => .next (rejectWrite .greenMask v s)

/-- REG_BLUE_MASK (R133): read only. -/
def execRegBlueMask (acc : RegAccess) (s : State) : Host.Outcome State Fault Refusal :=
  match acc with
  | .read => .next (returnData (pixelMask .blue s.bpp.toNat) s)
  | .write v => .next (rejectWrite .blueMask v s)

/-- REG_BYTES_PER_LINE (R134): read only. -/
def execRegBytesPerLine (acc : RegAccess) (s : State) : Host.Outcome State Fault Refusal :=
  match acc with
  | .read => .next (returnData (BitVec.ofNat 32 (stride s)) s)
  | .write v => .next (rejectWrite .bytesPerLine v s)

/-- REG_FB_START (R135): read only. -/
def execRegFbStart (acc : RegAccess) (s : State) : Host.Outcome State Fault Refusal :=
  match acc with
  | .read => .next (returnData (s.cfg.fbBase) s)
  | .write v => .next (rejectWrite .fbStart v s)

/-- REG_FB_SIZE (R136): read only. -/
def execRegFbSize (acc : RegAccess) (s : State) : Host.Outcome State Fault Refusal :=
  match acc with
  | .read => .next (returnData (BitVec.ofNat 32 s.cfg.fbSize) s)
  | .write v => .next (rejectWrite .fbSize v s)

/-- REG_CAPABILITIES (R141): read only. -/
def execRegCapabilities (acc : RegAccess) (s : State) : Host.Outcome State Fault Refusal :=
  match acc with
  | .read => .next (returnData (s.cfg.caps) s)
  | .write v => .next (rejectWrite .capabilities v s)

/-- REG_MEM_START (R137): read only. -/
def execRegMemStart (acc : RegAccess) (s : State) : Host.Outcome State Fault Refusal :=
  match acc with
  | .read => .next (returnData (s.cfg.fifoBase) s)
  | .write v => .next (rejectWrite .memStart v s)

/-- REG_MEM_SIZE (R138): read only. -/
def execRegMemSize (acc : RegAccess) (s : State) : Host.Outcome State Fault Refusal :=
  match acc with
  | .read => .next (returnData (BitVec.ofNat 32 s.cfg.fifoSize) s)
  | .write v => .next (rejectWrite .memSize v s)

/-- REG_CONFIG_DONE (R143): stores the flag; a true value stops external dirty tracking. -/
def execRegConfigDone (acc : RegAccess) (s : State) : Host.Outcome State Fault Refusal :=
  match acc with
  | .read => .next (returnData (flagWord s.config) s)
  | .write v =>
    let t := { s with config := v != 0 }
    .next (if v ≠ 0 then emit (.dirtyTracking .stop) t else t)

/-- REG_SYNC (R144): a write of any value starts a decoder invocation, which runs to its end in the steps that
follow before any other operation (log 2). -/
def execRegSync (acc : RegAccess) (s : State) : Host.Outcome State Fault Refusal :=
  match acc with
  | .read => .next (returnData (flagWord s.syncing) s)
  | .write _ => .next (startInvocation .sync { s with syncing := true })

/-- REG_BUSY (R145): read only. -/
def execRegBusy (acc : RegAccess) (s : State) : Host.Outcome State Fault Refusal :=
  match acc with
  | .read => .next (returnData (flagWord s.syncing) s)
  | .write v => .next (rejectWrite .busy v s)

/-- REG_GUEST_ID (R147): plain storage. -/
def execRegGuestId (acc : RegAccess) (s : State) : Host.Outcome State Fault Refusal :=
  match acc with
  | .read => .next (returnData (s.guestId) s)
  | .write v => .next { s with guestId := v }

/-- REG_CURSOR_ID (R148): plain storage. -/
def execRegCursorId (acc : RegAccess) (s : State) : Host.Outcome State Fault Refusal :=
  match acc with
  | .read => .next (returnData (s.cursorId) s)
  | .write v => .next { s with cursorId := v }

/-- REG_CURSOR_X (R149): plain storage. -/
def execRegCursorX (acc : RegAccess) (s : State) : Host.Outcome State Fault Refusal :=
  match acc with
  | .read => .next (returnData (s.cursorX) s)
  | .write v => .next { s with cursorX := v }

/-- REG_CURSOR_Y (R150): plain storage. -/
def execRegCursorY (acc : RegAccess) (s : State) : Host.Outcome State Fault Refusal :=
  match acc with
  | .read => .next (returnData (s.cursorY) s)
  | .write v => .next { s with cursorY := v }

/-- REG_CURSOR_ON (R151): plain storage. -/
def execRegCursorOn (acc : RegAccess) (s : State) : Host.Outcome State Fault Refusal :=
  match acc with
  | .read => .next (returnData (s.cursorOn) s)
  | .write v => .next { s with cursorOn := v }

/-- What SCRATCH_SIZE reads (R152): `cfg.SCRATCH_SIZE`. R9 bounds it only from below, and R152 states no word for one of
2^32 or more: a free one (log 23). -/
def scratchSizeWord (c : Config) : Word :=
  if c.scratchSize < 2 ^ 32 then BitVec.ofNat 32 c.scratchSize else Config.oversizedScratch c.scratchSize

/-- REG_SCRATCH_SIZE (R152): read only. -/
def execRegScratchSize (acc : RegAccess) (s : State) : Host.Outcome State Fault Refusal :=
  match acc with
  | .read => .next (returnData (scratchSizeWord s.cfg) s)
  | .write v => .next (rejectWrite .scratchSize v s)

/-- REG_PITCHLOCK (R160): every value is stored; a non-zero one activates the override, zero removes it. -/
def execRegPitchlock (acc : RegAccess) (s : State) : Host.Outcome State Fault Refusal :=
  match acc with
  | .read => .next (returnData (s.pitchlock) s)
  | .write v => .next { s with pitchlock := v, pitchlockCount := if v ≠ 0 then 1 else 0 }

/-- REG_IRQMASK (R161): all 32 bits; neither status nor line changes. -/
def execRegIrqmask (acc : RegAccess) (s : State) : Host.Outcome State Fault Refusal :=
  match acc with
  | .read => .next (returnData (s.irqMask) s)
  | .write v => .next { s with irqMask := v }

/-- REG_DISPLAY_ID (R153): plain storage. -/
def execRegDisplayId (acc : RegAccess) (s : State) : Host.Outcome State Fault Refusal :=
  match acc with
  | .read => .next (returnData (s.displayId) s)
  | .write v => .next { s with displayId := v }

/-- REG_DISPLAY_IS_PRIMARY (R154): a stub without storage; writes are accepted and discarded. -/
def execRegDisplayIsPrimary (acc : RegAccess) (s : State) : Host.Outcome State Fault Refusal :=
  match acc with
  | .read => .next (returnData (1) s)
  | .write _ => .next s

/-- REG_DISPLAY_POSITION_X (R155): a stub without storage; writes are accepted and discarded. -/
def execRegDisplayPositionX (acc : RegAccess) (s : State) : Host.Outcome State Fault Refusal :=
  match acc with
  | .read => .next (returnData (0) s)
  | .write _ => .next s

/-- REG_DISPLAY_POSITION_Y (R156): a stub without storage; writes are accepted and discarded. -/
def execRegDisplayPositionY (acc : RegAccess) (s : State) : Host.Outcome State Fault Refusal :=
  match acc with
  | .read => .next (returnData (0) s)
  | .write _ => .next s

/-- REG_DISPLAY_WIDTH (R157): a stub without storage; writes are accepted and discarded. -/
def execRegDisplayWidth (acc : RegAccess) (s : State) : Host.Outcome State Fault Refusal :=
  match acc with
  | .read => .next (returnData (s.width) s)
  | .write _ => .next s

/-- REG_DISPLAY_HEIGHT (R158): a stub without storage; writes are accepted and discarded. -/
def execRegDisplayHeight (acc : RegAccess) (s : State) : Host.Outcome State Fault Refusal :=
  match acc with
  | .read => .next (returnData (s.height) s)
  | .write _ => .next s

/-- REG_CAP2 (R142): read only. -/
def execRegCap2 (acc : RegAccess) (s : State) : Host.Outcome State Fault Refusal :=
  match acc with
  | .read => .next (returnData (s.cfg.caps2) s)
  | .write v => .next (rejectWrite .cap2 v s)

/-- REG_PALETTE (R166): accepted but inert, reads 0. -/
def execRegPalette (_k : Nat) (acc : RegAccess) (s : State) : Host.Outcome State Fault Refusal :=
  match acc with
  | .read => .next (returnData 0 s)
  | .write _ => .next s

/-- REG_SCRATCH (R165): scratch register `x[i]`. The check `i < cfg.SCRATCH_SIZE` is made on every access; an element
beyond the block is an invalid index (R167). -/
def execRegScratch (i : Nat) (acc : RegAccess) (s : State) : Host.Outcome State Fault Refusal :=
  if i < s.cfg.scratchSize then
    match acc with
    | .read => .next (returnData (s.scratch.getD i 0) s)
    | .write v => .next { s with scratch := s.scratch.set i v }
  else
    match acc with
    | .read => .next (returnData 0 (invalidIndex .read (BitVec.ofNat 32 (s.cfg.scratchBase + i)) s))
    | .write _ => .next (invalidIndex .write (BitVec.ofNat 32 (s.cfg.scratchBase + i)) s)

/-- REG_INVALID (R167): reads 0, ignores writes, diagnosed at every access. -/
def execRegInvalid (index : Word) (acc : RegAccess) (s : State) : Host.Outcome State Fault Refusal :=
  match acc with
  | .read => .next (returnData 0 (invalidIndex .read index s))
  | .write _ => .next (invalidIndex .write index s)

end Sys2Proof.Machine
end

