-- ==== Sys2Proof/Machine/Ports.lean ====
section
/-! DEFINITION. The six port operations (`30_encoding.md` R101; `40_register_bank.md` R120 to R123; `60_exceptions.md`
R341, R342). -/

namespace Sys2Proof.Machine

/-- The access of a named register. -/
def accessNamed (acc : RegAccess) (s : State) : RegName → Host.Outcome State Fault Refusal
  | .id => execRegId acc s
  | .enable => execRegEnable acc s
  | .width => execRegWidth acc s
  | .height => execRegHeight acc s
  | .maxWidth => execRegMaxWidth acc s
  | .maxHeight => execRegMaxHeight acc s
  | .bitsPerPixel => execRegBitsPerPixel acc s
  | .redMask => execRegRedMask acc s
  | .greenMask => execRegGreenMask acc s
  | .blueMask => execRegBlueMask acc s
  | .bytesPerLine => execRegBytesPerLine acc s
  | .fbStart => execRegFbStart acc s
  | .fbSize => execRegFbSize acc s
  | .capabilities => execRegCapabilities acc s
  | .memStart => execRegMemStart acc s
  | .memSize => execRegMemSize acc s
  | .configDone => execRegConfigDone acc s
  | .sync => execRegSync acc s
  | .busy => execRegBusy acc s
  | .guestId => execRegGuestId acc s
  | .cursorId => execRegCursorId acc s
  | .cursorX => execRegCursorX acc s
  | .cursorY => execRegCursorY acc s
  | .cursorOn => execRegCursorOn acc s
  | .scratchSize => execRegScratchSize acc s
  | .pitchlock => execRegPitchlock acc s
  | .irqmask => execRegIrqmask acc s
  | .displayId => execRegDisplayId acc s
  | .displayIsPrimary => execRegDisplayIsPrimary acc s
  | .displayPositionX => execRegDisplayPositionX acc s
  | .displayPositionY => execRegDisplayPositionY acc s
  | .displayWidth => execRegDisplayWidth acc s
  | .displayHeight => execRegDisplayHeight acc s
  | .cap2 => execRegCap2 acc s

/-- A value-port operation (R122, R123): the access of the register the latched index selects (R71). -/
def accessSelected (acc : RegAccess) (s : State) : Host.Outcome State Fault Refusal :=
  match s.cfg.classify s.index with
  | .named n => accessNamed acc s n
  | .palette k => execRegPalette k acc s
  | .scratch i => execRegScratch i acc s
  | .invalid index => execRegInvalid index acc s

/-- PORT_INDEX_WRITE (R120): latches any value. -/
def execPortIndexWrite (v : Word) (s : State) : Host.Outcome State Fault Refusal := .next { s with index := v }

/-- PORT_INDEX_READ (R121). -/
def execPortIndexRead (s : State) : Host.Outcome State Fault Refusal := .next (returnData s.index s)

/-- PORT_VALUE_READ (R122). -/
def execPortValueRead (s : State) : Host.Outcome State Fault Refusal := accessSelected .read s

/-- PORT_VALUE_WRITE (R123). -/
def execPortValueWrite (v : Word) (s : State) : Host.Outcome State Fault Refusal := accessSelected (.write v) s

/-- PORT_IRQSTATUS_WRITE (R341): acknowledge. -/
def execPortIrqStatusWrite (v : Word) (s : State) : Host.Outcome State Fault Refusal := .next (acknowledge v s)

/-- PORT_IRQSTATUS_READ (R342): all bits, not masked. -/
def execPortIrqStatusRead (s : State) : Host.Outcome State Fault Refusal := .next (returnData s.irqStatus s)

end Sys2Proof.Machine
end

