-- ==== Sys2Proof/Machine/Skip.lean ====
section
/-! DEFINITION. The recognised-but-unimplemented commands and unknown opcodes (`44_skip_commands.md`): once their
words are consumed, the once-only diagnostic and nothing else (R260, R281). -/

namespace Sys2Proof.Machine

/-- INVALID_CMD (R262). -/
def execInvalidCmd (_args : List Word) (s : State) :
    Host.Outcome State Fault Refusal :=
  .next (skipped s.cfg.opc.invalidCmd s)

/-- ESCAPE (R263). -/
def execEscape (_nsid _size _payload : List Word) (s : State) :
    Host.Outcome State Fault Refusal :=
  .next (skipped s.cfg.opc.escape s)

/-- DEFINE_SCREEN (R264). -/
def execDefineScreen (_args _payload : List Word) (s : State) :
    Host.Outcome State Fault Refusal :=
  .next (skipped s.cfg.opc.defineScreen s)

/-- DESTROY_SCREEN (R265). -/
def execDestroyScreen (_args : List Word) (s : State) :
    Host.Outcome State Fault Refusal :=
  .next (skipped s.cfg.opc.destroyScreen s)

/-- DEFINE_GMRFB (R266). -/
def execDefineGmrfb (_args : List Word) (s : State) :
    Host.Outcome State Fault Refusal :=
  .next (skipped s.cfg.opc.defineGmrfb s)

/-- BLIT_GMRFB_TO_SCREEN (R267). -/
def execBlitGmrfbToScreen (_args : List Word) (s : State) :
    Host.Outcome State Fault Refusal :=
  .next (skipped s.cfg.opc.blitGmrfbToScreen s)

/-- BLIT_SCREEN_TO_GMRFB (R268). -/
def execBlitScreenToGmrfb (_args : List Word) (s : State) :
    Host.Outcome State Fault Refusal :=
  .next (skipped s.cfg.opc.blitScreenToGmrfb s)

/-- ANNOTATION_FILL (R269). -/
def execAnnotationFill (_args : List Word) (s : State) :
    Host.Outcome State Fault Refusal :=
  .next (skipped s.cfg.opc.annotationFill s)

/-- ANNOTATION_COPY (R270). -/
def execAnnotationCopy (_args : List Word) (s : State) :
    Host.Outcome State Fault Refusal :=
  .next (skipped s.cfg.opc.annotationCopy s)

/-- DEFINE_GMR2 (R271). -/
def execDefineGmr2 (_args : List Word) (s : State) :
    Host.Outcome State Fault Refusal :=
  .next (skipped s.cfg.opc.defineGmr2 s)

/-- REMAP_GMR2 (R272). -/
def execRemapGmr2 (_gmrId _flags _offsetPages _numPages : Word) (_payload : List Word) (s : State) :
    Host.Outcome State Fault Refusal :=
  .next (skipped s.cfg.opc.remapGmr2 s)

/-- DEAD (R273). -/
def execDead (_args : List Word) (s : State) :
    Host.Outcome State Fault Refusal :=
  .next (skipped s.cfg.opc.dead s)

/-- DEAD_2 (R274). -/
def execDead2 (_args : List Word) (s : State) :
    Host.Outcome State Fault Refusal :=
  .next (skipped s.cfg.opc.dead2 s)

/-- NOP (R275). -/
def execNop (_args : List Word) (s : State) :
    Host.Outcome State Fault Refusal :=
  .next (skipped s.cfg.opc.nop s)

/-- NOP_ERROR (R276). -/
def execNopError (_args : List Word) (s : State) :
    Host.Outcome State Fault Refusal :=
  .next (skipped s.cfg.opc.nopError s)

/-- UNKNOWN (R280): the opcode word alone is consumed. -/
def execUnknown (op : Word) (s : State) : Host.Outcome State Fault Refusal := .next (skipped op s)

end Sys2Proof.Machine
end

