-- ==== Sys2Proof/Machine/Dispatch.lean ====
section
/-! DEFINITION. The meaning of every instruction: one arm per constructor, one direct call each. -/

namespace Sys2Proof.Machine

/-- What an instruction does: a FIFO command once its words are consumed, a register operation, a port operation. -/
def exec (i : Instr) (s : State) : Host.Outcome State Fault Refusal :=
  match i with
  | .invalidCmd args => Sys2Proof.Machine.execInvalidCmd args s
  | .update x y w h => Sys2Proof.Machine.execUpdate x y w h s
  | .rectFill colour x y w h => Sys2Proof.Machine.execRectFill colour x y w h s
  | .rectCopy srcX srcY dstX dstY w h => Sys2Proof.Machine.execRectCopy srcX srcY dstX dstY w h s
  | .defineCursor id hotX hotY width height andBpp xorBpp payload => Sys2Proof.Machine.execDefineCursor id hotX hotY width height andBpp xorBpp payload s
  | .defineAlphaCursor id hotX hotY width height pixels => Sys2Proof.Machine.execDefineAlphaCursor id hotX hotY width height pixels s
  | .updateVerbose x y w h reason => Sys2Proof.Machine.execUpdateVerbose x y w h reason s
  | .fence fence => Sys2Proof.Machine.execFence fence s
  | .escape nsid size payload => Sys2Proof.Machine.execEscape nsid size payload s
  | .defineScreen args payload => Sys2Proof.Machine.execDefineScreen args payload s
  | .destroyScreen args => Sys2Proof.Machine.execDestroyScreen args s
  | .defineGmrfb args => Sys2Proof.Machine.execDefineGmrfb args s
  | .blitGmrfbToScreen args => Sys2Proof.Machine.execBlitGmrfbToScreen args s
  | .blitScreenToGmrfb args => Sys2Proof.Machine.execBlitScreenToGmrfb args s
  | .annotationFill args => Sys2Proof.Machine.execAnnotationFill args s
  | .annotationCopy args => Sys2Proof.Machine.execAnnotationCopy args s
  | .defineGmr2 args => Sys2Proof.Machine.execDefineGmr2 args s
  | .remapGmr2 gmrId flags offsetPages numPages payload => Sys2Proof.Machine.execRemapGmr2 gmrId flags offsetPages numPages payload s
  | .dead args => Sys2Proof.Machine.execDead args s
  | .dead2 args => Sys2Proof.Machine.execDead2 args s
  | .nop args => Sys2Proof.Machine.execNop args s
  | .nopError args => Sys2Proof.Machine.execNopError args s
  | .unknown op => Sys2Proof.Machine.execUnknown op s
  | .regId acc => Sys2Proof.Machine.execRegId acc s
  | .regEnable acc => Sys2Proof.Machine.execRegEnable acc s
  | .regWidth acc => Sys2Proof.Machine.execRegWidth acc s
  | .regHeight acc => Sys2Proof.Machine.execRegHeight acc s
  | .regMaxWidth acc => Sys2Proof.Machine.execRegMaxWidth acc s
  | .regMaxHeight acc => Sys2Proof.Machine.execRegMaxHeight acc s
  | .regBitsPerPixel acc => Sys2Proof.Machine.execRegBitsPerPixel acc s
  | .regRedMask acc => Sys2Proof.Machine.execRegRedMask acc s
  | .regGreenMask acc => Sys2Proof.Machine.execRegGreenMask acc s
  | .regBlueMask acc => Sys2Proof.Machine.execRegBlueMask acc s
  | .regBytesPerLine acc => Sys2Proof.Machine.execRegBytesPerLine acc s
  | .regFbStart acc => Sys2Proof.Machine.execRegFbStart acc s
  | .regFbSize acc => Sys2Proof.Machine.execRegFbSize acc s
  | .regCapabilities acc => Sys2Proof.Machine.execRegCapabilities acc s
  | .regMemStart acc => Sys2Proof.Machine.execRegMemStart acc s
  | .regMemSize acc => Sys2Proof.Machine.execRegMemSize acc s
  | .regConfigDone acc => Sys2Proof.Machine.execRegConfigDone acc s
  | .regSync acc => Sys2Proof.Machine.execRegSync acc s
  | .regBusy acc => Sys2Proof.Machine.execRegBusy acc s
  | .regGuestId acc => Sys2Proof.Machine.execRegGuestId acc s
  | .regCursorId acc => Sys2Proof.Machine.execRegCursorId acc s
  | .regCursorX acc => Sys2Proof.Machine.execRegCursorX acc s
  | .regCursorY acc => Sys2Proof.Machine.execRegCursorY acc s
  | .regCursorOn acc => Sys2Proof.Machine.execRegCursorOn acc s
  | .regScratchSize acc => Sys2Proof.Machine.execRegScratchSize acc s
  | .regPitchlock acc => Sys2Proof.Machine.execRegPitchlock acc s
  | .regIrqmask acc => Sys2Proof.Machine.execRegIrqmask acc s
  | .regDisplayId acc => Sys2Proof.Machine.execRegDisplayId acc s
  | .regDisplayIsPrimary acc => Sys2Proof.Machine.execRegDisplayIsPrimary acc s
  | .regDisplayPositionX acc => Sys2Proof.Machine.execRegDisplayPositionX acc s
  | .regDisplayPositionY acc => Sys2Proof.Machine.execRegDisplayPositionY acc s
  | .regDisplayWidth acc => Sys2Proof.Machine.execRegDisplayWidth acc s
  | .regDisplayHeight acc => Sys2Proof.Machine.execRegDisplayHeight acc s
  | .regCap2 acc => Sys2Proof.Machine.execRegCap2 acc s
  | .regPalette k acc => Sys2Proof.Machine.execRegPalette k acc s
  | .regScratch k acc => Sys2Proof.Machine.execRegScratch k acc s
  | .regInvalid index acc => Sys2Proof.Machine.execRegInvalid index acc s
  | .portIndexWrite v => Sys2Proof.Machine.execPortIndexWrite v s
  | .portIndexRead => Sys2Proof.Machine.execPortIndexRead s
  | .portValueRead => Sys2Proof.Machine.execPortValueRead s
  | .portValueWrite v => Sys2Proof.Machine.execPortValueWrite v s
  | .portIrqStatusWrite v => Sys2Proof.Machine.execPortIrqStatusWrite v s
  | .portIrqStatusRead => Sys2Proof.Machine.execPortIrqStatusRead s

end Sys2Proof.Machine
end

