-- ==== Sys2Proof/Machine/Ring.lean ====
section
/-! DEFINITION. The Ring Buffer Cursor (`41_ring_cursor.md`) and the fetch half of a decode step
(`42_decoder.md` R211, R213): opcode word, length accounting, argument and payload words, rewind. -/

namespace Sys2Proof.Machine

/-- `Gate()` (R191). -/
def gate (s : State) : Bool := !s.cfg.fifoGateOnConfig || fifoMode s

/-- The ring invariants of R190 on four header values. -/
def ringValid (c : Config) (mn mx next stop : Nat) : Bool :=
  mn % 4 == 0 && mx % 4 == 0 && next % 4 == 0 && stop % 4 == 0
  && decide (fifoMinHdr ≤ mn) && decide (mx ≤ c.fifoSize) && decide (mn < mx)
  && decide (fifoMinExtent ≤ mx - mn)
  && decide (mn ≤ stop) && decide (stop < mx) && decide (mn ≤ next) && decide (next < mx)

/-- The pending length in words, `((next − stop) mod (max − min)) div 4` over the integers (R190). -/
def pendingWords (mn mx next stop : Nat) : Nat :=
  ((((next : Int) - (stop : Int)) % ((mx : Int) - (mn : Int))) / 4).toNat

/-- What `length()` returns on four header values (R190): 0 unless the gate is open and every invariant holds. -/
def ringLength (s : State) (mn mx next stop : Nat) : Nat :=
  if gate s && ringValid s.cfg mn mx next stop then pendingWords mn mx next stop else 0

/-- `length()` (R190): four header reads in the order MIN, MAX, NEXT_CMD, STOP, into the latches. -/
def length (s : State) : Except Fault (Nat × State) := do
  let (mn, s) ← fifoRead32 (4 * hdrMin) s
  let (mx, s) ← fifoRead32 (4 * hdrMax) s
  let (next, s) ← fifoRead32 (4 * hdrNextCmd) s
  let (stop, s) ← fifoRead32 (4 * hdrStop) s
  .ok (ringLength s mn.toNat mx.toNat next.toNat stop.toNat,
    { s with fifoMin := mn, fifoMax := mx, fifoNext := next, fifoStop := stop })

/-- Where `stop` goes after a word is read (R192): four on, wrapping from `max` to `min`. -/
def nextStop (mn mx stop : Word) : Word :=
  if stop.toNat + 4 ≥ mx.toNat then mn else BitVec.ofNat 32 (stop.toNat + 4)

/-- `read_word()` (R192): the word at `stop`; the new `stop` is latched and stored to the header at once. -/
def readWord (s : State) : Except Fault (Word × State) := do
  let (w, s) ← fifoRead32 s.fifoStop.toNat s
  let stop := nextStop s.fifoMin s.fifoMax s.fifoStop
  let s ← fifoWrite32 (4 * hdrStop) stop { s with fifoStop := stop }
  .ok (w, s)

/-- `n` words, one after the other. -/
def readWords : Nat → State → Except Fault (List Word × State)
  | 0, s => .ok ([], s)
  | n + 1, s => do
    let (w, s) ← readWord s
    let (ws, s) ← readWords n s
    .ok (w :: ws, s)

/-- `rewind(cmd_start)` (R194). -/
def rewind (s : State) : Except Fault State :=
  fifoWrite32 (4 * hdrStop) s.cmdStart { s with fifoStop := s.cmdStart }

/-- `Take(n)` followed by `n` reads of a word (R213): `none` where the words are not all pending, and then the
command is rewound. -/
def takeWords (n : Nat) (s : State) : Except Fault (Option (List Word) × State) :=
  let s := { s with rem := s.rem - n }
  if s.rem < 0 then do
    let s ← rewind s
    .ok (none, setOutcome .rewound s)
  else do
    let (ws, s) ← readWords n s
    .ok (some ws, s)

/-- The argument and payload words of a recognised command (R211, R213): the fixed words, then the payload they
declare. -/
def fetchArgs (n : CmdName) (s : State) : Except Fault (Option Instr × State) := do
  let (args, s) ← takeWords (s.cfg.fixedArgs n) s
  match args with
  | none => .ok (none, s)
  | some args =>
    let (payload, s) ← takeWords (s.cfg.payloadWords n args) s
    match payload with
    | none => .ok (none, s)
    | some payload => .ok (some (buildCommand n args payload), s)

/-- The fetch half of `DecodeStep(L)` (R211, R214): every word of the command, or a rewind (`none`). No handler
applies an effect before its last word is consumed, so the effect is what `exec` does afterwards (log 15). -/
def fetch (L : Nat) (s : State) : Except Fault (Option Instr × State) := do
  let (op, s) ← readWord { s with cmdStart := s.fifoStop, rem := (L : Int) - 1 }
  match s.cfg.lookupOpcode op with
  | none => .ok (some (.unknown op), s)
  | some n => fetchArgs n s

end Sys2Proof.Machine
end

