-- ==== Sys2Proof/Machine/Drain.lean ====
section
/-! DEFINITION. The drain loop of the Command Decoder (`42_decoder.md` R210): one pass is one step of the machine. -/

namespace Sys2Proof.Machine

/-- The exit of the drain loop: `EndOfInvocation` (R212), and behind it the tail of `Refresh` where a refresh
started the invocation (`46_redraw_queue.md` R316). -/
def finishInvocation (s : State) : State :=
  if s.trigger = some .refresh then refreshEnd (endOfInvocation s) else endOfInvocation s

/-- The second half of a pass, once the words of a command are fetched or it was rewound (R210, R211): a rewind ends
the invocation; a command is executed and counts as progress. -/
def finishPass : Option Instr × State → Host.Outcome State Fault Refusal
  | (none, s) => .next (finishInvocation s)
  | (some i, s) =>
    match exec i s with
    | .next t => .next { t with progressed := true }
    | .fault f => .fault f
    | .refused r => .refused r

/-- One pass of the drain loop (R210): the iteration bound, `length()`, one decode step. -/
def drainPass (s : State) : Host.Outcome State Fault Refusal :=
  if s.steps ≥ s.cfg.maxLoop then .next (finishInvocation s)
  else
    match length s with
    | .error f => .fault f
    | .ok (L, t) =>
      if L = 0 then .next (finishInvocation t)
      else
        match fetch L { t with steps := t.steps + 1 } with
        | .error f => .fault f
        | .ok r => finishPass r

end Sys2Proof.Machine
end

