-- ==== Sys2Proof/Machine/Events.lean ====
section
/-! DEFINITION. What the environment does between two operations of the core (`10_state.md` R20): port accesses, direct
memory accesses of the guest, and the host's events `Refresh` and `Reset`; and how one instruction is placed where
the machine fetches its next. -/

namespace Sys2Proof.Machine

/-- A guest write lies inside its memory. -/
def guestWriteOk (c : Config) (w : GuestWrite) : Bool := decide (w.addr + w.bytes.length ≤ spaceSize c w.space)

/-- A direct read of a memory by the guest (R37, R39, `20_memory.md` R67): no effect but its result. -/
def guestRead (space : Space) (addr : Nat) (s : State) : Host.Outcome State Fault Refusal :=
  if addr < spaceSize s.cfg space then .next (returnData ((sharedByte s space addr).zeroExtend 32) s)
  else .fault .guestAddress

/-- The scalar fields of the cursor buffers after a `Reset`, which R50 leaves unspecified: free words (log 7, 8). -/
def drawCursor (s : State) : State :=
  let (kind, s) := drawWord s
  let (id, s) := drawWord s
  let (hotX, s) := drawWord s
  let (hotY, s) := drawWord s
  let (width, s) := drawWord s
  let (height, s) := drawWord s
  let (andBpp, s) := drawWord s
  let (xorBpp, s) := drawWord s
  { s with cur :=
    { kind := if kind = 0 then .legacy else .alpha, id, hotX, hotY, width, height, andBpp, xorBpp,
      andMask := (Config.drawMask s.draws).take s.cfg.cursorCap,
      xorMask := (Config.drawMask (s.draws + 1)).take s.cfg.cursorCap },
           draws := s.draws + 2 }

/-- The ring latches after a `Reset`, which R50 leaves unspecified: free words (log 6, 8). -/
def drawLatches (s : State) : State :=
  let (mn, s) := drawWord s
  let (mx, s) := drawWord s
  let (next, s) := drawWord s
  let (stop, s) := drawWord s
  { s with fifoMin := mn, fifoMax := mx, fifoNext := next, fifoStop := stop }

/-- `Reset` (`70_reset_and_hazards.md` R370): every device field at its value of R50; the line is lowered if it was
raised; the memories and the traces stay, and so does what belongs to the environment. -/
def resetEvent (s : State) : State :=
  let t := lowerLine s
  drawLatches (drawCursor
    { State.resetOf s.cfg with
      out := t.out, diag := s.diag, fifo := s.fifo, fb := s.fb, inputs := s.inputs, guestSched := s.guestSched,
      guestReads := s.guestReads, guestData := s.guestData, draws := s.draws })

/-- A port access (R64, R101): the port operation it decodes to, or no meaning. -/
def portEvent (a : PortAccess) (s : State) : Host.Outcome State Fault Refusal :=
  match decodePort s.cfg a with
  | .ok i => exec i s
  | .error _ => .refused .undecodedPort

/-- One event of the environment, processed to completion (R20, R75). -/
def handleEvent (e : Event) (s : State) : Host.Outcome State Fault Refusal :=
  match e with
  | .port a => portEvent a s
  | .guestWrite w => if guestWriteOk s.cfg w then .next (storeGuest s w) else .fault .guestAddress
  | .guestRead space addr => guestRead space addr s
  | .refresh => .next (refreshStart s)
  | .reset => .next (resetEvent s)

/-- The next event, if any; without one the core is idle and keeps all state (`60_exceptions.md` R355). -/
def nextEvent (s : State) : Host.Outcome State Fault Refusal :=
  match s.inputs with
  | [] => .next s
  | e :: rest => handleEvent e { s with inputs := rest }

/-- One step: a pass of the drain loop while an invocation runs (R348: nothing else is accepted meanwhile), else
the next event. -/
def stepOnce (s : State) : Host.Outcome State Fault Refusal :=
  match s.trigger with
  | some _ => drainPass s
  | none => nextEvent s

/-! ### Placing an instruction -/

/-- The number of words of the command at the front of a list (R92), 0 where it is incomplete. -/
def commandLength (c : Config) (ws : List Word) : Nat :=
  match decodeCommand c ws with
  | .ok (_, rest) => ws.length - rest.length
  | .error _ => 0

/-- Stores words at rising word addresses. -/
def writeWords (m : Memory) (a : Nat) : List Word → Memory
  | [] => m
  | w :: ws => writeWords (Memory.write32 m a w) (a + 4) ws

/-- The ring start used to place one instruction: behind the header word FENCE, which the FENCE command writes, where
the FIFO memory has room for a whole ring there, else right behind the four words every header has. -/
def placeMin (c : Config) : Nat :=
  if 4 * (hdrFence + 1) + fifoMinExtent ≤ c.fifoSize then 4 * (hdrFence + 1) else fifoMinHdr

/-- A state whose next step decodes and runs the command at the front of `ws` (log 13): a valid header whose ring
starts with the words and has exactly that command pending, a decoder invocation just started by SYNC, the gate
of R191 open, and no guest access in between. -/
def placeWords (ws : List Word) (s : State) : State :=
  let mn := placeMin s.cfg
  let next := mn + 4 * commandLength s.cfg ws
  let header := [BitVec.ofNat 32 mn, BitVec.ofNat 32 s.cfg.fifoSize, BitVec.ofNat 32 next, BitVec.ofNat 32 mn]
  { startInvocation .sync s with
    fifo := writeWords (writeWords s.fifo 0 header) mn ws
    syncing := true
    enable := s.enable || s.cfg.fifoGateOnConfig
    config := s.config || s.cfg.fifoGateOnConfig
    guestSched := [] }

end Sys2Proof.Machine
end

