-- ==== Sys2Proof/Machine/Step.lean ====
section
/-! DEFINITION. One step of the machine, and placing one instruction where the next step fetches it. -/

namespace Sys2Proof.Machine

/-- One step of the machine (log 2, 3). -/
def step (s : State) : Host.Outcome State Fault Refusal := stepOnce s

/-- `s` with the instruction of `nbits` bits `w` (and words of zeros behind it) pending at the consumer position of a
running decoder invocation, so that the next step fetches and runs exactly it (log 13, 14). -/
def State.withFetchWord (s : State) (nbits w : Nat) : State := placeWords (tableWords s.cfg nbits w) s

end Sys2Proof.Machine
end

