-- ==== Sys2Proof/Safety.lean ====
section
/-! DEFINITION. The words in which claims about runs are stated: quiet states, inputs the spec gives a meaning, the
invariants a step keeps, the words a ring holds, and what an instruction may touch. -/

namespace Sys2Proof.Machine

/-! ### The environment -/

/-- No access of the guest falls between two memory accesses of the core (`20_memory.md` R76): none is scheduled. -/
abbrev Quiet (s : State) : Prop := s.guestSched = []

/-- An event the spec gives a meaning: a port access the core decodes (R64), a guest access at an address its memory
has, any host event. -/
def inputOk (c : Config) : Event → Bool
  | .port a => (decodePort c a).isOk
  | .guestWrite w => guestWriteOk c w
  | .guestRead space addr => decide (addr < spaceSize c space)
  | .refresh => true
  | .reset => true

/-- The next event, if there is one, is one the spec gives a meaning. -/
def nextInputOk (s : State) : Bool :=
  match s.inputs with
  | [] => true
  | e :: _ => inputOk s.cfg e

/-! ### Invariants -/

/-- The interrupt line against the status (`60_exceptions.md` R345), extended to the inside of an invocation: a
raised line has a status bit behind it; unless unmasked events are recorded, a status bit without the line is there
only while an invocation that fired runs; and an invocation that fired has an enabled status bit. -/
abbrev LineInv (s : State) : Prop :=
  (s.irqLine = true → s.irqStatus ≠ 0)
  ∧ (s.cfg.irqStatusSetsUnmasked = false → s.irqStatus ≠ 0 → s.irqLine = false →
      s.trigger.isSome = true ∧ s.fired = true)
  ∧ (s.trigger.isSome = true → s.fired = true → s.irqStatus &&& s.irqMask ≠ 0)

/-- The shape of the stored data: memories in canonical form, `cfg.SCRATCH_SIZE` scratch registers (`10_state.md` R27),
at most 512 queued rectangles (R41), no opcode logged twice (R45), mask arrays inside their capacity
(`43_cursor_commands.md` R247), and `syncing` set only while an invocation runs (R33). -/
abbrev ShapeInv (s : State) : Prop :=
  Memory.wf s.fifo ∧ Memory.wf s.fb
  ∧ s.scratch.length = s.cfg.scratchSize
  ∧ s.queue.length ≤ 512
  ∧ s.logged.Nodup
  ∧ s.cur.andMask.length ≤ s.cfg.cursorCap ∧ s.cur.xorMask.length ≤ s.cfg.cursorCap
  ∧ (s.trigger = none → s.syncing = false)

/-- The negotiated mode is one the core accepts (`10_state.md` R24), and so is the identity (R31). -/
abbrev ModeInv (s : State) : Prop :=
  s.width.toNat ≤ s.cfg.maxWidth ∧ s.height.toNat ≤ s.cfg.maxHeight ∧ s.bpp.toNat ∈ s.cfg.bppLegal
  ∧ s.svgaId ∈ s.cfg.supportedIds

/-- The status bits that have an event (`60_exceptions.md` R343). -/
def eventBits (c : Config) : Word := c.irq.anyFence ||| c.irq.fifoProgress ||| c.irq.fenceGoal

/-! ### The ring as data -/

/-- The consumer position `n` words on (`41_ring_cursor.md` R192). -/
def ringAfter (mn mx : Word) : Word → Nat → Word
  | stop, 0 => stop
  | stop, n + 1 => ringAfter mn mx (nextStop mn mx stop) n

/-- The `n` words a ring holds from a consumer position on, in ring order (`30_encoding.md` R90). -/
def ringWords (m : Memory) (mn mx : Word) : Word → Nat → List Word
  | _, 0 => []
  | stop, n + 1 => Memory.read32 .fifo m stop.toNat :: ringWords m mn mx (nextStop mn mx stop) n

/-- The four header words of a ring, and the pending length they give (`41_ring_cursor.md` R190). -/
def headerMin (s : State) : Word := Memory.read32 .fifo s.fifo 0
def headerMax (s : State) : Word := Memory.read32 .fifo s.fifo 4
def headerNext (s : State) : Word := Memory.read32 .fifo s.fifo 8
def headerStop (s : State) : Word := Memory.read32 .fifo s.fifo 12
def pending (s : State) : Nat :=
  ringLength s (headerMin s).toNat (headerMax s).toNat (headerNext s).toNat (headerStop s).toNat

/-- The state in which `length()` has loaded the four latches from the header (R190). -/
def loadLatches (s : State) : State :=
  { s with fifoMin := headerMin s, fifoMax := headerMax s, fifoNext := headerNext s, fifoStop := headerStop s }

/-- The pending words of a state's ring. -/
def pendingRing (s : State) : List Word := ringWords s.fifo (headerMin s) (headerMax s) (headerStop s) (pending s)

/-- The state in which a decode step that consumed `n` of the pending words hands over to the command's effect: the
latches loaded, `stop` moved and stored, the accounting done (R210, R211, R213). -/
def afterFetch (s : State) (n : Nat) : State :=
  let stop := ringAfter (headerMin s) (headerMax s) (headerStop s) n
  { s with
    fifoMin := headerMin s, fifoMax := headerMax s, fifoNext := headerNext s, fifoStop := stop,
    fifo := Memory.write32 s.fifo 12 stop,
    steps := s.steps + 1, cmdStart := headerStop s, rem := (pending s : Int) - n }

/-- The FIFO commands, as against register and port operations (`30_encoding.md` R101). -/
def isCommand (c : Config) (i : Instr) : Bool :=
  match encode c i with
  | .command _ => true
  | .port _ => false
  | .register _ _ => false

/-- Two states agree on the register bank: every field a register operation reads or writes
(`20_memory.md` R70). -/
abbrev SameRegisters (s t : State) : Prop :=
  t.cfg = s.cfg ∧ t.enable = s.enable ∧ t.config = s.config ∧ t.width = s.width ∧ t.height = s.height
  ∧ t.bpp = s.bpp ∧ t.pitchlock = s.pitchlock ∧ t.pitchlockCount = s.pitchlockCount
  ∧ t.guestId = s.guestId ∧ t.displayId = s.displayId ∧ t.scratch = s.scratch
  ∧ t.irqMask = s.irqMask ∧ t.index = s.index ∧ t.svgaId = s.svgaId
  ∧ t.cursorId = s.cursorId ∧ t.cursorX = s.cursorX ∧ t.cursorY = s.cursorY ∧ t.cursorOn = s.cursorOn
  ∧ t.lastCursorCount = s.lastCursorCount ∧ t.syncing = s.syncing ∧ t.invalidated = s.invalidated

/-! ### Rectangles -/

/-- A rectangle of four argument words lies inside the surface (`45_rect_engine.md` R290). -/
abbrev RectInside (s : State) (x y w h : Word) : Prop :=
  0 ≤ x.toInt ∧ x.toInt ≤ s.cfg.maxDim ∧ 0 ≤ y.toInt ∧ y.toInt ≤ s.cfg.maxDim
  ∧ 0 ≤ w.toInt ∧ w.toInt ≤ s.cfg.maxDim ∧ 0 ≤ h.toInt ∧ h.toInt ≤ s.cfg.maxDim
  ∧ x.toInt + w.toInt ≤ s.width.toNat ∧ y.toInt + h.toInt ≤ s.height.toNat

/-- The rows of a rectangle end inside the framebuffer (`45_rect_engine.md` R292). -/
abbrev RowsInFramebuffer (s : State) (x y w h : Word) : Prop :=
  w = 0 ∨ h = 0
  ∨ (y.toInt.toNat + h.toInt.toNat - 1) * stride s + (x.toInt.toNat + w.toInt.toNat) * bypp s ≤ s.cfg.fbSize

/-- The framebuffer address of byte `k` of line `j` of the rectangle at `(x, y)` (`20_memory.md` R73). -/
def pixelAddr (s : State) (x y : Word) (j k : Nat) : Nat :=
  (y.toInt.toNat + j) * stride s + x.toInt.toNat * bypp s + k

/-- The bytes of a framebuffer after a row of `n` bytes is copied from `src` to `dst`, the whole row read first
(`45_rect_engine.md` R296). -/
def copyRow (src dst n : Nat) (f : Nat → Byte) (a : Nat) : Byte :=
  if dst ≤ a ∧ a < dst + n then f (src + (a - dst)) else f a

/-- The bytes of a framebuffer after the lines of a copy, one after the other in the order of R296: bottom to top where
the destination lies below the source, else top to bottom. -/
def copyRows (s : State) (sx sy dx dy w h : Word) (f : Nat → Byte) : Nat → Byte :=
  let lines := if sy.toNat < dy.toNat then (List.range h.toNat).reverse else List.range h.toNat
  lines.foldl (fun f j => copyRow (pixelAddr s sx sy j 0) (pixelAddr s dx dy j 0) (w.toNat * bypp s) f) f

/-- The queue after `append(r)` (`46_redraw_queue.md` R311). -/
def queueAfter (s : State) (r : Rect) : List Rect :=
  (if s.queue.length = 512 then [] else s.queue) ++ [r]

/-- The output trace after `append(r)` (R311, R312): the implicit flush of a full queue emits its rectangles, or
none while invalidated. -/
def outAfter (s : State) : List OutEvent :=
  if s.queue.length = 512 ∧ s.invalidated = false then
    s.out ++ s.queue.map (fun r => OutEvent.update r.x r.y r.w r.h)
  else s.out

/-- The whole current surface as a rectangle (R295). -/
def fullRect (s : State) : Rect := { x := 0, y := 0, w := s.width.toNat, h := s.height.toNat }

/-- The state a command of the skip class leaves (`42_decoder.md` R220, `44_skip_commands.md` R260): the once-only
diagnostic, the outcome, nothing else. -/
def skippedOnce (op : Word) (s : State) : State :=
  { s with
    logged := if op ∈ s.logged then s.logged else s.logged ++ [op],
    diag := if op ∈ s.logged then s.diag else s.diag ++ [.unknownCmd op],
    outcome := some .skippedUnknown }

/-- A named register is selected by its index under every valid configuration, and its default index is `dflt`
(`20_memory.md` R71). -/
abbrev SelectedBy (n : RegName) (instr : RegAccess → Instr) (dflt : Word) : Prop :=
  Config.default.regIndex n = dflt
  ∧ ∀ (c : Config) (acc : RegAccess), c.valid = true → decodeRegister c (c.regIndex n) acc = instr acc

/-- Every write to a register is rejected: the diagnostic, nothing else (`40_register_bank.md` R146). -/
abbrev RejectsWrites (n : RegName) (instr : RegAccess → Instr) : Prop :=
  ∀ (s : State) (v : Word), exec (instr (.write v)) s = .next { s with diag := s.diag ++ [.badRegWrite n v] }

/-- A read returns a value and changes nothing else (`20_memory.md` R67). -/
abbrev Reads (instr : RegAccess → Instr) (value : State → Word) : Prop :=
  ∀ s : State, exec (instr .read) s = .next { s with guestData := value s }

/-! ### Forms statements share -/

/-- A command's opcode word with fewer than `k` words behind it is an incomplete command (`42_decoder.md` R213). -/
abbrev IncompleteBelow (c : Config) (op : Word) (k : Nat) : Prop :=
  ∀ ws : List Word, ws.length < k → decodeCommand c (op :: ws) = .error .incomplete

/-- A format-F member of the skip class with default opcode `num` and default count `n` (`44_skip_commands.md` R261):
under every valid configuration it takes exactly its declared argument words, and its effect is the skip path. -/
abbrev SkipsFixed (instr : List Word → Instr) (op : Config → Word) (count : Config → Nat) (num : Word) (n : Nat) :
    Prop :=
  op Config.default = num ∧ count Config.default = n
  ∧ (∀ c : Config, c.valid = true →
      (∀ args rest : List Word, args.length = count c →
        decodeCommand c (op c :: (args ++ rest)) = .ok (instr args, rest))
      ∧ IncompleteBelow c (op c) (count c))
  ∧ ∀ (s : State) (args : List Word), exec (instr args) s = .next (skippedOnce (op s.cfg) s)

/-- Four header values make the buffer ready (`41_ring_cursor.md` R190, R191), read as unsigned numbers. -/
abbrev RingReady (s : State) (mn mx next stop : Nat) : Prop :=
  (s.cfg.fifoGateOnConfig = true → s.enable = true ∧ s.config = true)
  ∧ mn % 4 = 0 ∧ mx % 4 = 0 ∧ next % 4 = 0 ∧ stop % 4 = 0
  ∧ 16 ≤ mn ∧ mx ≤ s.cfg.fifoSize ∧ mn < mx ∧ 10240 ≤ mx - mn
  ∧ mn ≤ stop ∧ stop < mx ∧ mn ≤ next ∧ next < mx

/-- The latches hold what a successful `length()` validated (R193). -/
abbrev LatchesReady (s : State) : Prop :=
  s.fifoMin.toNat % 4 = 0 ∧ s.fifoMax.toNat % 4 = 0 ∧ s.fifoStop.toNat % 4 = 0
  ∧ 16 ≤ s.fifoMin.toNat ∧ s.fifoMin.toNat ≤ s.fifoStop.toNat ∧ s.fifoStop.toNat < s.fifoMax.toNat
  ∧ s.fifoMax.toNat ≤ s.cfg.fifoSize

/-- The rectangle of four argument words inside the surface, none of them negative (`45_rect_engine.md` R294). -/
def argRect (x y w h : Word) : Rect := { x := x.toNat, y := y.toNat, w := w.toNat, h := h.toNat }

/-- The rectangle an update command enqueues (`42_decoder.md` R215): its own, or the whole surface. -/
def updateRect (s : State) (x y w h : Word) : Rect :=
  if RectInside s x y w h then argRect x y w h else fullRect s

/-- The effects of a list of commands, one after the other. -/
def execAll : List Instr → State → Host.Outcome State Fault Refusal
  | [], s => .next s
  | i :: is, s =>
    match exec i s with
    | .next t => execAll is t
    | .fault f => .fault f
    | .refused r => .refused r

/-- What a pass of the drain loop makes of a command's outcome (`42_decoder.md` R210): progress. -/
def progress : Host.Outcome State Fault Refusal → Host.Outcome State Fault Refusal
  | .next t => .next { t with progressed := true }
  | .fault f => .fault f
  | .refused r => .refused r

end Sys2Proof.Machine
end

