-- ==== Sys2Proof/Certificates/Slice0/Obligations.lean ====
section
/-! DEFINITION. The statements for the provers. -/

open Sys2Proof Sys2Proof.Machine

/-! ### The step and the decoder -/

/-- A step of a running invocation below its bound, on a ring with pending words, runs the instruction the fetch
decodes: `exec` of it in the state the fetch leaves, and the pass counts as progress. Rests on `42_decoder.md` R210,
R211 (that a pass of the drain loop is one step is log 2, the split of a decode step into fetch and effect log 15). -/
def Obligations.StepRunsTheFetchedInstruction : Prop :=
  ∀ (s t u : State) (L : Nat) (i : Instr),
    s.trigger.isSome = true → s.steps < s.cfg.maxLoop → length s = .ok (L, t) → L ≠ 0 →
    fetch L { t with steps := t.steps + 1 } = .ok (some i, u) → step s = progress (exec i u)

/-- Between invocations a step takes the next event: a port access the core decodes runs that port operation; one it
does not decode is refused by name (`20_memory.md` R64, `30_encoding.md` R101; log 3, 11). -/
def Obligations.StepRunsThePortOperation : Prop :=
  ∀ (s : State) (a : PortAccess) (rest : List Event), s.trigger = none → s.inputs = .port a :: rest →
    (∀ i : Instr, decodePort s.cfg a = .ok i → step s = exec i { s with inputs := rest })
    ∧ ((a.width ≠ 32 ∨ (a.offset ≠ s.cfg.portIndex ∧ a.offset ≠ s.cfg.portValue ∧ a.offset ≠ s.cfg.portIrqStatus)) →
        step s = .refused .undecodedPort)

/-- Words, accesses and indices written out from the encodings of R90, R94, R97, R101 decode, under the default
binding, to the instruction they stand for. -/
def Obligations.WrittenOutEncodingsDecode : Prop :=
  decode Config.default (.command [1, 10, 20, 100, 50]) = .ok (.update 10 20 100 50)
  ∧ decode Config.default (.command [3, 0, 0, 0, 10, 640, 100]) = .ok (.rectCopy 0 0 0 10 640 100)
  ∧ decode Config.default (.command [30, 0x77]) = .ok (.fence 0x77)
  ∧ decode Config.default (.command [22, 1, 0, 0, 2, 1, 0xFF0000FF, 0]) = .ok (.defineAlphaCursor 1 0 0 2 1 [0xFF0000FF, 0])
  ∧ decode Config.default (.command [33, 0, 6, 0x11, 0x22]) = .ok (.escape [0] [6] [0x11, 0x22])
  ∧ decode Config.default (.command [0x99]) = .ok (.unknown 0x99)
  ∧ decode Config.default (.port ⟨0, 32, .write 2⟩) = .ok (.portIndexWrite 2)
  ∧ decode Config.default (.register 2 (.write 640)) = .ok (.regWidth (.write 640))
  ∧ decode Config.default (.register 1855 .read) = .ok (.regScratch 63 .read)

/-- Whatever words the command decoder accepts, it answers a well-formed instruction, consumes exactly that
instruction's encoding and hands back the words behind it (R90 to R92). -/
def Obligations.DecodedCommandsAreTheirEncoding : Prop :=
  ∀ (c : Config) (ws rest : List Word) (i : Instr), decodeCommand c ws = .ok (i, rest) →
    i.wellFormed c = true ∧ ∃ used : List Word, encode c i = .command used ∧ ws = used ++ rest

/-- Under every valid configuration every well-formed instruction, with every value of its operands, is what its
encoding decodes to. -/
def Obligations.DecodeOfEncodeIsTheInstruction : Prop :=
  ∀ (c : Config) (i : Instr), c.valid = true → i.wellFormed c = true → decode c (encode c i) = .ok i

/-! ### The Register Bank -/

/-- The read-only registers whose value is a parameter (`40_register_bank.md` R128, R129, R135 to R138, R141, R142,
R152). Two clauses are the model's: what SCRATCH_SIZE reads where the parameter does not fit a word is a free value
(log 23), and the six flags a valid configuration needs are read from R9 and R141 together (log 22). -/
def Obligations.ParameterRegistersReadTheirConstant : Prop :=
  (SelectedBy .maxWidth .regMaxWidth 4 ∧ Reads .regMaxWidth (fun s => BitVec.ofNat 32 s.cfg.maxWidth)
    ∧ RejectsWrites .maxWidth .regMaxWidth ∧ Config.default.maxWidth = 2368)
  ∧ (SelectedBy .maxHeight .regMaxHeight 5 ∧ Reads .regMaxHeight (fun s => BitVec.ofNat 32 s.cfg.maxHeight)
    ∧ RejectsWrites .maxHeight .regMaxHeight ∧ Config.default.maxHeight = 1770)
  ∧ (SelectedBy .fbStart .regFbStart 13 ∧ Reads .regFbStart (fun s => s.cfg.fbBase)
    ∧ RejectsWrites .fbStart .regFbStart)
  ∧ (SelectedBy .fbSize .regFbSize 16 ∧ Reads .regFbSize (fun s => BitVec.ofNat 32 s.cfg.fbSize)
    ∧ RejectsWrites .fbSize .regFbSize)
  ∧ (SelectedBy .memStart .regMemStart 18 ∧ Reads .regMemStart (fun s => s.cfg.fifoBase)
    ∧ RejectsWrites .memStart .regMemStart)
  ∧ (SelectedBy .memSize .regMemSize 19 ∧ Reads .regMemSize (fun s => BitVec.ofNat 32 s.cfg.fifoSize)
    ∧ RejectsWrites .memSize .regMemSize)
  ∧ (SelectedBy .capabilities .regCapabilities 17 ∧ Reads .regCapabilities (fun s => s.cfg.caps)
    ∧ RejectsWrites .capabilities .regCapabilities ∧ Config.default.caps = 0x81178222
    ∧ ∀ c : Config, c.valid = true → c.caps &&& 0x01110222 = 0x01110222)
  ∧ (SelectedBy .cap2 .regCap2 59 ∧ Reads .regCap2 (fun s => s.cfg.caps2)
    ∧ RejectsWrites .cap2 .regCap2 ∧ Config.default.caps2 = 0)
  ∧ (SelectedBy .scratchSize .regScratchSize 29 ∧ Reads .regScratchSize (fun s =>
        if s.cfg.scratchSize < 2 ^ 32 then BitVec.ofNat 32 s.cfg.scratchSize
        else Config.oversizedScratch s.cfg.scratchSize)
    ∧ RejectsWrites .scratchSize .regScratchSize)

/-- The read-only registers computed from the state at each read (R131 to R134, R145): the pixel masks of the table
of R131, the stride, BUSY. -/
def Obligations.ComputedRegistersReadTheCurrentState : Prop :=
  (SelectedBy .redMask .regRedMask 9 ∧ RejectsWrites .redMask .regRedMask
    ∧ Reads .regRedMask (fun s => if s.bpp = 32 ∨ s.bpp = 24 then 0x00FF0000 else if s.bpp = 16 then 0x0000F800
        else if s.bpp = 15 then 0x00007C00 else 0))
  ∧ (SelectedBy .greenMask .regGreenMask 10 ∧ RejectsWrites .greenMask .regGreenMask
    ∧ Reads .regGreenMask (fun s => if s.bpp = 32 ∨ s.bpp = 24 then 0x0000FF00 else if s.bpp = 16 then 0x000007E0
        else if s.bpp = 15 then 0x000003E0 else 0))
  ∧ (SelectedBy .blueMask .regBlueMask 11 ∧ RejectsWrites .blueMask .regBlueMask
    ∧ Reads .regBlueMask (fun s => if s.bpp = 32 ∨ s.bpp = 24 then 0x000000FF else if s.bpp = 16 ∨ s.bpp = 15
        then 0x0000001F else 0))
  ∧ (SelectedBy .bytesPerLine .regBytesPerLine 12 ∧ RejectsWrites .bytesPerLine .regBytesPerLine
    ∧ Reads .regBytesPerLine (fun s => BitVec.ofNat 32
        (if s.pitchlockCount = 1 then s.pitchlock.toNat else s.width.toNat * ((s.bpp.toNat + 7) / 8))))
  ∧ (SelectedBy .busy .regBusy 22 ∧ RejectsWrites .busy .regBusy
    ∧ Reads .regBusy (fun s => if s.syncing = true then 1 else 0))

/-- The plain storage registers (R147 to R151, R153, R161): a read returns the stored word, a write stores any word
and has no other effect. -/
def Obligations.StorageRegistersStoreAndReturn : Prop :=
  (SelectedBy .guestId .regGuestId 23 ∧ Reads .regGuestId (·.guestId)
    ∧ ∀ (s : State) (v : Word), exec (.regGuestId (.write v)) s = .next { s with guestId := v })
  ∧ (SelectedBy .cursorId .regCursorId 24 ∧ Reads .regCursorId (·.cursorId)
    ∧ ∀ (s : State) (v : Word), exec (.regCursorId (.write v)) s = .next { s with cursorId := v })
  ∧ (SelectedBy .cursorX .regCursorX 25 ∧ Reads .regCursorX (·.cursorX)
    ∧ ∀ (s : State) (v : Word), exec (.regCursorX (.write v)) s = .next { s with cursorX := v })
  ∧ (SelectedBy .cursorY .regCursorY 26 ∧ Reads .regCursorY (·.cursorY)
    ∧ ∀ (s : State) (v : Word), exec (.regCursorY (.write v)) s = .next { s with cursorY := v })
  ∧ (SelectedBy .cursorOn .regCursorOn 27 ∧ Reads .regCursorOn (·.cursorOn)
    ∧ ∀ (s : State) (v : Word), exec (.regCursorOn (.write v)) s = .next { s with cursorOn := v })
  ∧ (SelectedBy .displayId .regDisplayId 35 ∧ Reads .regDisplayId (·.displayId)
    ∧ ∀ (s : State) (v : Word), exec (.regDisplayId (.write v)) s = .next { s with displayId := v })
  ∧ (SelectedBy .irqmask .regIrqmask 33 ∧ Reads .regIrqmask (·.irqMask)
    ∧ ∀ (s : State) (v : Word), exec (.regIrqmask (.write v)) s = .next { s with irqMask := v })

/-- The per-display stub (R154 to R158) and the palette block (R166): fixed or computed reads, writes accepted and
discarded without a diagnostic. -/
def Obligations.StubRegistersDiscardWrites : Prop :=
  (SelectedBy .displayIsPrimary .regDisplayIsPrimary 36 ∧ Reads .regDisplayIsPrimary (fun _ => 1)
    ∧ ∀ (s : State) (v : Word), exec (.regDisplayIsPrimary (.write v)) s = .next s)
  ∧ (SelectedBy .displayPositionX .regDisplayPositionX 37 ∧ Reads .regDisplayPositionX (fun _ => 0)
    ∧ ∀ (s : State) (v : Word), exec (.regDisplayPositionX (.write v)) s = .next s)
  ∧ (SelectedBy .displayPositionY .regDisplayPositionY 38 ∧ Reads .regDisplayPositionY (fun _ => 0)
    ∧ ∀ (s : State) (v : Word), exec (.regDisplayPositionY (.write v)) s = .next s)
  ∧ (SelectedBy .displayWidth .regDisplayWidth 39 ∧ Reads .regDisplayWidth (·.width)
    ∧ ∀ (s : State) (v : Word), exec (.regDisplayWidth (.write v)) s = .next s)
  ∧ (SelectedBy .displayHeight .regDisplayHeight 40 ∧ Reads .regDisplayHeight (·.height)
    ∧ ∀ (s : State) (v : Word), exec (.regDisplayHeight (.write v)) s = .next s)
  ∧ ((∀ (c : Config) (k : Nat) (acc : RegAccess), c.valid = true → k < 768 → c.paletteBase + k < 2 ^ 32 →
        decodeRegister c (BitVec.ofNat 32 (c.paletteBase + k)) acc = .regPalette k acc)
    ∧ ∀ k : Nat, Reads (.regPalette k) (fun _ => 0)
        ∧ ∀ (s : State) (v : Word), exec (.regPalette k (.write v)) s = .next s)

/-- ID (R124): a supported identity is stored, another is rejected with its diagnostic. -/
def Obligations.IdRegisterAcceptsSupportedIdentities : Prop :=
  SelectedBy .id .regId 0 ∧ Reads .regId (·.svgaId)
  ∧ ∀ (s : State) (v : Word),
    (v ∈ s.cfg.supportedIds → exec (.regId (.write v)) s = .next { s with svgaId := v })
    ∧ (v ∉ s.cfg.supportedIds →
        exec (.regId (.write v)) s = .next { s with diag := s.diag ++ [.badRegWrite .id v] })

/-- ENABLE (R125): stores the flag, forces invalidation, switches dirty tracking by the new value. -/
def Obligations.EnableRegisterSwitchesTrackingAndInvalidates : Prop :=
  SelectedBy .enable .regEnable 1 ∧ Reads .regEnable (fun s => if s.enable = true then 1 else 0)
  ∧ ∀ (s : State) (v : Word),
    (v ≠ 0 → s.config = true → exec (.regEnable (.write v)) s
      = .next { s with enable := true, invalidated := true, out := s.out ++ [.dirtyTracking .stop] })
    ∧ (v ≠ 0 → s.config = false → exec (.regEnable (.write v)) s
      = .next { s with enable := true, invalidated := true, out := s.out ++ [.dirtyTracking .start] })
    ∧ (v = 0 → exec (.regEnable (.write v)) s
      = .next { s with enable := false, invalidated := true, out := s.out ++ [.dirtyTracking .start] })

/-- WIDTH (R126) and HEIGHT (R127): accepted up to the maximum, an accepted write invalidates, and only an accepted
WIDTH write ends a pitch-lock override. -/
def Obligations.SizeRegistersAcceptUpToTheMaxima : Prop :=
  (SelectedBy .width .regWidth 2 ∧ Reads .regWidth (·.width)
    ∧ ∀ (s : State) (v : Word),
      (v.toNat ≤ s.cfg.maxWidth → exec (.regWidth (.write v)) s
        = .next { s with width := v, invalidated := true, pitchlockCount := 0 })
      ∧ (s.cfg.maxWidth < v.toNat → exec (.regWidth (.write v)) s
        = .next { s with diag := s.diag ++ [.badRegWrite .width v] }))
  ∧ (SelectedBy .height .regHeight 3 ∧ Reads .regHeight (·.height)
    ∧ ∀ (s : State) (v : Word),
      (v.toNat ≤ s.cfg.maxHeight → exec (.regHeight (.write v)) s
        = .next { s with height := v, invalidated := true })
      ∧ (s.cfg.maxHeight < v.toNat → exec (.regHeight (.write v)) s
        = .next { s with diag := s.diag ++ [.badRegWrite .height v] }))

/-- BITS_PER_PIXEL (R130): a legal depth is stored and invalidates, another is rejected. -/
def Obligations.DepthRegisterAcceptsLegalDepths : Prop :=
  SelectedBy .bitsPerPixel .regBitsPerPixel 7 ∧ Reads .regBitsPerPixel (·.bpp)
  ∧ ∀ (s : State) (v : Word),
    (v.toNat ∈ s.cfg.bppLegal → exec (.regBitsPerPixel (.write v)) s = .next { s with bpp := v, invalidated := true })
    ∧ (v.toNat ∉ s.cfg.bppLegal → exec (.regBitsPerPixel (.write v)) s
        = .next { s with diag := s.diag ++ [.badRegWrite .bitsPerPixel v] })

/-- CONFIG_DONE (R143): a true value stops external dirty tracking, a write of 0 emits nothing. -/
def Obligations.ConfigDoneRegisterStopsTracking : Prop :=
  SelectedBy .configDone .regConfigDone 20 ∧ Reads .regConfigDone (fun s => if s.config = true then 1 else 0)
  ∧ ∀ (s : State) (v : Word),
    (v ≠ 0 → exec (.regConfigDone (.write v)) s
      = .next { s with config := true, out := s.out ++ [.dirtyTracking .stop] })
    ∧ (v = 0 → exec (.regConfigDone (.write v)) s = .next { s with config := false })

/-- SYNC (R144): a write of any value sets the flag and starts a decoder invocation with fresh working variables; the
invocation's passes are the steps that follow (log 2), and its end clears the flag (`InvocationEndDecidesTheLine`). -/
def Obligations.SyncRegisterStartsAnInvocation : Prop :=
  SelectedBy .sync .regSync 21 ∧ Reads .regSync (fun s => if s.syncing = true then 1 else 0)
  ∧ ∀ (s : State) (v : Word), exec (.regSync (.write v)) s
      = .next { s with syncing := true, trigger := some .sync, steps := 0, progressed := false, fired := false }

/-- PITCHLOCK (R160): any value is stored, and a non-zero one activates the override. -/
def Obligations.PitchlockRegisterSetsTheOverride : Prop :=
  SelectedBy .pitchlock .regPitchlock 32 ∧ Reads .regPitchlock (·.pitchlock)
  ∧ ∀ (s : State) (v : Word),
    (v ≠ 0 → exec (.regPitchlock (.write v)) s = .next { s with pitchlock := v, pitchlockCount := 1 })
    ∧ (v = 0 → exec (.regPitchlock (.write v)) s = .next { s with pitchlock := 0, pitchlockCount := 0 })

/-- The scratch block (R165) and every invalid index (R167). That the instruction for an element at or beyond the end
of the block is diagnosed as invalid is the model's choice (log 18): no index selects such an element. -/
def Obligations.ScratchRegistersAndInvalidIndices : Prop :=
  (∀ (c : Config) (i : Nat) (acc : RegAccess), c.valid = true → i < c.scratchSize → c.scratchBase + i < 2 ^ 32 →
    decodeRegister c (BitVec.ofNat 32 (c.scratchBase + i)) acc = .regScratch i acc)
  ∧ (∀ (s : State) (i : Nat) (v w : Word), i < s.cfg.scratchSize →
      (s.scratch[i]? = some w → exec (.regScratch i .read) s = .next { s with guestData := w })
      ∧ exec (.regScratch i (.write v)) s = .next { s with scratch := s.scratch.set i v })
  ∧ (∀ (s : State) (i : Nat) (v : Word), s.cfg.scratchSize ≤ i →
      exec (.regScratch i .read) s
        = .next { s with guestData := 0, diag := s.diag ++ [.badRegIndex .read (BitVec.ofNat 32 (s.cfg.scratchBase + i))] }
      ∧ exec (.regScratch i (.write v)) s
        = .next { s with diag := s.diag ++ [.badRegIndex .write (BitVec.ofNat 32 (s.cfg.scratchBase + i))] })
  ∧ (∀ (c : Config) (index : Word) (acc : RegAccess), (∀ n : RegName, c.regIndex n ≠ index) →
      ¬ (c.paletteBase ≤ index.toNat ∧ index.toNat < c.paletteBase + 768) →
      ¬ (c.scratchBase ≤ index.toNat ∧ index.toNat < c.scratchBase + c.scratchSize) →
      decodeRegister c index acc = .regInvalid index acc)
  ∧ ∀ (s : State) (index v : Word),
      exec (.regInvalid index .read) s
        = .next { s with guestData := 0, diag := s.diag ++ [.badRegIndex .read index] }
      ∧ exec (.regInvalid index (.write v)) s = .next { s with diag := s.diag ++ [.badRegIndex .write index] }

/-! ### The ports -/

/-- The index port (R120, R121): any value is latched, a read returns the latch and changes nothing else. -/
def Obligations.IndexPortLatchesAndReturns : Prop :=
  (∀ (s : State) (v : Word), exec (.portIndexWrite v) s = .next { s with index := v })
  ∧ ∀ s : State, exec .portIndexRead s = .next { s with guestData := s.index }

/-- The value port (R122, R123): a read or write is the access of the register the latched index selects; it always
completes, leaves the latch, and a read changes nothing but its result and the diagnostic trace. -/
def Obligations.ValuePortAccessesTheSelectedRegister : Prop :=
  (∀ s : State, exec .portValueRead s = exec (decodeRegister s.cfg s.index .read) s
    ∧ ∃ t : State, exec .portValueRead s = .next t ∧ t = { s with guestData := t.guestData, diag := t.diag })
  ∧ ∀ (s : State) (v : Word), exec (.portValueWrite v) s = exec (decodeRegister s.cfg s.index (.write v)) s
    ∧ ∃ t : State, exec (.portValueWrite v) s = .next t ∧ t.index = s.index

/-- The IRQ-status port (R341, R342): a write clears exactly its bits and lowers the line once no status bit is left,
reporting only a change; a read returns all status bits. -/
def Obligations.IrqStatusPortAcknowledgesAndReturns : Prop :=
  (∀ (s : State) (v : Word),
    (s.irqStatus &&& ~~~v = 0 → s.irqLine = true → exec (.portIrqStatusWrite v) s
      = .next { s with irqStatus := 0, irqLine := false, out := s.out ++ [.irqLower] })
    ∧ ((s.irqStatus &&& ~~~v ≠ 0 ∨ s.irqLine = false) → exec (.portIrqStatusWrite v) s
      = .next { s with irqStatus := s.irqStatus &&& ~~~v }))
  ∧ ∀ s : State, exec .portIrqStatusRead s = .next { s with guestData := s.irqStatus }

/-! ### The implemented commands -/

/-- UPDATE (R215): four argument words; exactly one rectangle is appended (R311), its own where it lies inside the
surface (R290), else the whole surface with a diagnostic. -/
def Obligations.UpdateEnqueuesOneRectangle : Prop :=
  Config.default.opc.update = 1
  ∧ (∀ c : Config, c.valid = true →
      (∀ (x y w h : Word) (rest : List Word),
        decodeCommand c (c.opc.update :: x :: y :: w :: h :: rest) = .ok (.update x y w h, rest))
      ∧ IncompleteBelow c c.opc.update 4)
  ∧ ∀ (s : State) (x y w h : Word),
      (RectInside s x y w h → exec (.update x y w h) s
        = .next { s with queue := queueAfter s (argRect x y w h), out := outAfter s, outcome := some .applied })
      ∧ (¬ RectInside s x y w h → exec (.update x y w h) s
        = .next { s with queue := queueAfter s (fullRect s), out := outAfter s,
                         diag := s.diag ++ [.badRect .update x y w h], outcome := some .applied })

/-- UPDATE_VERBOSE (R216): as UPDATE, with a fifth word that changes nothing. -/
def Obligations.UpdateVerboseIgnoresItsReason : Prop :=
  Config.default.opc.updateVerbose = 25
  ∧ (∀ c : Config, c.valid = true →
      (∀ (x y w h reason : Word) (rest : List Word),
        decodeCommand c (c.opc.updateVerbose :: x :: y :: w :: h :: reason :: rest)
          = .ok (.updateVerbose x y w h reason, rest))
      ∧ IncompleteBelow c c.opc.updateVerbose 5)
  ∧ ∀ (s : State) (x y w h reason : Word),
      (RectInside s x y w h → exec (.updateVerbose x y w h reason) s
        = .next { s with queue := queueAfter s (argRect x y w h), out := outAfter s, outcome := some .applied })
      ∧ (¬ RectInside s x y w h → exec (.updateVerbose x y w h reason) s
        = .next { s with queue := queueAfter s (fullRect s), out := outAfter s,
                         diag := s.diag ++ [.badRect .updateVerbose x y w h], outcome := some .applied })

/-- Commands that fail validation, RECT_COPY (R217) and RECT_FILL where it has an opcode (R219): no byte of a memory
is read or written, the whole surface is enqueued, the once-only diagnostic follows. -/
def Obligations.FailedRectangleCommandsFallBack : Prop :=
  (∀ (s : State) (sx sy dx dy w h : Word),
    ¬ (RectInside s sx sy w h ∧ RectInside s dx dy w h ∧ RowsInFramebuffer s sx sy w h ∧ RowsInFramebuffer s dx dy w h) →
    exec (.rectCopy sx sy dx dy w h) s
      = .next (skippedOnce s.cfg.opc.rectCopy { s with queue := queueAfter s (fullRect s), out := outAfter s }))
  ∧ ∀ (s : State) (op colour x y w h : Word), s.cfg.opcRectFill = some op →
    ¬ (RectInside s x y w h ∧ RowsInFramebuffer s x y w h) →
    exec (.rectFill colour x y w h) s
      = .next (skippedOnce op { s with queue := queueAfter s (fullRect s), out := outAfter s })

/-- RECT_FILL (R298, R219), with no guest access in between: every byte of the rectangle's rows holds its byte of the
pixel (where rows alias, the last line to reach an address wins), no other byte changes, and the rectangle is
appended. -/
def Obligations.RectFillWritesTheColourAndNothingElse : Prop :=
  (∀ (c : Config) (op : Word), c.valid = true → c.opcRectFill = some op →
    (∀ (colour x y w h : Word) (rest : List Word),
      decodeCommand c (op :: colour :: x :: y :: w :: h :: rest) = .ok (.rectFill colour x y w h, rest))
    ∧ IncompleteBelow c op 5)
  ∧ ∀ (s : State) (colour x y w h : Word), Quiet s → Memory.wf s.fb → RectInside s x y w h →
    RowsInFramebuffer s x y w h →
    ∃ m : Memory, exec (.rectFill colour x y w h) s
        = .next { s with fb := m, queue := queueAfter s (argRect x y w h), out := outAfter s, outcome := some .applied }
      ∧ Memory.wf m
      ∧ (∀ j k : Nat, j < h.toNat → k < w.toNat * bypp s →
          (∀ j' k' : Nat, j < j' → j' < h.toNat → k' < w.toNat * bypp s → pixelAddr s x y j' k' ≠ pixelAddr s x y j k) →
          Memory.read .fb m (pixelAddr s x y j k) = byteOf colour (k % bypp s))
      ∧ ∀ a : Nat, (∀ j k : Nat, j < h.toNat → k < w.toNat * bypp s → pixelAddr s x y j k ≠ a) →
          Memory.read .fb m a = Memory.read .fb s.fb a

/-- The rectangle engine always completes, in every state, with rows aliasing or not and under every guest
interleaving: no access leaves the framebuffer (the spec's inference in R292). It leaves the register bank alone, and
without guest accesses it leaves the FIFO memory and every byte beyond the framebuffer alone. Its framebuffer accesses,
a byte each (R66), are those of R296 and R298: as many groups of the guest's schedule (R76, log 4) are used up as a copy
reads and stores bytes, or a fill stores, and none where the operation fails (R293). -/
def Obligations.RectangleEngineStaysInTheFramebuffer : Prop :=
  (∀ (s : State) (i : Instr),
    ((∃ sx sy dx dy w h : Word, i = .rectCopy sx sy dx dy w h) ∨ ∃ colour x y w h : Word, i = .rectFill colour x y w h) →
    ∃ t : State, exec i s = .next t ∧ SameRegisters s t
      ∧ (Quiet s → t.fifo = s.fifo ∧ t.guestSched = s.guestSched ∧ t.guestReads = s.guestReads
          ∧ (Memory.wf s.fb → ∀ a : Nat, s.cfg.fbSize ≤ a → Memory.read .fb t.fb a = Memory.read .fb s.fb a)))
  ∧ (∀ (s t : State) (sx sy dx dy w h : Word), exec (.rectCopy sx sy dx dy w h) s = .next t →
      t.guestSched = s.guestSched.drop
        (if RectInside s sx sy w h ∧ RectInside s dx dy w h ∧ RowsInFramebuffer s sx sy w h ∧ RowsInFramebuffer s dx dy w h
          then h.toNat * (2 * (w.toNat * bypp s)) else 0))
  ∧ ∀ (s t : State) (colour x y w h : Word), exec (.rectFill colour x y w h) s = .next t →
      t.guestSched = s.guestSched.drop
        (if RectInside s x y w h ∧ RowsInFramebuffer s x y w h then h.toNat * (w.toNat * bypp s) else 0)

/-- RECT_COPY where no guest access falls inside, whatever the overlap and whether rows alias or not: the framebuffer
holds what its lines leave, copied one after the other in the order of R296 (`copyRows`), nothing else changes, and the
destination rectangle is appended. Where rows do not alias that is a snapshot copy (the spec's inference R297): every
destination byte holds what its source byte held before, and no other byte changes. -/
def Obligations.RectCopyIsASnapshotCopy : Prop :=
  ∀ (s : State) (sx sy dx dy w h : Word), Quiet s → Memory.wf s.fb →
    RectInside s sx sy w h → RectInside s dx dy w h → RowsInFramebuffer s sx sy w h → RowsInFramebuffer s dx dy w h →
    ∃ m : Memory, exec (.rectCopy sx sy dx dy w h) s
        = .next { s with fb := m, queue := queueAfter s (argRect dx dy w h), out := outAfter s, outcome := some .applied }
      ∧ Memory.wf m
      ∧ (∀ a : Nat, Memory.read .fb m a = copyRows s sx sy dx dy w h (Memory.read .fb s.fb) a)
      ∧ (∀ a : Nat, (∀ j k : Nat, j < h.toNat → k < w.toNat * bypp s → pixelAddr s dx dy j k ≠ a) →
          Memory.read .fb m a = Memory.read .fb s.fb a)
      ∧ (s.width.toNat * bypp s ≤ stride s → ∀ j k : Nat, j < h.toNat → k < w.toNat * bypp s →
          Memory.read .fb m (pixelAddr s dx dy j k) = Memory.read .fb s.fb (pixelAddr s sx sy j k))

/-- FENCE (R218): the value is latched into header word 6, any-fence is signalled, and fence-goal where the header
region holds the goal word and the goal equals the value. `tick` is what the guest may do just before each of the
two memory accesses (R76); the schedule of the guest's accesses is the model's choice (log 4). -/
def Obligations.FenceLatchesAndSignals : Prop :=
  Config.default.opc.fence = 30
  ∧ (∀ c : Config, c.valid = true →
      (∀ (f : Word) (rest : List Word), decodeCommand c (c.opc.fence :: f :: rest) = .ok (.fence f, rest))
      ∧ IncompleteBelow c c.opc.fence 1)
  ∧ ∀ (s : State) (f : Word), s.cfg.valid = true →
      let a := tick s
      let b := irqEvent s.cfg.irq.anyFence { a with fifo := Memory.write32 a.fifo 24 f }
      let d := tick b
      (s.fifoMin.toNat < 4 * (s.cfg.hdr.fenceGoal + 1) →
        exec (.fence f) s = .next { b with outcome := some .applied })
      ∧ (4 * (s.cfg.hdr.fenceGoal + 1) ≤ s.fifoMin.toNat → Memory.read32 .fifo d.fifo (4 * s.cfg.hdr.fenceGoal) ≠ f →
        exec (.fence f) s = .next { d with outcome := some .applied })
      ∧ (4 * (s.cfg.hdr.fenceGoal + 1) ≤ s.fifoMin.toNat → Memory.read32 .fifo d.fifo (4 * s.cfg.hdr.fenceGoal) = f →
        exec (.fence f) s = .next { irqEvent s.cfg.irq.fenceGoal d with outcome := some .applied })

/-- The frame of FENCE without guest accesses: four bytes of the FIFO memory and the interrupt status change, and the
four bytes hold the value. -/
def Obligations.FenceWritesFourBytesAndStatusOnly : Prop :=
  ∀ (s : State) (f : Word), s.cfg.valid = true → Quiet s → Memory.wf s.fifo →
    ∃ t : State, exec (.fence f) s = .next t
      ∧ t = { s with fifo := t.fifo, irqStatus := t.irqStatus, fired := t.fired, outcome := some .applied }
      ∧ Memory.read32 .fifo t.fifo 24 = f
      ∧ (∀ a : Nat, a < 24 ∨ 28 ≤ a → Memory.read .fifo t.fifo a = Memory.read .fifo s.fifo a)
      ∧ (s.irqMask &&& s.cfg.irq.anyFence ≠ 0 → t.fired = true ∧ t.irqStatus &&& s.cfg.irq.anyFence ≠ 0)
      ∧ (s.irqMask = 0 → s.cfg.irqStatusSetsUnmasked = false → t.irqStatus = s.irqStatus ∧ t.fired = s.fired)

/-! ### The cursor commands -/

/-- DEFINE_CURSOR (R243): seven fixed words and the two masks. With a valid declaration (R241) the buffers take the
definition, elements behind the masks keep their contents, and the event carries the masks alone; with an oversized one
no buffer is written and, the payload consumed, the once-only diagnostic follows (R242). -/
def Obligations.DefineCursorStoresAndForwards : Prop :=
  Config.default.opc.defineCursor = 19
  ∧ (∀ c : Config, c.valid = true →
      (∀ (id hx hy w h ab xb : Word) (andM xorM rest : List Word),
        andM.length = (w.toNat * ab.toNat + 31) / 32 * h.toNat → xorM.length = (w.toNat * xb.toNat + 31) / 32 * h.toNat →
        decodeCommand c (c.opc.defineCursor :: id :: hx :: hy :: w :: h :: ab :: xb :: (andM ++ xorM ++ rest))
          = .ok (.defineCursor id hx hy w h ab xb (andM ++ xorM), rest))
      ∧ IncompleteBelow c c.opc.defineCursor 7
      ∧ ∀ (id hx hy w h ab xb : Word) (ws : List Word),
        ws.length < (w.toNat * ab.toNat + 31) / 32 * h.toNat + (w.toNat * xb.toNat + 31) / 32 * h.toNat →
        decodeCommand c (c.opc.defineCursor :: id :: hx :: hy :: w :: h :: ab :: xb :: ws) = .error .incomplete)
  ∧ (∀ (s : State) (id hx hy w h ab xb : Word) (andM xorM : List Word),
      andM.length = (w.toNat * ab.toNat + 31) / 32 * h.toNat → xorM.length = (w.toNat * xb.toNat + 31) / 32 * h.toNat →
      w.toNat ≤ 256 → h.toNat ≤ 256 → andM.length ≤ s.cfg.cursorCap → xorM.length ≤ s.cfg.cursorCap →
      exec (.defineCursor id hx hy w h ab xb (andM ++ xorM)) s
        = .next { s with
            cur := ⟨.legacy, id, hx, hy, w, h, ab, xb, andM ++ s.cur.andMask.drop andM.length,
                    xorM ++ s.cur.xorMask.drop xorM.length⟩,
            out := s.out ++ [.cursorDefine .legacy ⟨.legacy, id, hx, hy, w, h, ab, xb, andM, xorM⟩],
            outcome := some .applied })
  ∧ ∀ (s : State) (id hx hy w h ab xb : Word) (payload : List Word),
      (256 < w.toNat ∨ 256 < h.toNat ∨ s.cfg.cursorCap < (w.toNat * ab.toNat + 31) / 32 * h.toNat
        ∨ s.cfg.cursorCap < (w.toNat * xb.toNat + 31) / 32 * h.toNat) →
      exec (.defineCursor id hx hy w h ab xb payload) s = .next (skippedOnce s.cfg.opc.defineCursor s)

/-- DEFINE_ALPHA_CURSOR (R246): with a valid declaration the pixels go to the XOR array, the AND array keeps its
contents, the depths are stored as 0 and 32; an oversized one is skipped (R242). -/
def Obligations.DefineAlphaCursorStoresAndForwards : Prop :=
  Config.default.opc.defineAlphaCursor = 22
  ∧ (∀ c : Config, c.valid = true →
      (∀ (id hx hy w h : Word) (pixels rest : List Word), pixels.length = w.toNat * h.toNat →
        decodeCommand c (c.opc.defineAlphaCursor :: id :: hx :: hy :: w :: h :: (pixels ++ rest))
          = .ok (.defineAlphaCursor id hx hy w h pixels, rest))
      ∧ IncompleteBelow c c.opc.defineAlphaCursor 5
      ∧ ∀ (id hx hy w h : Word) (ws : List Word), ws.length < w.toNat * h.toNat →
        decodeCommand c (c.opc.defineAlphaCursor :: id :: hx :: hy :: w :: h :: ws) = .error .incomplete)
  ∧ (∀ (s : State) (id hx hy w h : Word) (pixels : List Word), pixels.length = w.toNat * h.toNat →
      w.toNat ≤ 256 → h.toNat ≤ 256 → pixels.length ≤ s.cfg.cursorCap →
      exec (.defineAlphaCursor id hx hy w h pixels) s
        = .next { s with
            cur := ⟨.alpha, id, hx, hy, w, h, 0, 32, s.cur.andMask, pixels ++ s.cur.xorMask.drop pixels.length⟩,
            out := s.out ++ [.cursorDefine .alpha ⟨.alpha, id, hx, hy, w, h, 0, 32, [], pixels⟩],
            outcome := some .applied })
  ∧ ∀ (s : State) (id hx hy w h : Word) (pixels : List Word),
      (256 < w.toNat ∨ 256 < h.toNat ∨ s.cfg.cursorCap < w.toNat * h.toNat) →
      exec (.defineAlphaCursor id hx hy w h pixels) s = .next (skippedOnce s.cfg.opc.defineAlphaCursor s)

/-! ### The skip class and unknown opcodes -/

/-- The twelve format-F members of the skip class (R262, R265 to R271, R273 to R276). -/
def Obligations.FixedSkipCommandsOnlyConsume : Prop :=
  SkipsFixed .invalidCmd (·.opc.invalidCmd) (·.skipArgs.invalidCmd) 0 0
  ∧ SkipsFixed .destroyScreen (·.opc.destroyScreen) (·.skipArgs.destroyScreen) 35 1
  ∧ SkipsFixed .defineGmrfb (·.opc.defineGmrfb) (·.skipArgs.defineGmrfb) 36 4
  ∧ SkipsFixed .blitGmrfbToScreen (·.opc.blitGmrfbToScreen) (·.skipArgs.blitGmrfbToScreen) 37 7
  ∧ SkipsFixed .blitScreenToGmrfb (·.opc.blitScreenToGmrfb) (·.skipArgs.blitScreenToGmrfb) 38 7
  ∧ SkipsFixed .annotationFill (·.opc.annotationFill) (·.skipArgs.annotationFill) 39 1
  ∧ SkipsFixed .annotationCopy (·.opc.annotationCopy) (·.skipArgs.annotationCopy) 40 3
  ∧ SkipsFixed .defineGmr2 (·.opc.defineGmr2) (·.skipArgs.defineGmr2) 41 2
  ∧ SkipsFixed .dead (·.opc.dead) (·.skipArgs.dead) 43 0
  ∧ SkipsFixed .dead2 (·.opc.dead2) (·.skipArgs.dead2) 44 0
  ∧ SkipsFixed .nop (·.opc.nop) (·.skipArgs.nop) 45 0
  ∧ SkipsFixed .nopError (·.opc.nopError) (·.skipArgs.nopError) 46 0

/-- The format-V members of the skip class: ESCAPE (R263), DEFINE_SCREEN (R264), REMAP_GMR2 (R272). The fixed words of
the first two are as many as `cfg.SKIP_ARGS` says (R260), by default two and one. Their payload lengths are computed from
the length-bearing word, which keeps its place among the fixed words; where the count leaves it out no rule gives a
length, and the model's is a free value (log 20). That of REMAP_GMR2 is the parameter `cfg.RemapGmr2Payload`, whose
default is the formula of R272. -/
def Obligations.VariableSkipCommandsOnlyConsume : Prop :=
  (Config.default.opc.escape = 33 ∧ Config.default.skipArgs.escape = 2
    ∧ (∀ c : Config, c.valid = true → ∀ args payload rest : List Word, args.length = c.skipArgs.escape →
        payload.length = (match args[1]? with
          | some size => (size.toNat + 3) / 4
          | none => Config.unstatedPayload c.opc.escape args) →
        decodeCommand c (c.opc.escape :: (args ++ (payload ++ rest)))
          = .ok (.escape (args.take 1) (args.drop 1) payload, rest))
    ∧ ∀ (s : State) (nsid size payload : List Word),
        exec (.escape nsid size payload) s = .next (skippedOnce s.cfg.opc.escape s))
  ∧ (Config.default.opc.defineScreen = 34 ∧ Config.default.skipArgs.defineScreen = 1
    ∧ (∀ c : Config, c.valid = true → ∀ args payload rest : List Word, args.length = c.skipArgs.defineScreen →
        payload.length = (match args[0]? with
          | some size => max ((size.toNat + 3) / 4) 1 - 1
          | none => Config.unstatedPayload c.opc.defineScreen args) →
        decodeCommand c (c.opc.defineScreen :: (args ++ (payload ++ rest))) = .ok (.defineScreen args payload, rest))
    ∧ ∀ (s : State) (args payload : List Word),
        exec (.defineScreen args payload) s = .next (skippedOnce s.cfg.opc.defineScreen s))
  ∧ (Config.default.opc.remapGmr2 = 42
    ∧ (∀ c : Config, c.valid = true → ∀ (gmr flags off pages : Word) (payload rest : List Word),
        payload.length = c.remapGmr2Words flags pages →
        decodeCommand c (c.opc.remapGmr2 :: gmr :: flags :: off :: pages :: (payload ++ rest))
          = .ok (.remapGmr2 gmr flags off pages payload, rest))
    ∧ (∀ flags pages : Word, Config.default.remapGmr2Words flags pages
        = if flags &&& 1 ≠ 0 then 2
          else (if flags &&& 4 ≠ 0 then 1 else pages.toNat) * (if flags &&& 2 ≠ 0 then 2 else 1))
    ∧ ∀ (s : State) (gmr flags off pages : Word) (payload : List Word),
        exec (.remapGmr2 gmr flags off pages payload) s = .next (skippedOnce s.cfg.opc.remapGmr2 s))
  ∧ ∀ c : Config, c.valid = true →
      IncompleteBelow c c.opc.escape c.skipArgs.escape
      ∧ IncompleteBelow c c.opc.defineScreen c.skipArgs.defineScreen ∧ IncompleteBelow c c.opc.remapGmr2 4
      ∧ (∀ (args ws : List Word) (size : Word), args.length = c.skipArgs.escape → args[1]? = some size →
          ws.length < (size.toNat + 3) / 4 → decodeCommand c (c.opc.escape :: (args ++ ws)) = .error .incomplete)
      ∧ (∀ (args ws : List Word) (size : Word), args.length = c.skipArgs.defineScreen → args[0]? = some size →
          ws.length < max ((size.toNat + 3) / 4) 1 - 1 →
          decodeCommand c (c.opc.defineScreen :: (args ++ ws)) = .error .incomplete)
      ∧ ∀ (gmr flags off pages : Word) (ws : List Word), ws.length < c.remapGmr2Words flags pages →
          decodeCommand c (c.opc.remapGmr2 :: gmr :: flags :: off :: pages :: ws) = .error .incomplete

/-- An opcode word no command has (R280) is a command of its own: one word, the once-only diagnostic, nothing else. -/
def Obligations.UnknownOpcodesConsumeOneWord : Prop :=
  (∀ (c : Config) (op : Word) (rest : List Word), (∀ n : CmdName, c.opcode n ≠ some op) →
    decodeCommand c (op :: rest) = .ok (.unknown op, rest))
  ∧ ∀ (s : State) (op : Word), exec (.unknown op) s = .next (skippedOnce op s)

/-! ### Interrupts, the redraw queue, the ring, reset -/

/-- `IrqEvent` (R339): an enabled event sets its status bit and `fired`; one that is not is dropped, or recorded
without `fired` where the configuration says so. -/
def Obligations.InterruptEventsFollowTheMask : Prop :=
  ∀ (s : State) (bit : Word),
    (s.irqMask &&& bit ≠ 0 → irqEvent bit s = { s with irqStatus := s.irqStatus ||| bit, fired := true })
    ∧ (s.irqMask &&& bit = 0 → s.cfg.irqStatusSetsUnmasked = true →
        irqEvent bit s = { s with irqStatus := s.irqStatus ||| bit })
    ∧ (s.irqMask &&& bit = 0 → s.cfg.irqStatusSetsUnmasked = false → irqEvent bit s = s)

/-- The end of an invocation (R212): fifo-progress if a command advanced `stop`, the line raised if an event fired and
an enabled status bit is set, `syncing` cleared. That it clears the trigger, and that a SYNC invocation at its iteration
bound (R210) takes it in its next step, is the model's split of an invocation into steps (log 2). -/
def Obligations.InvocationEndDecidesTheLine : Prop :=
  ∀ s : State,
    let e := if s.progressed = true then irqEvent s.cfg.irq.fifoProgress s else s
    (e.fired = true → e.irqStatus &&& e.irqMask ≠ 0 → endOfInvocation s
      = { e with irqLine := true, out := e.out ++ [.irqRaise], syncing := false, trigger := none })
    ∧ ((e.fired = false ∨ e.irqStatus &&& e.irqMask = 0) → endOfInvocation s
      = { e with syncing := false, trigger := none })
    ∧ (s.trigger = some .sync → s.cfg.maxLoop ≤ s.steps → step s = .next (endOfInvocation s))

/-- `flush` (R312) and `append` (R311): a flush reports every queued rectangle in order, or none while invalidated,
and empties the queue; an append to a full queue flushes first. -/
def Obligations.QueueFlushesInOrderAndOnOverflow : Prop :=
  (∀ s : State, (s.invalidated = false → flush s
        = { s with out := s.out ++ s.queue.map (fun r => .update r.x r.y r.w r.h), queue := [] })
      ∧ (s.invalidated = true → flush s = { s with queue := [] }))
  ∧ ∀ (s : State) (r : Rect),
      (s.queue.length = 512 → append r s = { flush s with queue := [r] })
      ∧ (s.queue.length ≠ 512 → append r s = { s with queue := s.queue ++ [r] })

/-- `length()` (R190) and its gate (R191): four header reads in the order MIN, MAX, NEXT_CMD, STOP, each seeing the
guest's accesses up to it, all latched; the pending length over the integers, or 0 where a condition fails. `tick` is
what the guest may do just before each read (R76); its schedule is the model's choice (log 4). -/
def Obligations.LengthValidatesTheLiveHeader : Prop :=
  ∀ s : State, 16 ≤ s.cfg.fifoSize →
    let s1 := tick s
    let s2 := tick s1
    let s3 := tick s2
    let s4 := tick s3
    let mn := Memory.read32 .fifo s1.fifo 0
    let mx := Memory.read32 .fifo s2.fifo 4
    let next := Memory.read32 .fifo s3.fifo 8
    let stop := Memory.read32 .fifo s4.fifo 12
    let t := { s4 with fifoMin := mn, fifoMax := mx, fifoNext := next, fifoStop := stop }
    (RingReady s mn.toNat mx.toNat next.toNat stop.toNat → length s
      = .ok (((((next.toNat : Int) - stop.toNat) % ((mx.toNat : Int) - mn.toNat)) / 4).toNat, t))
    ∧ (¬ RingReady s mn.toNat mx.toNat next.toNat stop.toNat → length s = .ok (0, t))

/-- `read_word()` (R192) on latches that `length()` validated, and `rewind` (R194): the word is read first, then the
new `stop` is latched and stored; the new latches stay valid (the spec's inference R193). A rewind stores the command's
start. `tick` is what the guest may do just before each memory access (R76, log 4). -/
def Obligations.RingCursorMovesAndRestoresStop : Prop :=
  (∀ s : State, LatchesReady s →
    let a := tick s
    let stop := if s.fifoStop.toNat + 4 ≥ s.fifoMax.toNat then s.fifoMin else s.fifoStop + 4
    let b := tick { a with fifoStop := stop }
    let t := { b with fifo := Memory.write32 b.fifo 12 stop }
    readWord s = .ok (Memory.read32 .fifo a.fifo s.fifoStop.toNat, t) ∧ LatchesReady t)
  ∧ ∀ s : State, 16 ≤ s.cfg.fifoSize →
    let a := tick { s with fifoStop := s.cmdStart }
    rewind s = .ok { a with fifo := Memory.write32 a.fifo 12 s.cmdStart }

/-- The start of `Refresh`: the cursor poll draws four fresh free words (R318, log 8); then the legacy renderer is
called, or in FIFO mode an invocation started whose end is `RefreshEndFlushesAndRedraws`. R316 has one Refresh do all of
it: that this step ends with the invocation started, and its passes are the steps that follow, is the model's split
(log 2), and so is the list of inputs the event stands in (log 3). -/
def Obligations.RefreshPollsThenTakesItsPath : Prop :=
  ∀ (s : State) (rest : List Event), s.trigger = none → s.inputs = .refresh :: rest →
    let t := { s with
      inputs := rest, lastCursorCount := Config.drawWord s.draws, cursorX := Config.drawWord (s.draws + 1),
      cursorY := Config.drawWord (s.draws + 2), cursorOn := Config.drawWord (s.draws + 3), draws := s.draws + 4 }
    ((s.enable = false ∨ s.config = false) → step s = .next { t with out := s.out ++ [.legacyRender] })
    ∧ (s.enable = true → s.config = true → step s
        = .next { t with trigger := some .refresh, steps := 0, progressed := false, fired := false })

/-- The end of a refresh in FIFO mode (R316, R312): the invocation ends (`InvocationEndDecidesTheLine`), the queue is
flushed or discarded, and an invalidated surface is redrawn in full. Every step that ends a refresh does exactly that,
at its bound, on an empty or not-ready ring or at a rewind, in a state that differs from the one before the step only in
what `length()` and a fetch may touch; at the bound in the state itself. One pass of the drain loop is one step
(log 2). -/
def Obligations.RefreshEndFlushesAndRedraws : Prop :=
  (∀ s : State, s.trigger = some .refresh →
    let e := endOfInvocation s
    (s.invalidated = false → finishInvocation s
      = { e with out := e.out ++ s.queue.map (fun r => .update r.x r.y r.w r.h), queue := [] })
    ∧ (s.invalidated = true → finishInvocation s
      = { e with queue := [], invalidated := false,
                 out := e.out ++ [.modeSet s.width.toNat s.height.toNat (stride s) s.bpp.toNat, .fullRedraw] })
    ∧ (s.cfg.maxLoop ≤ s.steps → step s = .next (finishInvocation s)))
  ∧ ∀ s t : State, s.trigger = some .refresh → step s = .next t → t.trigger = none →
    ∃ u : State, t = finishInvocation u ∧ u.trigger = some .refresh ∧ SameRegisters s u ∧ u.queue = s.queue
      ∧ u.out = s.out ∧ u.progressed = s.progressed ∧ u.fired = s.fired ∧ u.irqStatus = s.irqStatus
      ∧ u.irqLine = s.irqLine

/-- `Reset` (R370, the table of R50): every device field at its reset value, `IrqLower` if the line was raised,
memories and traces kept. The latches and cursor buffers are unspecified. That the other inputs stay is the model's
choice (log 3), and so is that the record of the guest's reads does (log 10). -/
def Obligations.ResetRestoresEveryFieldOfTheTable : Prop :=
  ∀ (s : State) (rest : List Event), s.trigger = none → s.inputs = .reset :: rest →
    ∃ t : State, step s = .next t
      ∧ (t.enable = false ∧ t.config = false ∧ t.width = BitVec.ofNat 32 s.cfg.defaultWidth
        ∧ t.height = BitVec.ofNat 32 s.cfg.defaultHeight ∧ t.bpp = BitVec.ofNat 32 s.cfg.defaultBpp
        ∧ t.pitchlock = 0 ∧ t.pitchlockCount = 0 ∧ t.guestId = 0 ∧ t.displayId = 0
        ∧ t.scratch = List.replicate s.cfg.scratchSize 0 ∧ t.irqMask = 0 ∧ t.irqStatus = 0 ∧ t.irqLine = false
        ∧ t.lastCursorCount = 0 ∧ t.index = 0 ∧ t.svgaId = s.cfg.svgaId ∧ t.cursorId = 0 ∧ t.cursorX = 0
        ∧ t.cursorY = 0 ∧ t.cursorOn = 0 ∧ t.syncing = false ∧ t.invalidated = true ∧ t.queue = [] ∧ t.logged = [])
      ∧ t.fifo = s.fifo ∧ t.fb = s.fb ∧ t.diag = s.diag ∧ t.cfg = s.cfg ∧ t.trigger = none ∧ t.inputs = rest
      ∧ t.guestReads = s.guestReads ∧ t.out = (if s.irqLine = true then s.out ++ [.irqLower] else s.out)

/-- The state after power-on meets the invariants the steps keep (the model's named reset values of log 6, 7 among
them), and both memories hold arbitrary bytes (R371): every byte is the free power-on byte of its address (log 5). -/
def Obligations.ResetStateMeetsTheInvariants : Prop :=
  State.reset.cfg.valid = true ∧ LineInv State.reset ∧ ShapeInv State.reset ∧ ModeInv State.reset
  ∧ State.reset.irqStatus &&& ~~~(eventBits State.reset.cfg) = 0
  ∧ ∀ a : Nat, Memory.read .fifo State.reset.fifo a = Config.powerOnFifo a
      ∧ Memory.read .fb State.reset.fb a = Config.powerOnFb a

/-- A direct write of the guest stores exactly its bytes into the one memory it names, a direct read changes nothing
but the value delivered; neither touches the device (R20, R37, R39, R67; the events are log 3, 10). -/
def Obligations.GuestMemoryAccessesTouchOneMemory : Prop :=
  ∀ (s : State) (rest : List Event), s.trigger = none →
    (∀ (a : Nat) (bs : List Byte), s.inputs = .guestWrite ⟨.fifo, a, bs⟩ :: rest → a + bs.length ≤ s.cfg.fifoSize →
      Memory.wf s.fifo → ∃ m : Memory, step s = .next { s with inputs := rest, fifo := m } ∧ Memory.wf m
        ∧ ∀ b : Nat, Memory.read .fifo m b = if a ≤ b ∧ b < a + bs.length then bs.getD (b - a) 0 else Memory.read .fifo s.fifo b)
    ∧ (∀ (a : Nat) (bs : List Byte), s.inputs = .guestWrite ⟨.fb, a, bs⟩ :: rest → a + bs.length ≤ s.cfg.fbSize →
      Memory.wf s.fb → ∃ m : Memory, step s = .next { s with inputs := rest, fb := m } ∧ Memory.wf m
        ∧ ∀ b : Nat, Memory.read .fb m b = if a ≤ b ∧ b < a + bs.length then bs.getD (b - a) 0 else Memory.read .fb s.fb b)
    ∧ (∀ a : Nat, s.inputs = .guestRead .fifo a :: rest → a < s.cfg.fifoSize →
      step s = .next { s with inputs := rest, guestData := (Memory.read .fifo s.fifo a).setWidth 32 })
    ∧ (∀ a : Nat, s.inputs = .guestRead .fb a :: rest → a < s.cfg.fbSize →
      step s = .next { s with inputs := rest, guestData := (Memory.read .fb s.fb a).setWidth 32 })

/-- Not ready is empty (R195), and the ordinary end of every invocation (R210, R212, R316): a pass of a running
invocation below its bound, on a ring that is empty or not ready, loads the four latches and finishes the invocation,
however many commands it consumed and whatever started it (`InvocationEndDecidesTheLine` and
`RefreshEndFlushesAndRedraws` say what that is). For a SYNC invocation without progress and without an event nothing
changes but the latches and the invocation's own variables. One pass of the drain loop is one step (log 2). -/
def Obligations.NotReadyRingIsEmpty : Prop :=
  ∀ s : State, s.cfg.valid = true → Quiet s → s.trigger.isSome = true → s.steps < s.cfg.maxLoop →
    (¬ RingReady s (headerMin s).toNat (headerMax s).toNat (headerNext s).toNat (headerStop s).toNat
      ∨ headerNext s = headerStop s) →
    step s = .next (finishInvocation (loadLatches s))
    ∧ (s.trigger = some .sync → s.progressed = false → s.fired = false →
        step s = .next { loadLatches s with syncing := false, trigger := none })

/-! ### Decoding a ring, step by step -/

/-- A decode step on the ring of a state is the word-list decoder on the words that ring holds: if the pending words,
read in ring order across the wrap, start with an instruction, the step is `exec` of it in the state whose `stop` has
moved past exactly its words (R90, R192, R210, R211, R213), without guest accesses in between. That the fetch of every
word comes before the effect is the model's split of a decode step (log 15), and that the step is one pass of the drain
loop is log 2. -/
def Obligations.StepRunsTheInstructionInTheRing : Prop :=
  ∀ (s : State) (i : Instr) (rest : List Word), s.cfg.valid = true → Quiet s → Memory.wf s.fifo →
    s.trigger.isSome = true → s.steps < s.cfg.maxLoop → decodeCommand s.cfg (pendingRing s) = .ok (i, rest) →
    step s = progress (exec i (afterFetch s (pending s - rest.length)))

/-- A command whose words are not all pending is rewound (R332, R194, R213): the invocation ends, STOP is stored as
it was and so no byte of the FIFO memory has changed, `stop` stands at the command's start, nothing is recorded. One pass
of the drain loop is one step (log 2). -/
def Obligations.IncompleteCommandsAreRewound : Prop :=
  ∀ s : State, s.cfg.valid = true → Quiet s → Memory.wf s.fifo → s.trigger.isSome = true →
    s.steps < s.cfg.maxLoop → pending s ≠ 0 → decodeCommand s.cfg (pendingRing s) = .error .incomplete →
    (∀ a : Nat, Memory.read .fifo (Memory.write32 s.fifo 12 (headerStop s)) a = Memory.read .fifo s.fifo a)
    ∧ ∃ r : Int, r < 0 ∧ step s = .next (finishInvocation { loadLatches s with
        fifo := Memory.write32 s.fifo 12 (headerStop s),
        steps := s.steps + 1, cmdStart := headerStop s, rem := r, outcome := some .rewound })

/-- Every invocation ends (R210): within one step more than the iterations left it has returned. The count is of the
model's steps: that one pass of the loop of R210, and its exit, is one step is the model's split (log 2). -/
def Obligations.InvocationsEndWithinTheBound : Prop :=
  ∀ s : State, s.cfg.valid = true → s.trigger.isSome = true →
    ∃ (k : Nat) (t : State), k ≤ s.cfg.maxLoop - s.steps + 1
      ∧ Host.Core.run Sys2Proof.core k s = .next t ∧ t.trigger = none

/-- Updates are queued in command order, one rectangle each, without a flush while they fit (R310, the spec's
inference R313). -/
def Obligations.UpdatesQueueInCommandOrder : Prop :=
  ∀ (s : State) (ops : List (Word × Word × Word × Word)), s.queue.length + ops.length ≤ 512 →
    ∃ t : State, execAll (ops.map (fun o => .update o.1 o.2.1 o.2.2.1 o.2.2.2)) s = .next t
      ∧ t.queue = s.queue ++ ops.map (fun o => updateRect s o.1 o.2.1 o.2.2.1 o.2.2.2) ∧ t.out = s.out

/-! ### What no step does -/

/-- There is no fatal path (R330, with the spec's inferences R83 and R292): under a valid configuration every step whose
next event the spec gives a meaning has a next state, whatever the guest wrote. -/
def Obligations.EveryStepHasANextState : Prop :=
  ∀ s : State, s.cfg.valid = true → nextInputOk s = true → ∃ t : State, step s = .next t

/-- No FIFO command writes a register of the register bank (R70). -/
def Obligations.CommandsLeaveTheRegisterBank : Prop :=
  ∀ (i : Instr) (s t : State), isCommand s.cfg i = true → exec i s = .next t → SameRegisters s t

/-- No register or port operation touches a memory, the redraw queue or the cursor buffers (R70). Of a SYNC write,
through its register row or through the value port, this says that the write itself touches none: the decoder
invocation it starts (R144) does, in the steps that follow, since one pass of the drain loop is one step (log 2). -/
def Obligations.RegisterOperationsLeaveTheMemories : Prop :=
  ∀ (i : Instr) (s t : State), isCommand s.cfg i = false → exec i s = .next t →
    t.fifo = s.fifo ∧ t.fb = s.fb ∧ t.queue = s.queue ∧ t.cur = s.cur ∧ t.logged = s.logged
    ∧ t.guestSched = s.guestSched ∧ t.guestReads = s.guestReads ∧ t.inputs = s.inputs

/-- A step of an invocation changes no register, but that the end of an invocation clears `syncing` and the end of a
refresh clears `invalidated` (R46). One pass of the drain loop is one step (log 2). -/
def Obligations.InvocationsLeaveTheRegisterBank : Prop :=
  ∀ s t : State, s.trigger.isSome = true → step s = .next t →
    SameRegisters s { t with syncing := s.syncing, invalidated := s.invalidated }
    ∧ (t.trigger.isSome = true → t.syncing = s.syncing ∧ t.invalidated = s.invalidated)
    ∧ (t.trigger = none → t.syncing = false)

/-- In FIFO mode the redraw queue is empty and the surface valid after every refresh (R316), that is, after the step that
ends its invocation, one pass of the drain loop being one step (log 2). -/
def Obligations.RefreshLeavesAnEmptyQueue : Prop :=
  ∀ s t : State, s.trigger = some .refresh → step s = .next t → t.trigger = none →
    t.queue = [] ∧ t.invalidated = false

/-- The output and diagnostic traces are append-only (R48, R49). -/
def Obligations.TracesOnlyGrow : Prop :=
  ∀ s t : State, step s = .next t → s.out <+: t.out ∧ s.diag <+: t.diag

/-- Every step keeps the negotiated mode and the identity legal (the spec's inference in R24) and never writes the
configuration (R9, R47). -/
def Obligations.StepsKeepModeAndConfiguration : Prop :=
  ∀ s t : State, s.cfg.valid = true → step s = .next t → t.cfg = s.cfg ∧ (ModeInv s → ModeInv t)

/-- Every step keeps the status register within the bits that have an event (R338, R343). -/
def Obligations.StepsKeepTheStatusBits : Prop :=
  ∀ s t : State, s.irqStatus &&& ~~~(eventBits s.cfg) = 0 → step s = .next t →
    t.irqStatus &&& ~~~(eventBits t.cfg) = 0

/-- The interrupt line rises only at the end of an invocation and falls only by an acknowledge or a reset (R340, R341,
R370). One pass of the drain loop is one step (log 2), and one input is one step (log 3). -/
def Obligations.OnlyTheseMoveTheInterruptLine : Prop :=
  ∀ s t : State, step s = .next t →
    (s.irqLine = false → t.irqLine = true → s.trigger.isSome = true ∧ t.trigger = none)
    ∧ (s.irqLine = true → t.irqLine = false → s.trigger = none ∧ t.irqStatus = 0
        ∧ ∃ (e : Event) (rest : List Event), s.inputs = e :: rest
          ∧ (e = .reset ∨ ∃ (a : PortAccess) (v : Word), e = .port a ∧ decodePort s.cfg a = .ok (.portIrqStatusWrite v)))

/-- Every step keeps the invariant of the interrupt line (the spec's inference R345, extended to the inside of an
invocation, whose passes are the model's steps, log 2). -/
def Obligations.StepsKeepTheLineInvariant : Prop :=
  ∀ s t : State, LineInv s → step s = .next t → LineInv t

/-- Every step keeps the shape of the stored data: canonical memories, the lengths of the scratch block, of the redraw
queue and of the cursor masks, the log without repeats, `syncing` only inside an invocation (R27, R33, R41, R45, R247;
the memory's form is log 5, the steps inside an invocation log 2). -/
def Obligations.StepsKeepTheShape : Prop :=
  ∀ s t : State, s.cfg.valid = true → ShapeInv s → step s = .next t → ShapeInv t

/-! ### What the guest may do inside an invocation -/

/-- The guest's accesses between two memory accesses of the core (R37, R76; the schedule is log 4): `tick` changes
nothing where none is scheduled; else it uses up the first group and performs its accesses in order, and it writes only
where the configuration lets the guest interleave. Every access of the core is made on the `tick` of its state: a FIFO
word, and each byte of a framebuffer row, at rising addresses (log 21), so that an access uses up one group (R66). One
write stores each of its bytes that lies inside the memory it
names, and changes no other byte and no other field; one read delivers the byte (log 10) and changes nothing else. -/
def Obligations.GuestWritesFallBeforeAnAccess : Prop :=
  (∀ s : State, s.guestSched = [] → tick s = s)
  ∧ (∀ (s : State) (as : List GuestAccess) (rest : List (List GuestAccess)), s.guestSched = as :: rest →
      tick s = as.foldl applyGuest { s with guestSched := rest }
      ∧ tick s = { s with guestSched := rest, fifo := (tick s).fifo, fb := (tick s).fb, guestReads := (tick s).guestReads }
      ∧ s.guestReads <+: (tick s).guestReads
      ∧ (s.cfg.guestInterleave = false → (tick s).fifo = s.fifo ∧ (tick s).fb = s.fb))
  ∧ (∀ (s : State) (off : Nat) (v : Word), off % 4 = 0 → off + 4 ≤ s.cfg.fifoSize →
      fifoRead32 off s = .ok (Memory.read32 .fifo (tick s).fifo off, tick s)
      ∧ fifoWrite32 off v s = .ok { tick s with fifo := Memory.write32 (tick s).fifo off v })
  ∧ (∀ (s : State) (off : Nat), off < s.cfg.fbSize →
      (∀ (n : Nat) (bs : List Byte) (t : State), fbRead (off + 1) n (tick s) = .ok (bs, t) →
        fbRead off (n + 1) s = .ok (Memory.read .fb (tick s).fb off :: bs, t))
      ∧ ∀ (b : Byte) (bs : List Byte),
        fbWrite off (b :: bs) s = fbWrite (off + 1) bs { tick s with fb := Memory.write (tick s).fb off b })
  ∧ (∀ (s : State) (off n : Nat), off + n ≤ s.cfg.fbSize →
      ∃ (bs : List Byte) (t : State), fbRead off n s = .ok (bs, t) ∧ bs.length = n ∧ t.guestSched = s.guestSched.drop n)
  ∧ (∀ (s : State) (off : Nat) (bs : List Byte), off + bs.length ≤ s.cfg.fbSize →
      ∃ t : State, fbWrite off bs s = .ok t ∧ t.guestSched = s.guestSched.drop bs.length)
  ∧ (∀ (s : State) (w : GuestWrite), s.cfg.guestInterleave = false → applyGuest s (.write w) = s)
  ∧ (∀ (s : State) (a : Nat) (bs : List Byte), s.cfg.guestInterleave = true →
      (Memory.wf s.fifo → ∃ m : Memory, applyGuest s (.write ⟨.fifo, a, bs⟩) = { s with fifo := m } ∧ Memory.wf m
        ∧ ∀ b : Nat, Memory.read .fifo m b
            = if a ≤ b ∧ b < a + bs.length ∧ b < s.cfg.fifoSize then bs.getD (b - a) 0 else Memory.read .fifo s.fifo b)
      ∧ (Memory.wf s.fb → ∃ m : Memory, applyGuest s (.write ⟨.fb, a, bs⟩) = { s with fb := m } ∧ Memory.wf m
        ∧ ∀ b : Nat, Memory.read .fb m b
            = if a ≤ b ∧ b < a + bs.length ∧ b < s.cfg.fbSize then bs.getD (b - a) 0 else Memory.read .fb s.fb b))
  ∧ ∀ (s : State) (a : Nat),
      (a < s.cfg.fifoSize →
        applyGuest s (.read .fifo a) = { s with guestReads := s.guestReads ++ [Memory.read .fifo s.fifo a] })
      ∧ (a < s.cfg.fbSize →
        applyGuest s (.read .fb a) = { s with guestReads := s.guestReads ++ [Memory.read .fb s.fb a] })
      ∧ (s.cfg.fifoSize ≤ a → applyGuest s (.read .fifo a) = s)
      ∧ (s.cfg.fbSize ≤ a → applyGuest s (.read .fb a) = s)
end

