-- ==== Sys2Proof/Laws/Memory.lean ====
section
/-! SUPPORT. Laws of byte memory: every operation keeps the canonical form, a read after a write gives the value
written at its address and the old value elsewhere, and two memories that list the same bytes are equal data. -/

namespace Sys2Proof.Machine

theorem Memory.wf_nil : Memory.wf [] := List.Pairwise.nil

theorem Memory.wf_cons {c : Host.Cell} {m : Memory} : Memory.wf (c :: m) ↔ (∀ d ∈ m, c.1 < d.1) ∧ Memory.wf m :=
  List.pairwise_cons

/-- An address below every listed one is unlisted. -/
theorem Memory.lookup_of_lt {m : Memory} {a : Nat} (h : ∀ d ∈ m, a < d.1) : Memory.lookup m a = none := by
  induction m with
  | nil => rfl
  | cons c m ih =>
    have hc := h c (by simp)
    rw [Memory.lookup, if_neg (by omega)]
    exact ih fun d hd => h d (by simp [hd])

/-- An address nothing has written reads as its power-on byte (R371). -/
theorem Memory.read_of_unlisted {space : Space} {m : Memory} {a : Nat} (h : Memory.lookup m a = none) :
    Memory.read space m a = Memory.unwritten space a := by
  rw [Memory.read, h]

/-- Every entry of a written memory is an old entry or the written one. -/
theorem Memory.mem_write {m : Memory} {a : Nat} {v : Byte} {c : Host.Cell} (h : c ∈ Memory.write m a v) :
    c ∈ m ∨ c = (a, v) := by
  induction m with
  | nil => simp_all [Memory.write]
  | cons d m ih =>
    unfold Memory.write at h
    (repeat' split at h) <;> simp only [List.mem_cons] at h ⊢ <;> tauto

/-- A write keeps the canonical form. -/
theorem Memory.write_wf {m : Memory} (a : Nat) (v : Byte) (hm : Memory.wf m) : Memory.wf (Memory.write m a v) := by
  induction m with
  | nil => exact Memory.wf_cons.2 ⟨by simp, Memory.wf_nil⟩
  | cons d m ih =>
    obtain ⟨h1, h2⟩ := Memory.wf_cons.1 hm
    unfold Memory.write
    split
    · refine Memory.wf_cons.2 ⟨fun e he => ?_, hm⟩
      rcases List.mem_cons.1 he with rfl | he
      · assumption
      · have := h1 e he
        simp only at *
        omega
    · split
      · subst_vars
        exact Memory.wf_cons.2 ⟨h1, h2⟩
      · refine Memory.wf_cons.2 ⟨fun e he => ?_, ih h2⟩
        rcases Memory.mem_write he with he | rfl
        · exact h1 e he
        · simp only
          omega

/-- What a write lists, whatever the form of the memory. -/
theorem Memory.lookup_write (m : Memory) (a : Nat) (v : Byte) (b : Nat) :
    Memory.lookup (Memory.write m a v) b = if b = a then some v else Memory.lookup m b := by
  induction m with
  | nil =>
    simp only [Memory.write, Memory.lookup, eq_comm]
  | cons d m ih =>
    obtain ⟨k, c⟩ := d
    unfold Memory.write
    split
    · simp only [Memory.lookup, eq_comm]
    · split
      · subst_vars
        simp only [Memory.lookup]
        by_cases hb : b = k
        · subst hb; simp
        · rw [if_neg (Ne.symm hb), if_neg hb, if_neg (Ne.symm hb)]
      · simp only [Memory.lookup, ih]
        by_cases hk : k = b
        · subst hk
          rw [if_pos rfl, if_neg (by omega), if_pos rfl]
        · rw [if_neg hk, if_neg hk]

/-- A read after a write (the basic law of the memory). -/
theorem Memory.read_write {space : Space} (m : Memory) (a : Nat) (v : Byte) (b : Nat) :
    Memory.read space (Memory.write m a v) b = if b = a then v else Memory.read space m b := by
  unfold Memory.read
  rw [Memory.lookup_write]
  by_cases h : b = a
  · rw [if_pos h, if_pos h]
  · rw [if_neg h, if_neg h]

/-- Two canonical memories that list the same bytes are equal. -/
theorem Memory.ext_lookup {m n : Memory} (hm : Memory.wf m) (hn : Memory.wf n)
    (h : ∀ a, Memory.lookup m a = Memory.lookup n a) : m = n := by
  induction m generalizing n with
  | nil =>
    cases n with
    | nil => rfl
    | cons d n => simpa [Memory.lookup] using h d.1
  | cons c m ih =>
    obtain ⟨k, b⟩ := c
    obtain ⟨hm1, hm2⟩ := Memory.wf_cons.1 hm
    cases n with
    | nil => simpa [Memory.lookup] using h k
    | cons d n =>
      obtain ⟨k', b'⟩ := d
      obtain ⟨hn1, hn2⟩ := Memory.wf_cons.1 hn
      have hk : k = k' := by
        rcases Nat.lt_trichotomy k k' with hlt | heq | hlt
        · have h1 := h k
          rw [Memory.lookup_of_lt (m := (k', b') :: n) (by
            intro e he
            rcases List.mem_cons.1 he with rfl | he
            · exact hlt
            · have := hn1 e he; simp only at this; omega)] at h1
          simp [Memory.lookup] at h1
        · exact heq
        · have h1 := h k'
          rw [Memory.lookup_of_lt (m := (k, b) :: m) (by
            intro e he
            rcases List.mem_cons.1 he with rfl | he
            · exact hlt
            · have := hm1 e he; simp only at this; omega)] at h1
          simp [Memory.lookup] at h1
      subst hk
      have hb := h k
      simp only [Memory.lookup, if_pos, Option.some.injEq] at hb
      subst hb
      refine congrArg _ (ih hm2 hn2 fun a => ?_)
      have ha := h a
      simp only [Memory.lookup] at ha
      by_cases hk : k = a
      · subst hk
        rw [Memory.lookup_of_lt hm1, Memory.lookup_of_lt hn1]
      · simpa [hk] using ha

theorem Memory.writeBytes_wf {m : Memory} (a : Nat) (bs : List Byte) (hm : Memory.wf m) :
    Memory.wf (Memory.writeBytes m a bs) := by
  induction bs generalizing m a with
  | nil => exact hm
  | cons b bs ih => exact ih _ (Memory.write_wf a b hm)

theorem Memory.writeWithin_wf {size : Nat} {m : Memory} (a : Nat) (bs : List Byte) (hm : Memory.wf m) :
    Memory.wf (Memory.writeWithin size m a bs) := by
  induction bs generalizing m a with
  | nil => exact hm
  | cons b bs ih =>
    unfold Memory.writeWithin
    split
    · exact ih _ (Memory.write_wf a b hm)
    · exact ih _ hm

theorem Memory.write32_wf {m : Memory} (a : Nat) (v : Word) (hm : Memory.wf m) :
    Memory.wf (Memory.write32 m a v) := Memory.writeBytes_wf a _ hm

/-- A read after a write of a byte string. -/
theorem Memory.read_writeBytes {space : Space} (m : Memory) (a : Nat) (bs : List Byte) (b : Nat) :
    Memory.read space (Memory.writeBytes m a bs) b
      = if a ≤ b ∧ b < a + bs.length then bs.getD (b - a) 0 else Memory.read space m b := by
  induction bs generalizing m a with
  | nil => simp [Memory.writeBytes]
  | cons c bs ih =>
    rw [Memory.writeBytes, ih, Memory.read_write]
    simp only [List.length_cons]
    by_cases h1 : a + 1 ≤ b ∧ b < a + 1 + bs.length
    · rw [if_pos h1, if_pos (by omega)]
      obtain ⟨n, hn⟩ : ∃ n, b - a = n + 1 := ⟨b - a - 1, by omega⟩
      rw [hn, show b - (a + 1) = n by omega]
      simp
    · rw [if_neg h1]
      by_cases h2 : b = a
      · subst h2
        rw [if_pos rfl, if_pos (by omega)]
        simp
      · rw [if_neg h2, if_neg (by omega)]

/-- A read after a guest write: the bytes inside the memory are stored, no other byte changes. -/
theorem Memory.read_writeWithin {size : Nat} {space : Space} (m : Memory) (a : Nat) (bs : List Byte) (b : Nat) :
    Memory.read space (Memory.writeWithin size m a bs) b
      = if a ≤ b ∧ b < a + bs.length ∧ b < size then bs.getD (b - a) 0 else Memory.read space m b := by
  induction bs generalizing m a with
  | nil =>
    rw [Memory.writeWithin, if_neg (by simp only [List.length_nil]; omega)]
  | cons c bs ih =>
    rw [Memory.writeWithin, ih]
    simp only [List.length_cons]
    have hr : Memory.read space (if a < size then Memory.write m a c else m) b
        = if b = a ∧ a < size then c else Memory.read space m b := by
      by_cases hs : a < size <;> simp [hs, Memory.read_write]
    rw [hr]
    by_cases h1 : a + 1 ≤ b ∧ b < a + 1 + bs.length ∧ b < size
    · rw [if_pos h1, if_pos (by omega)]
      obtain ⟨n, hn⟩ : ∃ n, b - a = n + 1 := ⟨b - a - 1, by omega⟩
      rw [hn, show b - (a + 1) = n by omega]
      simp
    · rw [if_neg h1]
      by_cases h2 : b = a ∧ a < size
      · obtain ⟨rfl, h2⟩ := h2
        rw [if_pos ⟨rfl, h2⟩, if_pos (by omega)]
        simp
      · rw [if_neg h2, if_neg (by omega)]

theorem byteOf_toNat (w : Word) (k : Nat) : (byteOf w k).toNat = w.toNat / 2 ^ (8 * k) % 256 := by
  simp [byteOf, BitVec.extractLsb'_toNat, Nat.shiftRight_eq_div_pow]

theorem wordOfBytes_toNat (b0 b1 b2 b3 : Byte) :
    (wordOfBytes b0 b1 b2 b3).toNat
      = b0.toNat + 2 ^ 8 * b1.toNat + 2 ^ 16 * b2.toNat + 2 ^ 24 * b3.toNat := by
  have h0 := b0.isLt; have h1 := b1.isLt; have h2 := b2.isLt; have h3 := b3.isLt
  simp only [wordOfBytes, BitVec.toNat_ofNat]
  omega

/-- A word is the little-endian composition of its bytes (`20_memory.md` R60). -/
theorem wordOfBytes_byteOf (w : Word) : wordOfBytes (byteOf w 0) (byteOf w 1) (byteOf w 2) (byteOf w 3) = w := by
  apply BitVec.eq_of_toNat_eq
  rw [wordOfBytes_toNat, byteOf_toNat, byteOf_toNat, byteOf_toNat, byteOf_toNat]
  have := w.isLt
  omega

theorem Memory.read_write32 {space : Space} (m : Memory) (a : Nat) (v : Word) (b : Nat) :
    Memory.read space (Memory.write32 m a v) b
      = if a ≤ b ∧ b < a + 4 then byteOf v (b - a) else Memory.read space m b := by
  rw [Memory.write32, Memory.read_writeBytes, show (bytesOfWord v).length = 4 from rfl]
  by_cases h : a ≤ b ∧ b < a + 4
  · rw [if_pos h, if_pos h]
    obtain h | h | h | h : b - a = 0 ∨ b - a = 1 ∨ b - a = 2 ∨ b - a = 3 := by omega
    all_goals rw [h]; rfl
  · rw [if_neg h, if_neg h]

/-- Read after write of a word at the same address. -/
theorem Memory.read32_write32 {space : Space} (m : Memory) (a : Nat) (v : Word) :
    Memory.read32 space (Memory.write32 m a v) a = v := by
  simp only [Memory.read32, Memory.read_write32]
  rw [if_pos (by omega), if_pos (by omega), if_pos (by omega), if_pos (by omega), Nat.sub_self,
    show a + 1 - a = 1 by omega, show a + 2 - a = 2 by omega, show a + 3 - a = 3 by omega, wordOfBytes_byteOf]

/-- A write of a word leaves every disjoint word alone. -/
theorem Memory.read32_write32_of_disjoint {space : Space} (m : Memory) (a : Nat) (v : Word) (b : Nat)
    (h : b + 4 ≤ a ∨ a + 4 ≤ b) : Memory.read32 space (Memory.write32 m a v) b = Memory.read32 space m b := by
  simp only [Memory.read32, Memory.read_write32]
  rw [if_neg (by omega), if_neg (by omega), if_neg (by omega), if_neg (by omega)]

/-- What a write of a byte string lists. -/
theorem Memory.lookup_writeBytes (m : Memory) (a : Nat) (bs : List Byte) (b : Nat) :
    Memory.lookup (Memory.writeBytes m a bs) b
      = if a ≤ b ∧ b < a + bs.length then some (bs.getD (b - a) 0) else Memory.lookup m b := by
  induction bs generalizing m a with
  | nil => rw [Memory.writeBytes, if_neg (by simp only [List.length_nil]; omega)]
  | cons c bs ih =>
    rw [Memory.writeBytes, ih, Memory.lookup_write]
    simp only [List.length_cons]
    by_cases h1 : a + 1 ≤ b ∧ b < a + 1 + bs.length
    · rw [if_pos h1, if_pos (by omega)]
      obtain ⟨n, hn⟩ : ∃ n, b - a = n + 1 := ⟨b - a - 1, by omega⟩
      rw [hn, show b - (a + 1) = n by omega]
      simp
    · rw [if_neg h1]
      by_cases h2 : b = a
      · subst h2
        rw [if_pos rfl, if_pos (by omega)]
        simp
      · rw [if_neg h2, if_neg (by omega)]

/-- The last of two writes of a word at one address stands. -/
theorem Memory.write32_write32 {m : Memory} (hm : Memory.wf m) (a : Nat) (v w : Word) :
    Memory.write32 (Memory.write32 m a v) a w = Memory.write32 m a w := by
  refine Memory.ext_lookup (Memory.write32_wf _ _ (Memory.write32_wf _ _ hm)) (Memory.write32_wf _ _ hm) fun b => ?_
  simp only [Memory.write32, Memory.lookup_writeBytes, show ∀ u : Word, (bytesOfWord u).length = 4 from fun _ => rfl]
  split <;> rfl

/-- The bytes of the word at an address. -/
theorem Memory.byteOf_read32 {space : Space} (m : Memory) (a : Nat) {k : Nat} (hk : k < 4) :
    byteOf (Memory.read32 space m a) k = Memory.read space m (a + k) := by
  apply BitVec.eq_of_toNat_eq
  have h0 := (Memory.read space m a).isLt; have h1 := (Memory.read space m (a + 1)).isLt
  have h2 := (Memory.read space m (a + 2)).isLt; have h3 := (Memory.read space m (a + 3)).isLt
  rw [byteOf_toNat, Memory.read32, wordOfBytes_toNat]
  obtain rfl | rfl | rfl | rfl : k = 0 ∨ k = 1 ∨ k = 2 ∨ k = 3 := by omega
  · simp only [Nat.add_zero]; omega
  all_goals omega

/-- Writing the word a memory already holds changes no byte. -/
theorem Memory.read_write32_read32 {space : Space} (m : Memory) (a b : Nat) :
    Memory.read space (Memory.write32 m a (Memory.read32 space m a)) b = Memory.read space m b := by
  rw [Memory.read_write32]
  split
  · rw [Memory.byteOf_read32 m a (by omega), show a + (b - a) = b by omega]
  · rfl

end Sys2Proof.Machine
end

