-- ==== Sys2Proof/Laws/State.lean ====
section
/-! SUPPORT. What each named update of the state does to each field: one lemma per field per update. -/

namespace Sys2Proof.Machine

/-! ### `emit` -/

@[simp] theorem emit_cfg (e : OutEvent) (s : State) : (emit e s).cfg = s.cfg := rfl
@[simp] theorem emit_enable (e : OutEvent) (s : State) : (emit e s).enable = s.enable := rfl
@[simp] theorem emit_config (e : OutEvent) (s : State) : (emit e s).config = s.config := rfl
@[simp] theorem emit_width (e : OutEvent) (s : State) : (emit e s).width = s.width := rfl
@[simp] theorem emit_height (e : OutEvent) (s : State) : (emit e s).height = s.height := rfl
@[simp] theorem emit_bpp (e : OutEvent) (s : State) : (emit e s).bpp = s.bpp := rfl
@[simp] theorem emit_pitchlock (e : OutEvent) (s : State) : (emit e s).pitchlock = s.pitchlock := rfl
@[simp] theorem emit_pitchlockCount (e : OutEvent) (s : State) : (emit e s).pitchlockCount = s.pitchlockCount := rfl
@[simp] theorem emit_guestId (e : OutEvent) (s : State) : (emit e s).guestId = s.guestId := rfl
@[simp] theorem emit_displayId (e : OutEvent) (s : State) : (emit e s).displayId = s.displayId := rfl
@[simp] theorem emit_scratch (e : OutEvent) (s : State) : (emit e s).scratch = s.scratch := rfl
@[simp] theorem emit_irqMask (e : OutEvent) (s : State) : (emit e s).irqMask = s.irqMask := rfl
@[simp] theorem emit_irqStatus (e : OutEvent) (s : State) : (emit e s).irqStatus = s.irqStatus := rfl
@[simp] theorem emit_irqLine (e : OutEvent) (s : State) : (emit e s).irqLine = s.irqLine := rfl
@[simp] theorem emit_lastCursorCount (e : OutEvent) (s : State) : (emit e s).lastCursorCount = s.lastCursorCount := rfl
@[simp] theorem emit_index (e : OutEvent) (s : State) : (emit e s).index = s.index := rfl
@[simp] theorem emit_svgaId (e : OutEvent) (s : State) : (emit e s).svgaId = s.svgaId := rfl
@[simp] theorem emit_cursorId (e : OutEvent) (s : State) : (emit e s).cursorId = s.cursorId := rfl
@[simp] theorem emit_cursorX (e : OutEvent) (s : State) : (emit e s).cursorX = s.cursorX := rfl
@[simp] theorem emit_cursorY (e : OutEvent) (s : State) : (emit e s).cursorY = s.cursorY := rfl
@[simp] theorem emit_cursorOn (e : OutEvent) (s : State) : (emit e s).cursorOn = s.cursorOn := rfl
@[simp] theorem emit_syncing (e : OutEvent) (s : State) : (emit e s).syncing = s.syncing := rfl
@[simp] theorem emit_invalidated (e : OutEvent) (s : State) : (emit e s).invalidated = s.invalidated := rfl
@[simp] theorem emit_fifoMin (e : OutEvent) (s : State) : (emit e s).fifoMin = s.fifoMin := rfl
@[simp] theorem emit_fifoMax (e : OutEvent) (s : State) : (emit e s).fifoMax = s.fifoMax := rfl
@[simp] theorem emit_fifoNext (e : OutEvent) (s : State) : (emit e s).fifoNext = s.fifoNext := rfl
@[simp] theorem emit_fifoStop (e : OutEvent) (s : State) : (emit e s).fifoStop = s.fifoStop := rfl
@[simp] theorem emit_queue (e : OutEvent) (s : State) : (emit e s).queue = s.queue := rfl
@[simp] theorem emit_cur (e : OutEvent) (s : State) : (emit e s).cur = s.cur := rfl
@[simp] theorem emit_logged (e : OutEvent) (s : State) : (emit e s).logged = s.logged := rfl
@[simp] theorem emit_out (e : OutEvent) (s : State) : (emit e s).out = s.out ++ [e] := rfl
@[simp] theorem emit_diag (e : OutEvent) (s : State) : (emit e s).diag = s.diag := rfl
@[simp] theorem emit_fifo (e : OutEvent) (s : State) : (emit e s).fifo = s.fifo := rfl
@[simp] theorem emit_fb (e : OutEvent) (s : State) : (emit e s).fb = s.fb := rfl
@[simp] theorem emit_trigger (e : OutEvent) (s : State) : (emit e s).trigger = s.trigger := rfl
@[simp] theorem emit_steps (e : OutEvent) (s : State) : (emit e s).steps = s.steps := rfl
@[simp] theorem emit_progressed (e : OutEvent) (s : State) : (emit e s).progressed = s.progressed := rfl
@[simp] theorem emit_fired (e : OutEvent) (s : State) : (emit e s).fired = s.fired := rfl
@[simp] theorem emit_cmdStart (e : OutEvent) (s : State) : (emit e s).cmdStart = s.cmdStart := rfl
@[simp] theorem emit_rem (e : OutEvent) (s : State) : (emit e s).rem = s.rem := rfl
@[simp] theorem emit_outcome (e : OutEvent) (s : State) : (emit e s).outcome = s.outcome := rfl
@[simp] theorem emit_inputs (e : OutEvent) (s : State) : (emit e s).inputs = s.inputs := rfl
@[simp] theorem emit_guestSched (e : OutEvent) (s : State) : (emit e s).guestSched = s.guestSched := rfl
@[simp] theorem emit_guestReads (e : OutEvent) (s : State) : (emit e s).guestReads = s.guestReads := rfl
@[simp] theorem emit_guestData (e : OutEvent) (s : State) : (emit e s).guestData = s.guestData := rfl
@[simp] theorem emit_draws (e : OutEvent) (s : State) : (emit e s).draws = s.draws := rfl

/-! ### `addDiag` -/

@[simp] theorem addDiag_cfg (d : Diag) (s : State) : (addDiag d s).cfg = s.cfg := rfl
@[simp] theorem addDiag_enable (d : Diag) (s : State) : (addDiag d s).enable = s.enable := rfl
@[simp] theorem addDiag_config (d : Diag) (s : State) : (addDiag d s).config = s.config := rfl
@[simp] theorem addDiag_width (d : Diag) (s : State) : (addDiag d s).width = s.width := rfl
@[simp] theorem addDiag_height (d : Diag) (s : State) : (addDiag d s).height = s.height := rfl
@[simp] theorem addDiag_bpp (d : Diag) (s : State) : (addDiag d s).bpp = s.bpp := rfl
@[simp] theorem addDiag_pitchlock (d : Diag) (s : State) : (addDiag d s).pitchlock = s.pitchlock := rfl
@[simp] theorem addDiag_pitchlockCount (d : Diag) (s : State) : (addDiag d s).pitchlockCount = s.pitchlockCount := rfl
@[simp] theorem addDiag_guestId (d : Diag) (s : State) : (addDiag d s).guestId = s.guestId := rfl
@[simp] theorem addDiag_displayId (d : Diag) (s : State) : (addDiag d s).displayId = s.displayId := rfl
@[simp] theorem addDiag_scratch (d : Diag) (s : State) : (addDiag d s).scratch = s.scratch := rfl
@[simp] theorem addDiag_irqMask (d : Diag) (s : State) : (addDiag d s).irqMask = s.irqMask := rfl
@[simp] theorem addDiag_irqStatus (d : Diag) (s : State) : (addDiag d s).irqStatus = s.irqStatus := rfl
@[simp] theorem addDiag_irqLine (d : Diag) (s : State) : (addDiag d s).irqLine = s.irqLine := rfl
@[simp] theorem addDiag_lastCursorCount (d : Diag) (s : State) : (addDiag d s).lastCursorCount = s.lastCursorCount := rfl
@[simp] theorem addDiag_index (d : Diag) (s : State) : (addDiag d s).index = s.index := rfl
@[simp] theorem addDiag_svgaId (d : Diag) (s : State) : (addDiag d s).svgaId = s.svgaId := rfl
@[simp] theorem addDiag_cursorId (d : Diag) (s : State) : (addDiag d s).cursorId = s.cursorId := rfl
@[simp] theorem addDiag_cursorX (d : Diag) (s : State) : (addDiag d s).cursorX = s.cursorX := rfl
@[simp] theorem addDiag_cursorY (d : Diag) (s : State) : (addDiag d s).cursorY = s.cursorY := rfl
@[simp] theorem addDiag_cursorOn (d : Diag) (s : State) : (addDiag d s).cursorOn = s.cursorOn := rfl
@[simp] theorem addDiag_syncing (d : Diag) (s : State) : (addDiag d s).syncing = s.syncing := rfl
@[simp] theorem addDiag_invalidated (d : Diag) (s : State) : (addDiag d s).invalidated = s.invalidated := rfl
@[simp] theorem addDiag_fifoMin (d : Diag) (s : State) : (addDiag d s).fifoMin = s.fifoMin := rfl
@[simp] theorem addDiag_fifoMax (d : Diag) (s : State) : (addDiag d s).fifoMax = s.fifoMax := rfl
@[simp] theorem addDiag_fifoNext (d : Diag) (s : State) : (addDiag d s).fifoNext = s.fifoNext := rfl
@[simp] theorem addDiag_fifoStop (d : Diag) (s : State) : (addDiag d s).fifoStop = s.fifoStop := rfl
@[simp] theorem addDiag_queue (d : Diag) (s : State) : (addDiag d s).queue = s.queue := rfl
@[simp] theorem addDiag_cur (d : Diag) (s : State) : (addDiag d s).cur = s.cur := rfl
@[simp] theorem addDiag_logged (d : Diag) (s : State) : (addDiag d s).logged = s.logged := rfl
@[simp] theorem addDiag_out (d : Diag) (s : State) : (addDiag d s).out = s.out := rfl
@[simp] theorem addDiag_diag (d : Diag) (s : State) : (addDiag d s).diag = s.diag ++ [d] := rfl
@[simp] theorem addDiag_fifo (d : Diag) (s : State) : (addDiag d s).fifo = s.fifo := rfl
@[simp] theorem addDiag_fb (d : Diag) (s : State) : (addDiag d s).fb = s.fb := rfl
@[simp] theorem addDiag_trigger (d : Diag) (s : State) : (addDiag d s).trigger = s.trigger := rfl
@[simp] theorem addDiag_steps (d : Diag) (s : State) : (addDiag d s).steps = s.steps := rfl
@[simp] theorem addDiag_progressed (d : Diag) (s : State) : (addDiag d s).progressed = s.progressed := rfl
@[simp] theorem addDiag_fired (d : Diag) (s : State) : (addDiag d s).fired = s.fired := rfl
@[simp] theorem addDiag_cmdStart (d : Diag) (s : State) : (addDiag d s).cmdStart = s.cmdStart := rfl
@[simp] theorem addDiag_rem (d : Diag) (s : State) : (addDiag d s).rem = s.rem := rfl
@[simp] theorem addDiag_outcome (d : Diag) (s : State) : (addDiag d s).outcome = s.outcome := rfl
@[simp] theorem addDiag_inputs (d : Diag) (s : State) : (addDiag d s).inputs = s.inputs := rfl
@[simp] theorem addDiag_guestSched (d : Diag) (s : State) : (addDiag d s).guestSched = s.guestSched := rfl
@[simp] theorem addDiag_guestReads (d : Diag) (s : State) : (addDiag d s).guestReads = s.guestReads := rfl
@[simp] theorem addDiag_guestData (d : Diag) (s : State) : (addDiag d s).guestData = s.guestData := rfl
@[simp] theorem addDiag_draws (d : Diag) (s : State) : (addDiag d s).draws = s.draws := rfl

/-! ### `returnData` -/

@[simp] theorem returnData_cfg (v : Word) (s : State) : (returnData v s).cfg = s.cfg := rfl
@[simp] theorem returnData_enable (v : Word) (s : State) : (returnData v s).enable = s.enable := rfl
@[simp] theorem returnData_config (v : Word) (s : State) : (returnData v s).config = s.config := rfl
@[simp] theorem returnData_width (v : Word) (s : State) : (returnData v s).width = s.width := rfl
@[simp] theorem returnData_height (v : Word) (s : State) : (returnData v s).height = s.height := rfl
@[simp] theorem returnData_bpp (v : Word) (s : State) : (returnData v s).bpp = s.bpp := rfl
@[simp] theorem returnData_pitchlock (v : Word) (s : State) : (returnData v s).pitchlock = s.pitchlock := rfl
@[simp] theorem returnData_pitchlockCount (v : Word) (s : State) : (returnData v s).pitchlockCount = s.pitchlockCount := rfl
@[simp] theorem returnData_guestId (v : Word) (s : State) : (returnData v s).guestId = s.guestId := rfl
@[simp] theorem returnData_displayId (v : Word) (s : State) : (returnData v s).displayId = s.displayId := rfl
@[simp] theorem returnData_scratch (v : Word) (s : State) : (returnData v s).scratch = s.scratch := rfl
@[simp] theorem returnData_irqMask (v : Word) (s : State) : (returnData v s).irqMask = s.irqMask := rfl
@[simp] theorem returnData_irqStatus (v : Word) (s : State) : (returnData v s).irqStatus = s.irqStatus := rfl
@[simp] theorem returnData_irqLine (v : Word) (s : State) : (returnData v s).irqLine = s.irqLine := rfl
@[simp] theorem returnData_lastCursorCount (v : Word) (s : State) : (returnData v s).lastCursorCount = s.lastCursorCount := rfl
@[simp] theorem returnData_index (v : Word) (s : State) : (returnData v s).index = s.index := rfl
@[simp] theorem returnData_svgaId (v : Word) (s : State) : (returnData v s).svgaId = s.svgaId := rfl
@[simp] theorem returnData_cursorId (v : Word) (s : State) : (returnData v s).cursorId = s.cursorId := rfl
@[simp] theorem returnData_cursorX (v : Word) (s : State) : (returnData v s).cursorX = s.cursorX := rfl
@[simp] theorem returnData_cursorY (v : Word) (s : State) : (returnData v s).cursorY = s.cursorY := rfl
@[simp] theorem returnData_cursorOn (v : Word) (s : State) : (returnData v s).cursorOn = s.cursorOn := rfl
@[simp] theorem returnData_syncing (v : Word) (s : State) : (returnData v s).syncing = s.syncing := rfl
@[simp] theorem returnData_invalidated (v : Word) (s : State) : (returnData v s).invalidated = s.invalidated := rfl
@[simp] theorem returnData_fifoMin (v : Word) (s : State) : (returnData v s).fifoMin = s.fifoMin := rfl
@[simp] theorem returnData_fifoMax (v : Word) (s : State) : (returnData v s).fifoMax = s.fifoMax := rfl
@[simp] theorem returnData_fifoNext (v : Word) (s : State) : (returnData v s).fifoNext = s.fifoNext := rfl
@[simp] theorem returnData_fifoStop (v : Word) (s : State) : (returnData v s).fifoStop = s.fifoStop := rfl
@[simp] theorem returnData_queue (v : Word) (s : State) : (returnData v s).queue = s.queue := rfl
@[simp] theorem returnData_cur (v : Word) (s : State) : (returnData v s).cur = s.cur := rfl
@[simp] theorem returnData_logged (v : Word) (s : State) : (returnData v s).logged = s.logged := rfl
@[simp] theorem returnData_out (v : Word) (s : State) : (returnData v s).out = s.out := rfl
@[simp] theorem returnData_diag (v : Word) (s : State) : (returnData v s).diag = s.diag := rfl
@[simp] theorem returnData_fifo (v : Word) (s : State) : (returnData v s).fifo = s.fifo := rfl
@[simp] theorem returnData_fb (v : Word) (s : State) : (returnData v s).fb = s.fb := rfl
@[simp] theorem returnData_trigger (v : Word) (s : State) : (returnData v s).trigger = s.trigger := rfl
@[simp] theorem returnData_steps (v : Word) (s : State) : (returnData v s).steps = s.steps := rfl
@[simp] theorem returnData_progressed (v : Word) (s : State) : (returnData v s).progressed = s.progressed := rfl
@[simp] theorem returnData_fired (v : Word) (s : State) : (returnData v s).fired = s.fired := rfl
@[simp] theorem returnData_cmdStart (v : Word) (s : State) : (returnData v s).cmdStart = s.cmdStart := rfl
@[simp] theorem returnData_rem (v : Word) (s : State) : (returnData v s).rem = s.rem := rfl
@[simp] theorem returnData_outcome (v : Word) (s : State) : (returnData v s).outcome = s.outcome := rfl
@[simp] theorem returnData_inputs (v : Word) (s : State) : (returnData v s).inputs = s.inputs := rfl
@[simp] theorem returnData_guestSched (v : Word) (s : State) : (returnData v s).guestSched = s.guestSched := rfl
@[simp] theorem returnData_guestReads (v : Word) (s : State) : (returnData v s).guestReads = s.guestReads := rfl
@[simp] theorem returnData_guestData (v : Word) (s : State) : (returnData v s).guestData = v := rfl
@[simp] theorem returnData_draws (v : Word) (s : State) : (returnData v s).draws = s.draws := rfl

/-! ### `setOutcome` -/

@[simp] theorem setOutcome_cfg (o : CommandOutcome) (s : State) : (setOutcome o s).cfg = s.cfg := rfl
@[simp] theorem setOutcome_enable (o : CommandOutcome) (s : State) : (setOutcome o s).enable = s.enable := rfl
@[simp] theorem setOutcome_config (o : CommandOutcome) (s : State) : (setOutcome o s).config = s.config := rfl
@[simp] theorem setOutcome_width (o : CommandOutcome) (s : State) : (setOutcome o s).width = s.width := rfl
@[simp] theorem setOutcome_height (o : CommandOutcome) (s : State) : (setOutcome o s).height = s.height := rfl
@[simp] theorem setOutcome_bpp (o : CommandOutcome) (s : State) : (setOutcome o s).bpp = s.bpp := rfl
@[simp] theorem setOutcome_pitchlock (o : CommandOutcome) (s : State) : (setOutcome o s).pitchlock = s.pitchlock := rfl
@[simp] theorem setOutcome_pitchlockCount (o : CommandOutcome) (s : State) : (setOutcome o s).pitchlockCount = s.pitchlockCount := rfl
@[simp] theorem setOutcome_guestId (o : CommandOutcome) (s : State) : (setOutcome o s).guestId = s.guestId := rfl
@[simp] theorem setOutcome_displayId (o : CommandOutcome) (s : State) : (setOutcome o s).displayId = s.displayId := rfl
@[simp] theorem setOutcome_scratch (o : CommandOutcome) (s : State) : (setOutcome o s).scratch = s.scratch := rfl
@[simp] theorem setOutcome_irqMask (o : CommandOutcome) (s : State) : (setOutcome o s).irqMask = s.irqMask := rfl
@[simp] theorem setOutcome_irqStatus (o : CommandOutcome) (s : State) : (setOutcome o s).irqStatus = s.irqStatus := rfl
@[simp] theorem setOutcome_irqLine (o : CommandOutcome) (s : State) : (setOutcome o s).irqLine = s.irqLine := rfl
@[simp] theorem setOutcome_lastCursorCount (o : CommandOutcome) (s : State) : (setOutcome o s).lastCursorCount = s.lastCursorCount := rfl
@[simp] theorem setOutcome_index (o : CommandOutcome) (s : State) : (setOutcome o s).index = s.index := rfl
@[simp] theorem setOutcome_svgaId (o : CommandOutcome) (s : State) : (setOutcome o s).svgaId = s.svgaId := rfl
@[simp] theorem setOutcome_cursorId (o : CommandOutcome) (s : State) : (setOutcome o s).cursorId = s.cursorId := rfl
@[simp] theorem setOutcome_cursorX (o : CommandOutcome) (s : State) : (setOutcome o s).cursorX = s.cursorX := rfl
@[simp] theorem setOutcome_cursorY (o : CommandOutcome) (s : State) : (setOutcome o s).cursorY = s.cursorY := rfl
@[simp] theorem setOutcome_cursorOn (o : CommandOutcome) (s : State) : (setOutcome o s).cursorOn = s.cursorOn := rfl
@[simp] theorem setOutcome_syncing (o : CommandOutcome) (s : State) : (setOutcome o s).syncing = s.syncing := rfl
@[simp] theorem setOutcome_invalidated (o : CommandOutcome) (s : State) : (setOutcome o s).invalidated = s.invalidated := rfl
@[simp] theorem setOutcome_fifoMin (o : CommandOutcome) (s : State) : (setOutcome o s).fifoMin = s.fifoMin := rfl
@[simp] theorem setOutcome_fifoMax (o : CommandOutcome) (s : State) : (setOutcome o s).fifoMax = s.fifoMax := rfl
@[simp] theorem setOutcome_fifoNext (o : CommandOutcome) (s : State) : (setOutcome o s).fifoNext = s.fifoNext := rfl
@[simp] theorem setOutcome_fifoStop (o : CommandOutcome) (s : State) : (setOutcome o s).fifoStop = s.fifoStop := rfl
@[simp] theorem setOutcome_queue (o : CommandOutcome) (s : State) : (setOutcome o s).queue = s.queue := rfl
@[simp] theorem setOutcome_cur (o : CommandOutcome) (s : State) : (setOutcome o s).cur = s.cur := rfl
@[simp] theorem setOutcome_logged (o : CommandOutcome) (s : State) : (setOutcome o s).logged = s.logged := rfl
@[simp] theorem setOutcome_out (o : CommandOutcome) (s : State) : (setOutcome o s).out = s.out := rfl
@[simp] theorem setOutcome_diag (o : CommandOutcome) (s : State) : (setOutcome o s).diag = s.diag := rfl
@[simp] theorem setOutcome_fifo (o : CommandOutcome) (s : State) : (setOutcome o s).fifo = s.fifo := rfl
@[simp] theorem setOutcome_fb (o : CommandOutcome) (s : State) : (setOutcome o s).fb = s.fb := rfl
@[simp] theorem setOutcome_trigger (o : CommandOutcome) (s : State) : (setOutcome o s).trigger = s.trigger := rfl
@[simp] theorem setOutcome_steps (o : CommandOutcome) (s : State) : (setOutcome o s).steps = s.steps := rfl
@[simp] theorem setOutcome_progressed (o : CommandOutcome) (s : State) : (setOutcome o s).progressed = s.progressed := rfl
@[simp] theorem setOutcome_fired (o : CommandOutcome) (s : State) : (setOutcome o s).fired = s.fired := rfl
@[simp] theorem setOutcome_cmdStart (o : CommandOutcome) (s : State) : (setOutcome o s).cmdStart = s.cmdStart := rfl
@[simp] theorem setOutcome_rem (o : CommandOutcome) (s : State) : (setOutcome o s).rem = s.rem := rfl
@[simp] theorem setOutcome_outcome (o : CommandOutcome) (s : State) : (setOutcome o s).outcome = some o := rfl
@[simp] theorem setOutcome_inputs (o : CommandOutcome) (s : State) : (setOutcome o s).inputs = s.inputs := rfl
@[simp] theorem setOutcome_guestSched (o : CommandOutcome) (s : State) : (setOutcome o s).guestSched = s.guestSched := rfl
@[simp] theorem setOutcome_guestReads (o : CommandOutcome) (s : State) : (setOutcome o s).guestReads = s.guestReads := rfl
@[simp] theorem setOutcome_guestData (o : CommandOutcome) (s : State) : (setOutcome o s).guestData = s.guestData := rfl
@[simp] theorem setOutcome_draws (o : CommandOutcome) (s : State) : (setOutcome o s).draws = s.draws := rfl

/-! ### `startInvocation` -/

@[simp] theorem startInvocation_cfg (t : Trigger) (s : State) : (startInvocation t s).cfg = s.cfg := rfl
@[simp] theorem startInvocation_enable (t : Trigger) (s : State) : (startInvocation t s).enable = s.enable := rfl
@[simp] theorem startInvocation_config (t : Trigger) (s : State) : (startInvocation t s).config = s.config := rfl
@[simp] theorem startInvocation_width (t : Trigger) (s : State) : (startInvocation t s).width = s.width := rfl
@[simp] theorem startInvocation_height (t : Trigger) (s : State) : (startInvocation t s).height = s.height := rfl
@[simp] theorem startInvocation_bpp (t : Trigger) (s : State) : (startInvocation t s).bpp = s.bpp := rfl
@[simp] theorem startInvocation_pitchlock (t : Trigger) (s : State) : (startInvocation t s).pitchlock = s.pitchlock := rfl
@[simp] theorem startInvocation_pitchlockCount (t : Trigger) (s : State) : (startInvocation t s).pitchlockCount = s.pitchlockCount := rfl
@[simp] theorem startInvocation_guestId (t : Trigger) (s : State) : (startInvocation t s).guestId = s.guestId := rfl
@[simp] theorem startInvocation_displayId (t : Trigger) (s : State) : (startInvocation t s).displayId = s.displayId := rfl
@[simp] theorem startInvocation_scratch (t : Trigger) (s : State) : (startInvocation t s).scratch = s.scratch := rfl
@[simp] theorem startInvocation_irqMask (t : Trigger) (s : State) : (startInvocation t s).irqMask = s.irqMask := rfl
@[simp] theorem startInvocation_irqStatus (t : Trigger) (s : State) : (startInvocation t s).irqStatus = s.irqStatus := rfl
@[simp] theorem startInvocation_irqLine (t : Trigger) (s : State) : (startInvocation t s).irqLine = s.irqLine := rfl
@[simp] theorem startInvocation_lastCursorCount (t : Trigger) (s : State) : (startInvocation t s).lastCursorCount = s.lastCursorCount := rfl
@[simp] theorem startInvocation_index (t : Trigger) (s : State) : (startInvocation t s).index = s.index := rfl
@[simp] theorem startInvocation_svgaId (t : Trigger) (s : State) : (startInvocation t s).svgaId = s.svgaId := rfl
@[simp] theorem startInvocation_cursorId (t : Trigger) (s : State) : (startInvocation t s).cursorId = s.cursorId := rfl
@[simp] theorem startInvocation_cursorX (t : Trigger) (s : State) : (startInvocation t s).cursorX = s.cursorX := rfl
@[simp] theorem startInvocation_cursorY (t : Trigger) (s : State) : (startInvocation t s).cursorY = s.cursorY := rfl
@[simp] theorem startInvocation_cursorOn (t : Trigger) (s : State) : (startInvocation t s).cursorOn = s.cursorOn := rfl
@[simp] theorem startInvocation_syncing (t : Trigger) (s : State) : (startInvocation t s).syncing = s.syncing := rfl
@[simp] theorem startInvocation_invalidated (t : Trigger) (s : State) : (startInvocation t s).invalidated = s.invalidated := rfl
@[simp] theorem startInvocation_fifoMin (t : Trigger) (s : State) : (startInvocation t s).fifoMin = s.fifoMin := rfl
@[simp] theorem startInvocation_fifoMax (t : Trigger) (s : State) : (startInvocation t s).fifoMax = s.fifoMax := rfl
@[simp] theorem startInvocation_fifoNext (t : Trigger) (s : State) : (startInvocation t s).fifoNext = s.fifoNext := rfl
@[simp] theorem startInvocation_fifoStop (t : Trigger) (s : State) : (startInvocation t s).fifoStop = s.fifoStop := rfl
@[simp] theorem startInvocation_queue (t : Trigger) (s : State) : (startInvocation t s).queue = s.queue := rfl
@[simp] theorem startInvocation_cur (t : Trigger) (s : State) : (startInvocation t s).cur = s.cur := rfl
@[simp] theorem startInvocation_logged (t : Trigger) (s : State) : (startInvocation t s).logged = s.logged := rfl
@[simp] theorem startInvocation_out (t : Trigger) (s : State) : (startInvocation t s).out = s.out := rfl
@[simp] theorem startInvocation_diag (t : Trigger) (s : State) : (startInvocation t s).diag = s.diag := rfl
@[simp] theorem startInvocation_fifo (t : Trigger) (s : State) : (startInvocation t s).fifo = s.fifo := rfl
@[simp] theorem startInvocation_fb (t : Trigger) (s : State) : (startInvocation t s).fb = s.fb := rfl
@[simp] theorem startInvocation_trigger (t : Trigger) (s : State) : (startInvocation t s).trigger = some t := rfl
@[simp] theorem startInvocation_steps (t : Trigger) (s : State) : (startInvocation t s).steps = 0 := rfl
@[simp] theorem startInvocation_progressed (t : Trigger) (s : State) : (startInvocation t s).progressed = false := rfl
@[simp] theorem startInvocation_fired (t : Trigger) (s : State) : (startInvocation t s).fired = false := rfl
@[simp] theorem startInvocation_cmdStart (t : Trigger) (s : State) : (startInvocation t s).cmdStart = s.cmdStart := rfl
@[simp] theorem startInvocation_rem (t : Trigger) (s : State) : (startInvocation t s).rem = s.rem := rfl
@[simp] theorem startInvocation_outcome (t : Trigger) (s : State) : (startInvocation t s).outcome = s.outcome := rfl
@[simp] theorem startInvocation_inputs (t : Trigger) (s : State) : (startInvocation t s).inputs = s.inputs := rfl
@[simp] theorem startInvocation_guestSched (t : Trigger) (s : State) : (startInvocation t s).guestSched = s.guestSched := rfl
@[simp] theorem startInvocation_guestReads (t : Trigger) (s : State) : (startInvocation t s).guestReads = s.guestReads := rfl
@[simp] theorem startInvocation_guestData (t : Trigger) (s : State) : (startInvocation t s).guestData = s.guestData := rfl
@[simp] theorem startInvocation_draws (t : Trigger) (s : State) : (startInvocation t s).draws = s.draws := rfl

/-! ### `flush` -/

@[simp] theorem flush_cfg (s : State) : (flush s).cfg = s.cfg := rfl
@[simp] theorem flush_enable (s : State) : (flush s).enable = s.enable := rfl
@[simp] theorem flush_config (s : State) : (flush s).config = s.config := rfl
@[simp] theorem flush_width (s : State) : (flush s).width = s.width := rfl
@[simp] theorem flush_height (s : State) : (flush s).height = s.height := rfl
@[simp] theorem flush_bpp (s : State) : (flush s).bpp = s.bpp := rfl
@[simp] theorem flush_pitchlock (s : State) : (flush s).pitchlock = s.pitchlock := rfl
@[simp] theorem flush_pitchlockCount (s : State) : (flush s).pitchlockCount = s.pitchlockCount := rfl
@[simp] theorem flush_guestId (s : State) : (flush s).guestId = s.guestId := rfl
@[simp] theorem flush_displayId (s : State) : (flush s).displayId = s.displayId := rfl
@[simp] theorem flush_scratch (s : State) : (flush s).scratch = s.scratch := rfl
@[simp] theorem flush_irqMask (s : State) : (flush s).irqMask = s.irqMask := rfl
@[simp] theorem flush_irqStatus (s : State) : (flush s).irqStatus = s.irqStatus := rfl
@[simp] theorem flush_irqLine (s : State) : (flush s).irqLine = s.irqLine := rfl
@[simp] theorem flush_lastCursorCount (s : State) : (flush s).lastCursorCount = s.lastCursorCount := rfl
@[simp] theorem flush_index (s : State) : (flush s).index = s.index := rfl
@[simp] theorem flush_svgaId (s : State) : (flush s).svgaId = s.svgaId := rfl
@[simp] theorem flush_cursorId (s : State) : (flush s).cursorId = s.cursorId := rfl
@[simp] theorem flush_cursorX (s : State) : (flush s).cursorX = s.cursorX := rfl
@[simp] theorem flush_cursorY (s : State) : (flush s).cursorY = s.cursorY := rfl
@[simp] theorem flush_cursorOn (s : State) : (flush s).cursorOn = s.cursorOn := rfl
@[simp] theorem flush_syncing (s : State) : (flush s).syncing = s.syncing := rfl
@[simp] theorem flush_invalidated (s : State) : (flush s).invalidated = s.invalidated := rfl
@[simp] theorem flush_fifoMin (s : State) : (flush s).fifoMin = s.fifoMin := rfl
@[simp] theorem flush_fifoMax (s : State) : (flush s).fifoMax = s.fifoMax := rfl
@[simp] theorem flush_fifoNext (s : State) : (flush s).fifoNext = s.fifoNext := rfl
@[simp] theorem flush_fifoStop (s : State) : (flush s).fifoStop = s.fifoStop := rfl
@[simp] theorem flush_queue (s : State) : (flush s).queue = [] := rfl
@[simp] theorem flush_cur (s : State) : (flush s).cur = s.cur := rfl
@[simp] theorem flush_logged (s : State) : (flush s).logged = s.logged := rfl
@[simp] theorem flush_out (s : State) : (flush s).out = if s.invalidated then s.out else s.out ++ s.queue.map updateEvent := rfl
@[simp] theorem flush_diag (s : State) : (flush s).diag = s.diag := rfl
@[simp] theorem flush_fifo (s : State) : (flush s).fifo = s.fifo := rfl
@[simp] theorem flush_fb (s : State) : (flush s).fb = s.fb := rfl
@[simp] theorem flush_trigger (s : State) : (flush s).trigger = s.trigger := rfl
@[simp] theorem flush_steps (s : State) : (flush s).steps = s.steps := rfl
@[simp] theorem flush_progressed (s : State) : (flush s).progressed = s.progressed := rfl
@[simp] theorem flush_fired (s : State) : (flush s).fired = s.fired := rfl
@[simp] theorem flush_cmdStart (s : State) : (flush s).cmdStart = s.cmdStart := rfl
@[simp] theorem flush_rem (s : State) : (flush s).rem = s.rem := rfl
@[simp] theorem flush_outcome (s : State) : (flush s).outcome = s.outcome := rfl
@[simp] theorem flush_inputs (s : State) : (flush s).inputs = s.inputs := rfl
@[simp] theorem flush_guestSched (s : State) : (flush s).guestSched = s.guestSched := rfl
@[simp] theorem flush_guestReads (s : State) : (flush s).guestReads = s.guestReads := rfl
@[simp] theorem flush_guestData (s : State) : (flush s).guestData = s.guestData := rfl
@[simp] theorem flush_draws (s : State) : (flush s).draws = s.draws := rfl

/-! ### guest accesses -/

/-- A guest write changes nothing but the two memories (R76). -/
theorem storeGuest_frame (s : State) (w : GuestWrite) :
    storeGuest s w = { s with fifo := (storeGuest s w).fifo, fb := (storeGuest s w).fb } := by
  unfold storeGuest; split <;> rfl

/-- A guest access changes nothing but the two memories and the record of the guest's reads (R37, R76). -/
theorem applyGuest_frame (s : State) (a : GuestAccess) :
    applyGuest s a
      = { s with fifo := (applyGuest s a).fifo, fb := (applyGuest s a).fb, guestReads := (applyGuest s a).guestReads } := by
  unfold applyGuest
  split
  · split
    · rw [storeGuest_frame]
    · rfl
  · split <;> rfl

@[simp] theorem applyGuest_cfg (s : State) (a : GuestAccess) : (applyGuest s a).cfg = s.cfg := by rw [applyGuest_frame]
@[simp] theorem applyGuest_enable (s : State) (a : GuestAccess) : (applyGuest s a).enable = s.enable := by rw [applyGuest_frame]
@[simp] theorem applyGuest_config (s : State) (a : GuestAccess) : (applyGuest s a).config = s.config := by rw [applyGuest_frame]
@[simp] theorem applyGuest_width (s : State) (a : GuestAccess) : (applyGuest s a).width = s.width := by rw [applyGuest_frame]
@[simp] theorem applyGuest_height (s : State) (a : GuestAccess) : (applyGuest s a).height = s.height := by rw [applyGuest_frame]
@[simp] theorem applyGuest_bpp (s : State) (a : GuestAccess) : (applyGuest s a).bpp = s.bpp := by rw [applyGuest_frame]
@[simp] theorem applyGuest_pitchlock (s : State) (a : GuestAccess) : (applyGuest s a).pitchlock = s.pitchlock := by rw [applyGuest_frame]
@[simp] theorem applyGuest_pitchlockCount (s : State) (a : GuestAccess) : (applyGuest s a).pitchlockCount = s.pitchlockCount := by rw [applyGuest_frame]
@[simp] theorem applyGuest_guestId (s : State) (a : GuestAccess) : (applyGuest s a).guestId = s.guestId := by rw [applyGuest_frame]
@[simp] theorem applyGuest_displayId (s : State) (a : GuestAccess) : (applyGuest s a).displayId = s.displayId := by rw [applyGuest_frame]
@[simp] theorem applyGuest_scratch (s : State) (a : GuestAccess) : (applyGuest s a).scratch = s.scratch := by rw [applyGuest_frame]
@[simp] theorem applyGuest_irqMask (s : State) (a : GuestAccess) : (applyGuest s a).irqMask = s.irqMask := by rw [applyGuest_frame]
@[simp] theorem applyGuest_irqStatus (s : State) (a : GuestAccess) : (applyGuest s a).irqStatus = s.irqStatus := by rw [applyGuest_frame]
@[simp] theorem applyGuest_irqLine (s : State) (a : GuestAccess) : (applyGuest s a).irqLine = s.irqLine := by rw [applyGuest_frame]
@[simp] theorem applyGuest_lastCursorCount (s : State) (a : GuestAccess) : (applyGuest s a).lastCursorCount = s.lastCursorCount := by rw [applyGuest_frame]
@[simp] theorem applyGuest_index (s : State) (a : GuestAccess) : (applyGuest s a).index = s.index := by rw [applyGuest_frame]
@[simp] theorem applyGuest_svgaId (s : State) (a : GuestAccess) : (applyGuest s a).svgaId = s.svgaId := by rw [applyGuest_frame]
@[simp] theorem applyGuest_cursorId (s : State) (a : GuestAccess) : (applyGuest s a).cursorId = s.cursorId := by rw [applyGuest_frame]
@[simp] theorem applyGuest_cursorX (s : State) (a : GuestAccess) : (applyGuest s a).cursorX = s.cursorX := by rw [applyGuest_frame]
@[simp] theorem applyGuest_cursorY (s : State) (a : GuestAccess) : (applyGuest s a).cursorY = s.cursorY := by rw [applyGuest_frame]
@[simp] theorem applyGuest_cursorOn (s : State) (a : GuestAccess) : (applyGuest s a).cursorOn = s.cursorOn := by rw [applyGuest_frame]
@[simp] theorem applyGuest_syncing (s : State) (a : GuestAccess) : (applyGuest s a).syncing = s.syncing := by rw [applyGuest_frame]
@[simp] theorem applyGuest_invalidated (s : State) (a : GuestAccess) : (applyGuest s a).invalidated = s.invalidated := by rw [applyGuest_frame]
@[simp] theorem applyGuest_fifoMin (s : State) (a : GuestAccess) : (applyGuest s a).fifoMin = s.fifoMin := by rw [applyGuest_frame]
@[simp] theorem applyGuest_fifoMax (s : State) (a : GuestAccess) : (applyGuest s a).fifoMax = s.fifoMax := by rw [applyGuest_frame]
@[simp] theorem applyGuest_fifoNext (s : State) (a : GuestAccess) : (applyGuest s a).fifoNext = s.fifoNext := by rw [applyGuest_frame]
@[simp] theorem applyGuest_fifoStop (s : State) (a : GuestAccess) : (applyGuest s a).fifoStop = s.fifoStop := by rw [applyGuest_frame]
@[simp] theorem applyGuest_queue (s : State) (a : GuestAccess) : (applyGuest s a).queue = s.queue := by rw [applyGuest_frame]
@[simp] theorem applyGuest_cur (s : State) (a : GuestAccess) : (applyGuest s a).cur = s.cur := by rw [applyGuest_frame]
@[simp] theorem applyGuest_logged (s : State) (a : GuestAccess) : (applyGuest s a).logged = s.logged := by rw [applyGuest_frame]
@[simp] theorem applyGuest_out (s : State) (a : GuestAccess) : (applyGuest s a).out = s.out := by rw [applyGuest_frame]
@[simp] theorem applyGuest_diag (s : State) (a : GuestAccess) : (applyGuest s a).diag = s.diag := by rw [applyGuest_frame]
@[simp] theorem applyGuest_trigger (s : State) (a : GuestAccess) : (applyGuest s a).trigger = s.trigger := by rw [applyGuest_frame]
@[simp] theorem applyGuest_steps (s : State) (a : GuestAccess) : (applyGuest s a).steps = s.steps := by rw [applyGuest_frame]
@[simp] theorem applyGuest_progressed (s : State) (a : GuestAccess) : (applyGuest s a).progressed = s.progressed := by rw [applyGuest_frame]
@[simp] theorem applyGuest_fired (s : State) (a : GuestAccess) : (applyGuest s a).fired = s.fired := by rw [applyGuest_frame]
@[simp] theorem applyGuest_cmdStart (s : State) (a : GuestAccess) : (applyGuest s a).cmdStart = s.cmdStart := by rw [applyGuest_frame]
@[simp] theorem applyGuest_rem (s : State) (a : GuestAccess) : (applyGuest s a).rem = s.rem := by rw [applyGuest_frame]
@[simp] theorem applyGuest_outcome (s : State) (a : GuestAccess) : (applyGuest s a).outcome = s.outcome := by rw [applyGuest_frame]
@[simp] theorem applyGuest_inputs (s : State) (a : GuestAccess) : (applyGuest s a).inputs = s.inputs := by rw [applyGuest_frame]
@[simp] theorem applyGuest_guestSched (s : State) (a : GuestAccess) : (applyGuest s a).guestSched = s.guestSched := by rw [applyGuest_frame]
@[simp] theorem applyGuest_guestData (s : State) (a : GuestAccess) : (applyGuest s a).guestData = s.guestData := by rw [applyGuest_frame]
@[simp] theorem applyGuest_draws (s : State) (a : GuestAccess) : (applyGuest s a).draws = s.draws := by rw [applyGuest_frame]

/-- A group of guest accesses changes nothing but the two memories and the record of the guest's reads. -/
theorem foldl_applyGuest_frame (as : List GuestAccess) : ∀ s : State,
    as.foldl applyGuest s
      = { s with fifo := (as.foldl applyGuest s).fifo, fb := (as.foldl applyGuest s).fb,
                 guestReads := (as.foldl applyGuest s).guestReads } := by
  induction as with
  | nil => intro s; rfl
  | cons a as ih =>
    intro s
    have h := ih (applyGuest s a)
    simp only [List.foldl_cons]
    rw [h, applyGuest_frame s a]

/-- What lies before an access of the core changes nothing but the two memories, the schedule and the record of the
guest's reads (R37, R76). -/
theorem tick_frame (s : State) :
    tick s = { s with fifo := (tick s).fifo, fb := (tick s).fb, guestSched := (tick s).guestSched,
                      guestReads := (tick s).guestReads } := by
  unfold tick
  split
  · rfl
  · rename_i as rest h
    have h := foldl_applyGuest_frame as { s with guestSched := rest }
    rw [h]

/-! ### `tick` -/

@[simp] theorem tick_cfg (s : State) : (tick s).cfg = s.cfg := by rw [tick_frame]
@[simp] theorem tick_enable (s : State) : (tick s).enable = s.enable := by rw [tick_frame]
@[simp] theorem tick_config (s : State) : (tick s).config = s.config := by rw [tick_frame]
@[simp] theorem tick_width (s : State) : (tick s).width = s.width := by rw [tick_frame]
@[simp] theorem tick_height (s : State) : (tick s).height = s.height := by rw [tick_frame]
@[simp] theorem tick_bpp (s : State) : (tick s).bpp = s.bpp := by rw [tick_frame]
@[simp] theorem tick_pitchlock (s : State) : (tick s).pitchlock = s.pitchlock := by rw [tick_frame]
@[simp] theorem tick_pitchlockCount (s : State) : (tick s).pitchlockCount = s.pitchlockCount := by rw [tick_frame]
@[simp] theorem tick_guestId (s : State) : (tick s).guestId = s.guestId := by rw [tick_frame]
@[simp] theorem tick_displayId (s : State) : (tick s).displayId = s.displayId := by rw [tick_frame]
@[simp] theorem tick_scratch (s : State) : (tick s).scratch = s.scratch := by rw [tick_frame]
@[simp] theorem tick_irqMask (s : State) : (tick s).irqMask = s.irqMask := by rw [tick_frame]
@[simp] theorem tick_irqStatus (s : State) : (tick s).irqStatus = s.irqStatus := by rw [tick_frame]
@[simp] theorem tick_irqLine (s : State) : (tick s).irqLine = s.irqLine := by rw [tick_frame]
@[simp] theorem tick_lastCursorCount (s : State) : (tick s).lastCursorCount = s.lastCursorCount := by rw [tick_frame]
@[simp] theorem tick_index (s : State) : (tick s).index = s.index := by rw [tick_frame]
@[simp] theorem tick_svgaId (s : State) : (tick s).svgaId = s.svgaId := by rw [tick_frame]
@[simp] theorem tick_cursorId (s : State) : (tick s).cursorId = s.cursorId := by rw [tick_frame]
@[simp] theorem tick_cursorX (s : State) : (tick s).cursorX = s.cursorX := by rw [tick_frame]
@[simp] theorem tick_cursorY (s : State) : (tick s).cursorY = s.cursorY := by rw [tick_frame]
@[simp] theorem tick_cursorOn (s : State) : (tick s).cursorOn = s.cursorOn := by rw [tick_frame]
@[simp] theorem tick_syncing (s : State) : (tick s).syncing = s.syncing := by rw [tick_frame]
@[simp] theorem tick_invalidated (s : State) : (tick s).invalidated = s.invalidated := by rw [tick_frame]
@[simp] theorem tick_fifoMin (s : State) : (tick s).fifoMin = s.fifoMin := by rw [tick_frame]
@[simp] theorem tick_fifoMax (s : State) : (tick s).fifoMax = s.fifoMax := by rw [tick_frame]
@[simp] theorem tick_fifoNext (s : State) : (tick s).fifoNext = s.fifoNext := by rw [tick_frame]
@[simp] theorem tick_fifoStop (s : State) : (tick s).fifoStop = s.fifoStop := by rw [tick_frame]
@[simp] theorem tick_queue (s : State) : (tick s).queue = s.queue := by rw [tick_frame]
@[simp] theorem tick_cur (s : State) : (tick s).cur = s.cur := by rw [tick_frame]
@[simp] theorem tick_logged (s : State) : (tick s).logged = s.logged := by rw [tick_frame]
@[simp] theorem tick_out (s : State) : (tick s).out = s.out := by rw [tick_frame]
@[simp] theorem tick_diag (s : State) : (tick s).diag = s.diag := by rw [tick_frame]
@[simp] theorem tick_trigger (s : State) : (tick s).trigger = s.trigger := by rw [tick_frame]
@[simp] theorem tick_steps (s : State) : (tick s).steps = s.steps := by rw [tick_frame]
@[simp] theorem tick_progressed (s : State) : (tick s).progressed = s.progressed := by rw [tick_frame]
@[simp] theorem tick_fired (s : State) : (tick s).fired = s.fired := by rw [tick_frame]
@[simp] theorem tick_cmdStart (s : State) : (tick s).cmdStart = s.cmdStart := by rw [tick_frame]
@[simp] theorem tick_rem (s : State) : (tick s).rem = s.rem := by rw [tick_frame]
@[simp] theorem tick_outcome (s : State) : (tick s).outcome = s.outcome := by rw [tick_frame]
@[simp] theorem tick_inputs (s : State) : (tick s).inputs = s.inputs := by rw [tick_frame]
@[simp] theorem tick_guestData (s : State) : (tick s).guestData = s.guestData := by rw [tick_frame]
@[simp] theorem tick_draws (s : State) : (tick s).draws = s.draws := by rw [tick_frame]

/-! ### `logOnce` -/

@[simp] theorem logOnce_cfg (op : Word) (s : State) : (logOnce op s).cfg = s.cfg := by unfold logOnce; split <;> rfl
@[simp] theorem logOnce_enable (op : Word) (s : State) : (logOnce op s).enable = s.enable := by unfold logOnce; split <;> rfl
@[simp] theorem logOnce_config (op : Word) (s : State) : (logOnce op s).config = s.config := by unfold logOnce; split <;> rfl
@[simp] theorem logOnce_width (op : Word) (s : State) : (logOnce op s).width = s.width := by unfold logOnce; split <;> rfl
@[simp] theorem logOnce_height (op : Word) (s : State) : (logOnce op s).height = s.height := by unfold logOnce; split <;> rfl
@[simp] theorem logOnce_bpp (op : Word) (s : State) : (logOnce op s).bpp = s.bpp := by unfold logOnce; split <;> rfl
@[simp] theorem logOnce_pitchlock (op : Word) (s : State) : (logOnce op s).pitchlock = s.pitchlock := by unfold logOnce; split <;> rfl
@[simp] theorem logOnce_pitchlockCount (op : Word) (s : State) : (logOnce op s).pitchlockCount = s.pitchlockCount := by unfold logOnce; split <;> rfl
@[simp] theorem logOnce_guestId (op : Word) (s : State) : (logOnce op s).guestId = s.guestId := by unfold logOnce; split <;> rfl
@[simp] theorem logOnce_displayId (op : Word) (s : State) : (logOnce op s).displayId = s.displayId := by unfold logOnce; split <;> rfl
@[simp] theorem logOnce_scratch (op : Word) (s : State) : (logOnce op s).scratch = s.scratch := by unfold logOnce; split <;> rfl
@[simp] theorem logOnce_irqMask (op : Word) (s : State) : (logOnce op s).irqMask = s.irqMask := by unfold logOnce; split <;> rfl
@[simp] theorem logOnce_irqStatus (op : Word) (s : State) : (logOnce op s).irqStatus = s.irqStatus := by unfold logOnce; split <;> rfl
@[simp] theorem logOnce_irqLine (op : Word) (s : State) : (logOnce op s).irqLine = s.irqLine := by unfold logOnce; split <;> rfl
@[simp] theorem logOnce_lastCursorCount (op : Word) (s : State) : (logOnce op s).lastCursorCount = s.lastCursorCount := by unfold logOnce; split <;> rfl
@[simp] theorem logOnce_index (op : Word) (s : State) : (logOnce op s).index = s.index := by unfold logOnce; split <;> rfl
@[simp] theorem logOnce_svgaId (op : Word) (s : State) : (logOnce op s).svgaId = s.svgaId := by unfold logOnce; split <;> rfl
@[simp] theorem logOnce_cursorId (op : Word) (s : State) : (logOnce op s).cursorId = s.cursorId := by unfold logOnce; split <;> rfl
@[simp] theorem logOnce_cursorX (op : Word) (s : State) : (logOnce op s).cursorX = s.cursorX := by unfold logOnce; split <;> rfl
@[simp] theorem logOnce_cursorY (op : Word) (s : State) : (logOnce op s).cursorY = s.cursorY := by unfold logOnce; split <;> rfl
@[simp] theorem logOnce_cursorOn (op : Word) (s : State) : (logOnce op s).cursorOn = s.cursorOn := by unfold logOnce; split <;> rfl
@[simp] theorem logOnce_syncing (op : Word) (s : State) : (logOnce op s).syncing = s.syncing := by unfold logOnce; split <;> rfl
@[simp] theorem logOnce_invalidated (op : Word) (s : State) : (logOnce op s).invalidated = s.invalidated := by unfold logOnce; split <;> rfl
@[simp] theorem logOnce_fifoMin (op : Word) (s : State) : (logOnce op s).fifoMin = s.fifoMin := by unfold logOnce; split <;> rfl
@[simp] theorem logOnce_fifoMax (op : Word) (s : State) : (logOnce op s).fifoMax = s.fifoMax := by unfold logOnce; split <;> rfl
@[simp] theorem logOnce_fifoNext (op : Word) (s : State) : (logOnce op s).fifoNext = s.fifoNext := by unfold logOnce; split <;> rfl
@[simp] theorem logOnce_fifoStop (op : Word) (s : State) : (logOnce op s).fifoStop = s.fifoStop := by unfold logOnce; split <;> rfl
@[simp] theorem logOnce_queue (op : Word) (s : State) : (logOnce op s).queue = s.queue := by unfold logOnce; split <;> rfl
@[simp] theorem logOnce_cur (op : Word) (s : State) : (logOnce op s).cur = s.cur := by unfold logOnce; split <;> rfl
@[simp] theorem logOnce_out (op : Word) (s : State) : (logOnce op s).out = s.out := by unfold logOnce; split <;> rfl
@[simp] theorem logOnce_fifo (op : Word) (s : State) : (logOnce op s).fifo = s.fifo := by unfold logOnce; split <;> rfl
@[simp] theorem logOnce_fb (op : Word) (s : State) : (logOnce op s).fb = s.fb := by unfold logOnce; split <;> rfl
@[simp] theorem logOnce_trigger (op : Word) (s : State) : (logOnce op s).trigger = s.trigger := by unfold logOnce; split <;> rfl
@[simp] theorem logOnce_steps (op : Word) (s : State) : (logOnce op s).steps = s.steps := by unfold logOnce; split <;> rfl
@[simp] theorem logOnce_progressed (op : Word) (s : State) : (logOnce op s).progressed = s.progressed := by unfold logOnce; split <;> rfl
@[simp] theorem logOnce_fired (op : Word) (s : State) : (logOnce op s).fired = s.fired := by unfold logOnce; split <;> rfl
@[simp] theorem logOnce_cmdStart (op : Word) (s : State) : (logOnce op s).cmdStart = s.cmdStart := by unfold logOnce; split <;> rfl
@[simp] theorem logOnce_rem (op : Word) (s : State) : (logOnce op s).rem = s.rem := by unfold logOnce; split <;> rfl
@[simp] theorem logOnce_outcome (op : Word) (s : State) : (logOnce op s).outcome = s.outcome := by unfold logOnce; split <;> rfl
@[simp] theorem logOnce_inputs (op : Word) (s : State) : (logOnce op s).inputs = s.inputs := by unfold logOnce; split <;> rfl
@[simp] theorem logOnce_guestSched (op : Word) (s : State) : (logOnce op s).guestSched = s.guestSched := by unfold logOnce; split <;> rfl
@[simp] theorem logOnce_guestReads (op : Word) (s : State) : (logOnce op s).guestReads = s.guestReads := by unfold logOnce; split <;> rfl
@[simp] theorem logOnce_guestData (op : Word) (s : State) : (logOnce op s).guestData = s.guestData := by unfold logOnce; split <;> rfl
@[simp] theorem logOnce_draws (op : Word) (s : State) : (logOnce op s).draws = s.draws := by unfold logOnce; split <;> rfl

/-! ### `skipped` -/

@[simp] theorem skipped_cfg (op : Word) (s : State) : (skipped op s).cfg = s.cfg := by simp [skipped]
@[simp] theorem skipped_enable (op : Word) (s : State) : (skipped op s).enable = s.enable := by simp [skipped]
@[simp] theorem skipped_config (op : Word) (s : State) : (skipped op s).config = s.config := by simp [skipped]
@[simp] theorem skipped_width (op : Word) (s : State) : (skipped op s).width = s.width := by simp [skipped]
@[simp] theorem skipped_height (op : Word) (s : State) : (skipped op s).height = s.height := by simp [skipped]
@[simp] theorem skipped_bpp (op : Word) (s : State) : (skipped op s).bpp = s.bpp := by simp [skipped]
@[simp] theorem skipped_pitchlock (op : Word) (s : State) : (skipped op s).pitchlock = s.pitchlock := by simp [skipped]
@[simp] theorem skipped_pitchlockCount (op : Word) (s : State) : (skipped op s).pitchlockCount = s.pitchlockCount := by simp [skipped]
@[simp] theorem skipped_guestId (op : Word) (s : State) : (skipped op s).guestId = s.guestId := by simp [skipped]
@[simp] theorem skipped_displayId (op : Word) (s : State) : (skipped op s).displayId = s.displayId := by simp [skipped]
@[simp] theorem skipped_scratch (op : Word) (s : State) : (skipped op s).scratch = s.scratch := by simp [skipped]
@[simp] theorem skipped_irqMask (op : Word) (s : State) : (skipped op s).irqMask = s.irqMask := by simp [skipped]
@[simp] theorem skipped_irqStatus (op : Word) (s : State) : (skipped op s).irqStatus = s.irqStatus := by simp [skipped]
@[simp] theorem skipped_irqLine (op : Word) (s : State) : (skipped op s).irqLine = s.irqLine := by simp [skipped]
@[simp] theorem skipped_lastCursorCount (op : Word) (s : State) : (skipped op s).lastCursorCount = s.lastCursorCount := by simp [skipped]
@[simp] theorem skipped_index (op : Word) (s : State) : (skipped op s).index = s.index := by simp [skipped]
@[simp] theorem skipped_svgaId (op : Word) (s : State) : (skipped op s).svgaId = s.svgaId := by simp [skipped]
@[simp] theorem skipped_cursorId (op : Word) (s : State) : (skipped op s).cursorId = s.cursorId := by simp [skipped]
@[simp] theorem skipped_cursorX (op : Word) (s : State) : (skipped op s).cursorX = s.cursorX := by simp [skipped]
@[simp] theorem skipped_cursorY (op : Word) (s : State) : (skipped op s).cursorY = s.cursorY := by simp [skipped]
@[simp] theorem skipped_cursorOn (op : Word) (s : State) : (skipped op s).cursorOn = s.cursorOn := by simp [skipped]
@[simp] theorem skipped_syncing (op : Word) (s : State) : (skipped op s).syncing = s.syncing := by simp [skipped]
@[simp] theorem skipped_invalidated (op : Word) (s : State) : (skipped op s).invalidated = s.invalidated := by simp [skipped]
@[simp] theorem skipped_fifoMin (op : Word) (s : State) : (skipped op s).fifoMin = s.fifoMin := by simp [skipped]
@[simp] theorem skipped_fifoMax (op : Word) (s : State) : (skipped op s).fifoMax = s.fifoMax := by simp [skipped]
@[simp] theorem skipped_fifoNext (op : Word) (s : State) : (skipped op s).fifoNext = s.fifoNext := by simp [skipped]
@[simp] theorem skipped_fifoStop (op : Word) (s : State) : (skipped op s).fifoStop = s.fifoStop := by simp [skipped]
@[simp] theorem skipped_queue (op : Word) (s : State) : (skipped op s).queue = s.queue := by simp [skipped]
@[simp] theorem skipped_cur (op : Word) (s : State) : (skipped op s).cur = s.cur := by simp [skipped]
@[simp] theorem skipped_out (op : Word) (s : State) : (skipped op s).out = s.out := by simp [skipped]
@[simp] theorem skipped_fifo (op : Word) (s : State) : (skipped op s).fifo = s.fifo := by simp [skipped]
@[simp] theorem skipped_fb (op : Word) (s : State) : (skipped op s).fb = s.fb := by simp [skipped]
@[simp] theorem skipped_trigger (op : Word) (s : State) : (skipped op s).trigger = s.trigger := by simp [skipped]
@[simp] theorem skipped_steps (op : Word) (s : State) : (skipped op s).steps = s.steps := by simp [skipped]
@[simp] theorem skipped_progressed (op : Word) (s : State) : (skipped op s).progressed = s.progressed := by simp [skipped]
@[simp] theorem skipped_fired (op : Word) (s : State) : (skipped op s).fired = s.fired := by simp [skipped]
@[simp] theorem skipped_cmdStart (op : Word) (s : State) : (skipped op s).cmdStart = s.cmdStart := by simp [skipped]
@[simp] theorem skipped_rem (op : Word) (s : State) : (skipped op s).rem = s.rem := by simp [skipped]
@[simp] theorem skipped_inputs (op : Word) (s : State) : (skipped op s).inputs = s.inputs := by simp [skipped]
@[simp] theorem skipped_guestSched (op : Word) (s : State) : (skipped op s).guestSched = s.guestSched := by simp [skipped]
@[simp] theorem skipped_guestReads (op : Word) (s : State) : (skipped op s).guestReads = s.guestReads := by simp [skipped]
@[simp] theorem skipped_guestData (op : Word) (s : State) : (skipped op s).guestData = s.guestData := by simp [skipped]
@[simp] theorem skipped_draws (op : Word) (s : State) : (skipped op s).draws = s.draws := by simp [skipped]

/-! ### `irqEvent` -/

@[simp] theorem irqEvent_cfg (bit : Word) (s : State) : (irqEvent bit s).cfg = s.cfg := by unfold irqEvent; (repeat' split) <;> rfl
@[simp] theorem irqEvent_enable (bit : Word) (s : State) : (irqEvent bit s).enable = s.enable := by unfold irqEvent; (repeat' split) <;> rfl
@[simp] theorem irqEvent_config (bit : Word) (s : State) : (irqEvent bit s).config = s.config := by unfold irqEvent; (repeat' split) <;> rfl
@[simp] theorem irqEvent_width (bit : Word) (s : State) : (irqEvent bit s).width = s.width := by unfold irqEvent; (repeat' split) <;> rfl
@[simp] theorem irqEvent_height (bit : Word) (s : State) : (irqEvent bit s).height = s.height := by unfold irqEvent; (repeat' split) <;> rfl
@[simp] theorem irqEvent_bpp (bit : Word) (s : State) : (irqEvent bit s).bpp = s.bpp := by unfold irqEvent; (repeat' split) <;> rfl
@[simp] theorem irqEvent_pitchlock (bit : Word) (s : State) : (irqEvent bit s).pitchlock = s.pitchlock := by unfold irqEvent; (repeat' split) <;> rfl
@[simp] theorem irqEvent_pitchlockCount (bit : Word) (s : State) : (irqEvent bit s).pitchlockCount = s.pitchlockCount := by unfold irqEvent; (repeat' split) <;> rfl
@[simp] theorem irqEvent_guestId (bit : Word) (s : State) : (irqEvent bit s).guestId = s.guestId := by unfold irqEvent; (repeat' split) <;> rfl
@[simp] theorem irqEvent_displayId (bit : Word) (s : State) : (irqEvent bit s).displayId = s.displayId := by unfold irqEvent; (repeat' split) <;> rfl
@[simp] theorem irqEvent_scratch (bit : Word) (s : State) : (irqEvent bit s).scratch = s.scratch := by unfold irqEvent; (repeat' split) <;> rfl
@[simp] theorem irqEvent_irqMask (bit : Word) (s : State) : (irqEvent bit s).irqMask = s.irqMask := by unfold irqEvent; (repeat' split) <;> rfl
@[simp] theorem irqEvent_irqLine (bit : Word) (s : State) : (irqEvent bit s).irqLine = s.irqLine := by unfold irqEvent; (repeat' split) <;> rfl
@[simp] theorem irqEvent_lastCursorCount (bit : Word) (s : State) : (irqEvent bit s).lastCursorCount = s.lastCursorCount := by unfold irqEvent; (repeat' split) <;> rfl
@[simp] theorem irqEvent_index (bit : Word) (s : State) : (irqEvent bit s).index = s.index := by unfold irqEvent; (repeat' split) <;> rfl
@[simp] theorem irqEvent_svgaId (bit : Word) (s : State) : (irqEvent bit s).svgaId = s.svgaId := by unfold irqEvent; (repeat' split) <;> rfl
@[simp] theorem irqEvent_cursorId (bit : Word) (s : State) : (irqEvent bit s).cursorId = s.cursorId := by unfold irqEvent; (repeat' split) <;> rfl
@[simp] theorem irqEvent_cursorX (bit : Word) (s : State) : (irqEvent bit s).cursorX = s.cursorX := by unfold irqEvent; (repeat' split) <;> rfl
@[simp] theorem irqEvent_cursorY (bit : Word) (s : State) : (irqEvent bit s).cursorY = s.cursorY := by unfold irqEvent; (repeat' split) <;> rfl
@[simp] theorem irqEvent_cursorOn (bit : Word) (s : State) : (irqEvent bit s).cursorOn = s.cursorOn := by unfold irqEvent; (repeat' split) <;> rfl
@[simp] theorem irqEvent_syncing (bit : Word) (s : State) : (irqEvent bit s).syncing = s.syncing := by unfold irqEvent; (repeat' split) <;> rfl
@[simp] theorem irqEvent_invalidated (bit : Word) (s : State) : (irqEvent bit s).invalidated = s.invalidated := by unfold irqEvent; (repeat' split) <;> rfl
@[simp] theorem irqEvent_fifoMin (bit : Word) (s : State) : (irqEvent bit s).fifoMin = s.fifoMin := by unfold irqEvent; (repeat' split) <;> rfl
@[simp] theorem irqEvent_fifoMax (bit : Word) (s : State) : (irqEvent bit s).fifoMax = s.fifoMax := by unfold irqEvent; (repeat' split) <;> rfl
@[simp] theorem irqEvent_fifoNext (bit : Word) (s : State) : (irqEvent bit s).fifoNext = s.fifoNext := by unfold irqEvent; (repeat' split) <;> rfl
@[simp] theorem irqEvent_fifoStop (bit : Word) (s : State) : (irqEvent bit s).fifoStop = s.fifoStop := by unfold irqEvent; (repeat' split) <;> rfl
@[simp] theorem irqEvent_queue (bit : Word) (s : State) : (irqEvent bit s).queue = s.queue := by unfold irqEvent; (repeat' split) <;> rfl
@[simp] theorem irqEvent_cur (bit : Word) (s : State) : (irqEvent bit s).cur = s.cur := by unfold irqEvent; (repeat' split) <;> rfl
@[simp] theorem irqEvent_logged (bit : Word) (s : State) : (irqEvent bit s).logged = s.logged := by unfold irqEvent; (repeat' split) <;> rfl
@[simp] theorem irqEvent_out (bit : Word) (s : State) : (irqEvent bit s).out = s.out := by unfold irqEvent; (repeat' split) <;> rfl
@[simp] theorem irqEvent_diag (bit : Word) (s : State) : (irqEvent bit s).diag = s.diag := by unfold irqEvent; (repeat' split) <;> rfl
@[simp] theorem irqEvent_fifo (bit : Word) (s : State) : (irqEvent bit s).fifo = s.fifo := by unfold irqEvent; (repeat' split) <;> rfl
@[simp] theorem irqEvent_fb (bit : Word) (s : State) : (irqEvent bit s).fb = s.fb := by unfold irqEvent; (repeat' split) <;> rfl
@[simp] theorem irqEvent_trigger (bit : Word) (s : State) : (irqEvent bit s).trigger = s.trigger := by unfold irqEvent; (repeat' split) <;> rfl
@[simp] theorem irqEvent_steps (bit : Word) (s : State) : (irqEvent bit s).steps = s.steps := by unfold irqEvent; (repeat' split) <;> rfl
@[simp] theorem irqEvent_progressed (bit : Word) (s : State) : (irqEvent bit s).progressed = s.progressed := by unfold irqEvent; (repeat' split) <;> rfl
@[simp] theorem irqEvent_cmdStart (bit : Word) (s : State) : (irqEvent bit s).cmdStart = s.cmdStart := by unfold irqEvent; (repeat' split) <;> rfl
@[simp] theorem irqEvent_rem (bit : Word) (s : State) : (irqEvent bit s).rem = s.rem := by unfold irqEvent; (repeat' split) <;> rfl
@[simp] theorem irqEvent_outcome (bit : Word) (s : State) : (irqEvent bit s).outcome = s.outcome := by unfold irqEvent; (repeat' split) <;> rfl
@[simp] theorem irqEvent_inputs (bit : Word) (s : State) : (irqEvent bit s).inputs = s.inputs := by unfold irqEvent; (repeat' split) <;> rfl
@[simp] theorem irqEvent_guestSched (bit : Word) (s : State) : (irqEvent bit s).guestSched = s.guestSched := by unfold irqEvent; (repeat' split) <;> rfl
@[simp] theorem irqEvent_guestReads (bit : Word) (s : State) : (irqEvent bit s).guestReads = s.guestReads := by unfold irqEvent; (repeat' split) <;> rfl
@[simp] theorem irqEvent_guestData (bit : Word) (s : State) : (irqEvent bit s).guestData = s.guestData := by unfold irqEvent; (repeat' split) <;> rfl
@[simp] theorem irqEvent_draws (bit : Word) (s : State) : (irqEvent bit s).draws = s.draws := by unfold irqEvent; (repeat' split) <;> rfl

/-! ### `raiseLine` -/

@[simp] theorem raiseLine_cfg (s : State) : (raiseLine s).cfg = s.cfg := by unfold raiseLine; split <;> rfl
@[simp] theorem raiseLine_enable (s : State) : (raiseLine s).enable = s.enable := by unfold raiseLine; split <;> rfl
@[simp] theorem raiseLine_config (s : State) : (raiseLine s).config = s.config := by unfold raiseLine; split <;> rfl
@[simp] theorem raiseLine_width (s : State) : (raiseLine s).width = s.width := by unfold raiseLine; split <;> rfl
@[simp] theorem raiseLine_height (s : State) : (raiseLine s).height = s.height := by unfold raiseLine; split <;> rfl
@[simp] theorem raiseLine_bpp (s : State) : (raiseLine s).bpp = s.bpp := by unfold raiseLine; split <;> rfl
@[simp] theorem raiseLine_pitchlock (s : State) : (raiseLine s).pitchlock = s.pitchlock := by unfold raiseLine; split <;> rfl
@[simp] theorem raiseLine_pitchlockCount (s : State) : (raiseLine s).pitchlockCount = s.pitchlockCount := by unfold raiseLine; split <;> rfl
@[simp] theorem raiseLine_guestId (s : State) : (raiseLine s).guestId = s.guestId := by unfold raiseLine; split <;> rfl
@[simp] theorem raiseLine_displayId (s : State) : (raiseLine s).displayId = s.displayId := by unfold raiseLine; split <;> rfl
@[simp] theorem raiseLine_scratch (s : State) : (raiseLine s).scratch = s.scratch := by unfold raiseLine; split <;> rfl
@[simp] theorem raiseLine_irqMask (s : State) : (raiseLine s).irqMask = s.irqMask := by unfold raiseLine; split <;> rfl
@[simp] theorem raiseLine_irqStatus (s : State) : (raiseLine s).irqStatus = s.irqStatus := by unfold raiseLine; split <;> rfl
@[simp] theorem raiseLine_lastCursorCount (s : State) : (raiseLine s).lastCursorCount = s.lastCursorCount := by unfold raiseLine; split <;> rfl
@[simp] theorem raiseLine_index (s : State) : (raiseLine s).index = s.index := by unfold raiseLine; split <;> rfl
@[simp] theorem raiseLine_svgaId (s : State) : (raiseLine s).svgaId = s.svgaId := by unfold raiseLine; split <;> rfl
@[simp] theorem raiseLine_cursorId (s : State) : (raiseLine s).cursorId = s.cursorId := by unfold raiseLine; split <;> rfl
@[simp] theorem raiseLine_cursorX (s : State) : (raiseLine s).cursorX = s.cursorX := by unfold raiseLine; split <;> rfl
@[simp] theorem raiseLine_cursorY (s : State) : (raiseLine s).cursorY = s.cursorY := by unfold raiseLine; split <;> rfl
@[simp] theorem raiseLine_cursorOn (s : State) : (raiseLine s).cursorOn = s.cursorOn := by unfold raiseLine; split <;> rfl
@[simp] theorem raiseLine_syncing (s : State) : (raiseLine s).syncing = s.syncing := by unfold raiseLine; split <;> rfl
@[simp] theorem raiseLine_invalidated (s : State) : (raiseLine s).invalidated = s.invalidated := by unfold raiseLine; split <;> rfl
@[simp] theorem raiseLine_fifoMin (s : State) : (raiseLine s).fifoMin = s.fifoMin := by unfold raiseLine; split <;> rfl
@[simp] theorem raiseLine_fifoMax (s : State) : (raiseLine s).fifoMax = s.fifoMax := by unfold raiseLine; split <;> rfl
@[simp] theorem raiseLine_fifoNext (s : State) : (raiseLine s).fifoNext = s.fifoNext := by unfold raiseLine; split <;> rfl
@[simp] theorem raiseLine_fifoStop (s : State) : (raiseLine s).fifoStop = s.fifoStop := by unfold raiseLine; split <;> rfl
@[simp] theorem raiseLine_queue (s : State) : (raiseLine s).queue = s.queue := by unfold raiseLine; split <;> rfl
@[simp] theorem raiseLine_cur (s : State) : (raiseLine s).cur = s.cur := by unfold raiseLine; split <;> rfl
@[simp] theorem raiseLine_logged (s : State) : (raiseLine s).logged = s.logged := by unfold raiseLine; split <;> rfl
@[simp] theorem raiseLine_diag (s : State) : (raiseLine s).diag = s.diag := by unfold raiseLine; split <;> rfl
@[simp] theorem raiseLine_fifo (s : State) : (raiseLine s).fifo = s.fifo := by unfold raiseLine; split <;> rfl
@[simp] theorem raiseLine_fb (s : State) : (raiseLine s).fb = s.fb := by unfold raiseLine; split <;> rfl
@[simp] theorem raiseLine_trigger (s : State) : (raiseLine s).trigger = s.trigger := by unfold raiseLine; split <;> rfl
@[simp] theorem raiseLine_steps (s : State) : (raiseLine s).steps = s.steps := by unfold raiseLine; split <;> rfl
@[simp] theorem raiseLine_progressed (s : State) : (raiseLine s).progressed = s.progressed := by unfold raiseLine; split <;> rfl
@[simp] theorem raiseLine_fired (s : State) : (raiseLine s).fired = s.fired := by unfold raiseLine; split <;> rfl
@[simp] theorem raiseLine_cmdStart (s : State) : (raiseLine s).cmdStart = s.cmdStart := by unfold raiseLine; split <;> rfl
@[simp] theorem raiseLine_rem (s : State) : (raiseLine s).rem = s.rem := by unfold raiseLine; split <;> rfl
@[simp] theorem raiseLine_outcome (s : State) : (raiseLine s).outcome = s.outcome := by unfold raiseLine; split <;> rfl
@[simp] theorem raiseLine_inputs (s : State) : (raiseLine s).inputs = s.inputs := by unfold raiseLine; split <;> rfl
@[simp] theorem raiseLine_guestSched (s : State) : (raiseLine s).guestSched = s.guestSched := by unfold raiseLine; split <;> rfl
@[simp] theorem raiseLine_guestReads (s : State) : (raiseLine s).guestReads = s.guestReads := by unfold raiseLine; split <;> rfl
@[simp] theorem raiseLine_guestData (s : State) : (raiseLine s).guestData = s.guestData := by unfold raiseLine; split <;> rfl
@[simp] theorem raiseLine_draws (s : State) : (raiseLine s).draws = s.draws := by unfold raiseLine; split <;> rfl

/-! ### `lowerLine` -/

@[simp] theorem lowerLine_cfg (s : State) : (lowerLine s).cfg = s.cfg := by unfold lowerLine; split <;> rfl
@[simp] theorem lowerLine_enable (s : State) : (lowerLine s).enable = s.enable := by unfold lowerLine; split <;> rfl
@[simp] theorem lowerLine_config (s : State) : (lowerLine s).config = s.config := by unfold lowerLine; split <;> rfl
@[simp] theorem lowerLine_width (s : State) : (lowerLine s).width = s.width := by unfold lowerLine; split <;> rfl
@[simp] theorem lowerLine_height (s : State) : (lowerLine s).height = s.height := by unfold lowerLine; split <;> rfl
@[simp] theorem lowerLine_bpp (s : State) : (lowerLine s).bpp = s.bpp := by unfold lowerLine; split <;> rfl
@[simp] theorem lowerLine_pitchlock (s : State) : (lowerLine s).pitchlock = s.pitchlock := by unfold lowerLine; split <;> rfl
@[simp] theorem lowerLine_pitchlockCount (s : State) : (lowerLine s).pitchlockCount = s.pitchlockCount := by unfold lowerLine; split <;> rfl
@[simp] theorem lowerLine_guestId (s : State) : (lowerLine s).guestId = s.guestId := by unfold lowerLine; split <;> rfl
@[simp] theorem lowerLine_displayId (s : State) : (lowerLine s).displayId = s.displayId := by unfold lowerLine; split <;> rfl
@[simp] theorem lowerLine_scratch (s : State) : (lowerLine s).scratch = s.scratch := by unfold lowerLine; split <;> rfl
@[simp] theorem lowerLine_irqMask (s : State) : (lowerLine s).irqMask = s.irqMask := by unfold lowerLine; split <;> rfl
@[simp] theorem lowerLine_irqStatus (s : State) : (lowerLine s).irqStatus = s.irqStatus := by unfold lowerLine; split <;> rfl
@[simp] theorem lowerLine_lastCursorCount (s : State) : (lowerLine s).lastCursorCount = s.lastCursorCount := by unfold lowerLine; split <;> rfl
@[simp] theorem lowerLine_index (s : State) : (lowerLine s).index = s.index := by unfold lowerLine; split <;> rfl
@[simp] theorem lowerLine_svgaId (s : State) : (lowerLine s).svgaId = s.svgaId := by unfold lowerLine; split <;> rfl
@[simp] theorem lowerLine_cursorId (s : State) : (lowerLine s).cursorId = s.cursorId := by unfold lowerLine; split <;> rfl
@[simp] theorem lowerLine_cursorX (s : State) : (lowerLine s).cursorX = s.cursorX := by unfold lowerLine; split <;> rfl
@[simp] theorem lowerLine_cursorY (s : State) : (lowerLine s).cursorY = s.cursorY := by unfold lowerLine; split <;> rfl
@[simp] theorem lowerLine_cursorOn (s : State) : (lowerLine s).cursorOn = s.cursorOn := by unfold lowerLine; split <;> rfl
@[simp] theorem lowerLine_syncing (s : State) : (lowerLine s).syncing = s.syncing := by unfold lowerLine; split <;> rfl
@[simp] theorem lowerLine_invalidated (s : State) : (lowerLine s).invalidated = s.invalidated := by unfold lowerLine; split <;> rfl
@[simp] theorem lowerLine_fifoMin (s : State) : (lowerLine s).fifoMin = s.fifoMin := by unfold lowerLine; split <;> rfl
@[simp] theorem lowerLine_fifoMax (s : State) : (lowerLine s).fifoMax = s.fifoMax := by unfold lowerLine; split <;> rfl
@[simp] theorem lowerLine_fifoNext (s : State) : (lowerLine s).fifoNext = s.fifoNext := by unfold lowerLine; split <;> rfl
@[simp] theorem lowerLine_fifoStop (s : State) : (lowerLine s).fifoStop = s.fifoStop := by unfold lowerLine; split <;> rfl
@[simp] theorem lowerLine_queue (s : State) : (lowerLine s).queue = s.queue := by unfold lowerLine; split <;> rfl
@[simp] theorem lowerLine_cur (s : State) : (lowerLine s).cur = s.cur := by unfold lowerLine; split <;> rfl
@[simp] theorem lowerLine_logged (s : State) : (lowerLine s).logged = s.logged := by unfold lowerLine; split <;> rfl
@[simp] theorem lowerLine_diag (s : State) : (lowerLine s).diag = s.diag := by unfold lowerLine; split <;> rfl
@[simp] theorem lowerLine_fifo (s : State) : (lowerLine s).fifo = s.fifo := by unfold lowerLine; split <;> rfl
@[simp] theorem lowerLine_fb (s : State) : (lowerLine s).fb = s.fb := by unfold lowerLine; split <;> rfl
@[simp] theorem lowerLine_trigger (s : State) : (lowerLine s).trigger = s.trigger := by unfold lowerLine; split <;> rfl
@[simp] theorem lowerLine_steps (s : State) : (lowerLine s).steps = s.steps := by unfold lowerLine; split <;> rfl
@[simp] theorem lowerLine_progressed (s : State) : (lowerLine s).progressed = s.progressed := by unfold lowerLine; split <;> rfl
@[simp] theorem lowerLine_fired (s : State) : (lowerLine s).fired = s.fired := by unfold lowerLine; split <;> rfl
@[simp] theorem lowerLine_cmdStart (s : State) : (lowerLine s).cmdStart = s.cmdStart := by unfold lowerLine; split <;> rfl
@[simp] theorem lowerLine_rem (s : State) : (lowerLine s).rem = s.rem := by unfold lowerLine; split <;> rfl
@[simp] theorem lowerLine_outcome (s : State) : (lowerLine s).outcome = s.outcome := by unfold lowerLine; split <;> rfl
@[simp] theorem lowerLine_inputs (s : State) : (lowerLine s).inputs = s.inputs := by unfold lowerLine; split <;> rfl
@[simp] theorem lowerLine_guestSched (s : State) : (lowerLine s).guestSched = s.guestSched := by unfold lowerLine; split <;> rfl
@[simp] theorem lowerLine_guestReads (s : State) : (lowerLine s).guestReads = s.guestReads := by unfold lowerLine; split <;> rfl
@[simp] theorem lowerLine_guestData (s : State) : (lowerLine s).guestData = s.guestData := by unfold lowerLine; split <;> rfl
@[simp] theorem lowerLine_draws (s : State) : (lowerLine s).draws = s.draws := by unfold lowerLine; split <;> rfl

/-! ### `append` -/

@[simp] theorem append_cfg (r : Rect) (s : State) : (append r s).cfg = s.cfg := by unfold append; split <;> rfl
@[simp] theorem append_enable (r : Rect) (s : State) : (append r s).enable = s.enable := by unfold append; split <;> rfl
@[simp] theorem append_config (r : Rect) (s : State) : (append r s).config = s.config := by unfold append; split <;> rfl
@[simp] theorem append_width (r : Rect) (s : State) : (append r s).width = s.width := by unfold append; split <;> rfl
@[simp] theorem append_height (r : Rect) (s : State) : (append r s).height = s.height := by unfold append; split <;> rfl
@[simp] theorem append_bpp (r : Rect) (s : State) : (append r s).bpp = s.bpp := by unfold append; split <;> rfl
@[simp] theorem append_pitchlock (r : Rect) (s : State) : (append r s).pitchlock = s.pitchlock := by unfold append; split <;> rfl
@[simp] theorem append_pitchlockCount (r : Rect) (s : State) : (append r s).pitchlockCount = s.pitchlockCount := by unfold append; split <;> rfl
@[simp] theorem append_guestId (r : Rect) (s : State) : (append r s).guestId = s.guestId := by unfold append; split <;> rfl
@[simp] theorem append_displayId (r : Rect) (s : State) : (append r s).displayId = s.displayId := by unfold append; split <;> rfl
@[simp] theorem append_scratch (r : Rect) (s : State) : (append r s).scratch = s.scratch := by unfold append; split <;> rfl
@[simp] theorem append_irqMask (r : Rect) (s : State) : (append r s).irqMask = s.irqMask := by unfold append; split <;> rfl
@[simp] theorem append_irqStatus (r : Rect) (s : State) : (append r s).irqStatus = s.irqStatus := by unfold append; split <;> rfl
@[simp] theorem append_irqLine (r : Rect) (s : State) : (append r s).irqLine = s.irqLine := by unfold append; split <;> rfl
@[simp] theorem append_lastCursorCount (r : Rect) (s : State) : (append r s).lastCursorCount = s.lastCursorCount := by unfold append; split <;> rfl
@[simp] theorem append_index (r : Rect) (s : State) : (append r s).index = s.index := by unfold append; split <;> rfl
@[simp] theorem append_svgaId (r : Rect) (s : State) : (append r s).svgaId = s.svgaId := by unfold append; split <;> rfl
@[simp] theorem append_cursorId (r : Rect) (s : State) : (append r s).cursorId = s.cursorId := by unfold append; split <;> rfl
@[simp] theorem append_cursorX (r : Rect) (s : State) : (append r s).cursorX = s.cursorX := by unfold append; split <;> rfl
@[simp] theorem append_cursorY (r : Rect) (s : State) : (append r s).cursorY = s.cursorY := by unfold append; split <;> rfl
@[simp] theorem append_cursorOn (r : Rect) (s : State) : (append r s).cursorOn = s.cursorOn := by unfold append; split <;> rfl
@[simp] theorem append_syncing (r : Rect) (s : State) : (append r s).syncing = s.syncing := by unfold append; split <;> rfl
@[simp] theorem append_invalidated (r : Rect) (s : State) : (append r s).invalidated = s.invalidated := by unfold append; split <;> rfl
@[simp] theorem append_fifoMin (r : Rect) (s : State) : (append r s).fifoMin = s.fifoMin := by unfold append; split <;> rfl
@[simp] theorem append_fifoMax (r : Rect) (s : State) : (append r s).fifoMax = s.fifoMax := by unfold append; split <;> rfl
@[simp] theorem append_fifoNext (r : Rect) (s : State) : (append r s).fifoNext = s.fifoNext := by unfold append; split <;> rfl
@[simp] theorem append_fifoStop (r : Rect) (s : State) : (append r s).fifoStop = s.fifoStop := by unfold append; split <;> rfl
@[simp] theorem append_cur (r : Rect) (s : State) : (append r s).cur = s.cur := by unfold append; split <;> rfl
@[simp] theorem append_logged (r : Rect) (s : State) : (append r s).logged = s.logged := by unfold append; split <;> rfl
@[simp] theorem append_diag (r : Rect) (s : State) : (append r s).diag = s.diag := by unfold append; split <;> rfl
@[simp] theorem append_fifo (r : Rect) (s : State) : (append r s).fifo = s.fifo := by unfold append; split <;> rfl
@[simp] theorem append_fb (r : Rect) (s : State) : (append r s).fb = s.fb := by unfold append; split <;> rfl
@[simp] theorem append_trigger (r : Rect) (s : State) : (append r s).trigger = s.trigger := by unfold append; split <;> rfl
@[simp] theorem append_steps (r : Rect) (s : State) : (append r s).steps = s.steps := by unfold append; split <;> rfl
@[simp] theorem append_progressed (r : Rect) (s : State) : (append r s).progressed = s.progressed := by unfold append; split <;> rfl
@[simp] theorem append_fired (r : Rect) (s : State) : (append r s).fired = s.fired := by unfold append; split <;> rfl
@[simp] theorem append_cmdStart (r : Rect) (s : State) : (append r s).cmdStart = s.cmdStart := by unfold append; split <;> rfl
@[simp] theorem append_rem (r : Rect) (s : State) : (append r s).rem = s.rem := by unfold append; split <;> rfl
@[simp] theorem append_outcome (r : Rect) (s : State) : (append r s).outcome = s.outcome := by unfold append; split <;> rfl
@[simp] theorem append_inputs (r : Rect) (s : State) : (append r s).inputs = s.inputs := by unfold append; split <;> rfl
@[simp] theorem append_guestSched (r : Rect) (s : State) : (append r s).guestSched = s.guestSched := by unfold append; split <;> rfl
@[simp] theorem append_guestReads (r : Rect) (s : State) : (append r s).guestReads = s.guestReads := by unfold append; split <;> rfl
@[simp] theorem append_guestData (r : Rect) (s : State) : (append r s).guestData = s.guestData := by unfold append; split <;> rfl
@[simp] theorem append_draws (r : Rect) (s : State) : (append r s).draws = s.draws := by unfold append; split <;> rfl

/-! ### `fullSurfaceUpdate` -/

@[simp] theorem fullSurfaceUpdate_cfg (s : State) : (fullSurfaceUpdate s).cfg = s.cfg := by simp [fullSurfaceUpdate]
@[simp] theorem fullSurfaceUpdate_enable (s : State) : (fullSurfaceUpdate s).enable = s.enable := by simp [fullSurfaceUpdate]
@[simp] theorem fullSurfaceUpdate_config (s : State) : (fullSurfaceUpdate s).config = s.config := by simp [fullSurfaceUpdate]
@[simp] theorem fullSurfaceUpdate_width (s : State) : (fullSurfaceUpdate s).width = s.width := by simp [fullSurfaceUpdate]
@[simp] theorem fullSurfaceUpdate_height (s : State) : (fullSurfaceUpdate s).height = s.height := by simp [fullSurfaceUpdate]
@[simp] theorem fullSurfaceUpdate_bpp (s : State) : (fullSurfaceUpdate s).bpp = s.bpp := by simp [fullSurfaceUpdate]
@[simp] theorem fullSurfaceUpdate_pitchlock (s : State) : (fullSurfaceUpdate s).pitchlock = s.pitchlock := by simp [fullSurfaceUpdate]
@[simp] theorem fullSurfaceUpdate_pitchlockCount (s : State) : (fullSurfaceUpdate s).pitchlockCount = s.pitchlockCount := by simp [fullSurfaceUpdate]
@[simp] theorem fullSurfaceUpdate_guestId (s : State) : (fullSurfaceUpdate s).guestId = s.guestId := by simp [fullSurfaceUpdate]
@[simp] theorem fullSurfaceUpdate_displayId (s : State) : (fullSurfaceUpdate s).displayId = s.displayId := by simp [fullSurfaceUpdate]
@[simp] theorem fullSurfaceUpdate_scratch (s : State) : (fullSurfaceUpdate s).scratch = s.scratch := by simp [fullSurfaceUpdate]
@[simp] theorem fullSurfaceUpdate_irqMask (s : State) : (fullSurfaceUpdate s).irqMask = s.irqMask := by simp [fullSurfaceUpdate]
@[simp] theorem fullSurfaceUpdate_irqStatus (s : State) : (fullSurfaceUpdate s).irqStatus = s.irqStatus := by simp [fullSurfaceUpdate]
@[simp] theorem fullSurfaceUpdate_irqLine (s : State) : (fullSurfaceUpdate s).irqLine = s.irqLine := by simp [fullSurfaceUpdate]
@[simp] theorem fullSurfaceUpdate_lastCursorCount (s : State) : (fullSurfaceUpdate s).lastCursorCount = s.lastCursorCount := by simp [fullSurfaceUpdate]
@[simp] theorem fullSurfaceUpdate_index (s : State) : (fullSurfaceUpdate s).index = s.index := by simp [fullSurfaceUpdate]
@[simp] theorem fullSurfaceUpdate_svgaId (s : State) : (fullSurfaceUpdate s).svgaId = s.svgaId := by simp [fullSurfaceUpdate]
@[simp] theorem fullSurfaceUpdate_cursorId (s : State) : (fullSurfaceUpdate s).cursorId = s.cursorId := by simp [fullSurfaceUpdate]
@[simp] theorem fullSurfaceUpdate_cursorX (s : State) : (fullSurfaceUpdate s).cursorX = s.cursorX := by simp [fullSurfaceUpdate]
@[simp] theorem fullSurfaceUpdate_cursorY (s : State) : (fullSurfaceUpdate s).cursorY = s.cursorY := by simp [fullSurfaceUpdate]
@[simp] theorem fullSurfaceUpdate_cursorOn (s : State) : (fullSurfaceUpdate s).cursorOn = s.cursorOn := by simp [fullSurfaceUpdate]
@[simp] theorem fullSurfaceUpdate_syncing (s : State) : (fullSurfaceUpdate s).syncing = s.syncing := by simp [fullSurfaceUpdate]
@[simp] theorem fullSurfaceUpdate_invalidated (s : State) : (fullSurfaceUpdate s).invalidated = s.invalidated := by simp [fullSurfaceUpdate]
@[simp] theorem fullSurfaceUpdate_fifoMin (s : State) : (fullSurfaceUpdate s).fifoMin = s.fifoMin := by simp [fullSurfaceUpdate]
@[simp] theorem fullSurfaceUpdate_fifoMax (s : State) : (fullSurfaceUpdate s).fifoMax = s.fifoMax := by simp [fullSurfaceUpdate]
@[simp] theorem fullSurfaceUpdate_fifoNext (s : State) : (fullSurfaceUpdate s).fifoNext = s.fifoNext := by simp [fullSurfaceUpdate]
@[simp] theorem fullSurfaceUpdate_fifoStop (s : State) : (fullSurfaceUpdate s).fifoStop = s.fifoStop := by simp [fullSurfaceUpdate]
@[simp] theorem fullSurfaceUpdate_cur (s : State) : (fullSurfaceUpdate s).cur = s.cur := by simp [fullSurfaceUpdate]
@[simp] theorem fullSurfaceUpdate_logged (s : State) : (fullSurfaceUpdate s).logged = s.logged := by simp [fullSurfaceUpdate]
@[simp] theorem fullSurfaceUpdate_diag (s : State) : (fullSurfaceUpdate s).diag = s.diag := by simp [fullSurfaceUpdate]
@[simp] theorem fullSurfaceUpdate_fifo (s : State) : (fullSurfaceUpdate s).fifo = s.fifo := by simp [fullSurfaceUpdate]
@[simp] theorem fullSurfaceUpdate_fb (s : State) : (fullSurfaceUpdate s).fb = s.fb := by simp [fullSurfaceUpdate]
@[simp] theorem fullSurfaceUpdate_trigger (s : State) : (fullSurfaceUpdate s).trigger = s.trigger := by simp [fullSurfaceUpdate]
@[simp] theorem fullSurfaceUpdate_steps (s : State) : (fullSurfaceUpdate s).steps = s.steps := by simp [fullSurfaceUpdate]
@[simp] theorem fullSurfaceUpdate_progressed (s : State) : (fullSurfaceUpdate s).progressed = s.progressed := by simp [fullSurfaceUpdate]
@[simp] theorem fullSurfaceUpdate_fired (s : State) : (fullSurfaceUpdate s).fired = s.fired := by simp [fullSurfaceUpdate]
@[simp] theorem fullSurfaceUpdate_cmdStart (s : State) : (fullSurfaceUpdate s).cmdStart = s.cmdStart := by simp [fullSurfaceUpdate]
@[simp] theorem fullSurfaceUpdate_rem (s : State) : (fullSurfaceUpdate s).rem = s.rem := by simp [fullSurfaceUpdate]
@[simp] theorem fullSurfaceUpdate_outcome (s : State) : (fullSurfaceUpdate s).outcome = s.outcome := by simp [fullSurfaceUpdate]
@[simp] theorem fullSurfaceUpdate_inputs (s : State) : (fullSurfaceUpdate s).inputs = s.inputs := by simp [fullSurfaceUpdate]
@[simp] theorem fullSurfaceUpdate_guestSched (s : State) : (fullSurfaceUpdate s).guestSched = s.guestSched := by simp [fullSurfaceUpdate]
@[simp] theorem fullSurfaceUpdate_guestReads (s : State) : (fullSurfaceUpdate s).guestReads = s.guestReads := by simp [fullSurfaceUpdate]
@[simp] theorem fullSurfaceUpdate_guestData (s : State) : (fullSurfaceUpdate s).guestData = s.guestData := by simp [fullSurfaceUpdate]
@[simp] theorem fullSurfaceUpdate_draws (s : State) : (fullSurfaceUpdate s).draws = s.draws := by simp [fullSurfaceUpdate]

/-! ### `endOfInvocation` -/

@[simp] theorem endOfInvocation_cfg (s : State) : (endOfInvocation s).cfg = s.cfg := by unfold endOfInvocation; split <;> simp
@[simp] theorem endOfInvocation_enable (s : State) : (endOfInvocation s).enable = s.enable := by unfold endOfInvocation; split <;> simp
@[simp] theorem endOfInvocation_config (s : State) : (endOfInvocation s).config = s.config := by unfold endOfInvocation; split <;> simp
@[simp] theorem endOfInvocation_width (s : State) : (endOfInvocation s).width = s.width := by unfold endOfInvocation; split <;> simp
@[simp] theorem endOfInvocation_height (s : State) : (endOfInvocation s).height = s.height := by unfold endOfInvocation; split <;> simp
@[simp] theorem endOfInvocation_bpp (s : State) : (endOfInvocation s).bpp = s.bpp := by unfold endOfInvocation; split <;> simp
@[simp] theorem endOfInvocation_pitchlock (s : State) : (endOfInvocation s).pitchlock = s.pitchlock := by unfold endOfInvocation; split <;> simp
@[simp] theorem endOfInvocation_pitchlockCount (s : State) : (endOfInvocation s).pitchlockCount = s.pitchlockCount := by unfold endOfInvocation; split <;> simp
@[simp] theorem endOfInvocation_guestId (s : State) : (endOfInvocation s).guestId = s.guestId := by unfold endOfInvocation; split <;> simp
@[simp] theorem endOfInvocation_displayId (s : State) : (endOfInvocation s).displayId = s.displayId := by unfold endOfInvocation; split <;> simp
@[simp] theorem endOfInvocation_scratch (s : State) : (endOfInvocation s).scratch = s.scratch := by unfold endOfInvocation; split <;> simp
@[simp] theorem endOfInvocation_irqMask (s : State) : (endOfInvocation s).irqMask = s.irqMask := by unfold endOfInvocation; split <;> simp
@[simp] theorem endOfInvocation_lastCursorCount (s : State) : (endOfInvocation s).lastCursorCount = s.lastCursorCount := by unfold endOfInvocation; split <;> simp
@[simp] theorem endOfInvocation_index (s : State) : (endOfInvocation s).index = s.index := by unfold endOfInvocation; split <;> simp
@[simp] theorem endOfInvocation_svgaId (s : State) : (endOfInvocation s).svgaId = s.svgaId := by unfold endOfInvocation; split <;> simp
@[simp] theorem endOfInvocation_cursorId (s : State) : (endOfInvocation s).cursorId = s.cursorId := by unfold endOfInvocation; split <;> simp
@[simp] theorem endOfInvocation_cursorX (s : State) : (endOfInvocation s).cursorX = s.cursorX := by unfold endOfInvocation; split <;> simp
@[simp] theorem endOfInvocation_cursorY (s : State) : (endOfInvocation s).cursorY = s.cursorY := by unfold endOfInvocation; split <;> simp
@[simp] theorem endOfInvocation_cursorOn (s : State) : (endOfInvocation s).cursorOn = s.cursorOn := by unfold endOfInvocation; split <;> simp
@[simp] theorem endOfInvocation_invalidated (s : State) : (endOfInvocation s).invalidated = s.invalidated := by unfold endOfInvocation; split <;> simp
@[simp] theorem endOfInvocation_fifoMin (s : State) : (endOfInvocation s).fifoMin = s.fifoMin := by unfold endOfInvocation; split <;> simp
@[simp] theorem endOfInvocation_fifoMax (s : State) : (endOfInvocation s).fifoMax = s.fifoMax := by unfold endOfInvocation; split <;> simp
@[simp] theorem endOfInvocation_fifoNext (s : State) : (endOfInvocation s).fifoNext = s.fifoNext := by unfold endOfInvocation; split <;> simp
@[simp] theorem endOfInvocation_fifoStop (s : State) : (endOfInvocation s).fifoStop = s.fifoStop := by unfold endOfInvocation; split <;> simp
@[simp] theorem endOfInvocation_queue (s : State) : (endOfInvocation s).queue = s.queue := by unfold endOfInvocation; split <;> simp
@[simp] theorem endOfInvocation_cur (s : State) : (endOfInvocation s).cur = s.cur := by unfold endOfInvocation; split <;> simp
@[simp] theorem endOfInvocation_logged (s : State) : (endOfInvocation s).logged = s.logged := by unfold endOfInvocation; split <;> simp
@[simp] theorem endOfInvocation_diag (s : State) : (endOfInvocation s).diag = s.diag := by unfold endOfInvocation; split <;> simp
@[simp] theorem endOfInvocation_fifo (s : State) : (endOfInvocation s).fifo = s.fifo := by unfold endOfInvocation; split <;> simp
@[simp] theorem endOfInvocation_fb (s : State) : (endOfInvocation s).fb = s.fb := by unfold endOfInvocation; split <;> simp
@[simp] theorem endOfInvocation_steps (s : State) : (endOfInvocation s).steps = s.steps := by unfold endOfInvocation; split <;> simp
@[simp] theorem endOfInvocation_progressed (s : State) : (endOfInvocation s).progressed = s.progressed := by unfold endOfInvocation; split <;> simp
@[simp] theorem endOfInvocation_cmdStart (s : State) : (endOfInvocation s).cmdStart = s.cmdStart := by unfold endOfInvocation; split <;> simp
@[simp] theorem endOfInvocation_rem (s : State) : (endOfInvocation s).rem = s.rem := by unfold endOfInvocation; split <;> simp
@[simp] theorem endOfInvocation_outcome (s : State) : (endOfInvocation s).outcome = s.outcome := by unfold endOfInvocation; split <;> simp
@[simp] theorem endOfInvocation_inputs (s : State) : (endOfInvocation s).inputs = s.inputs := by unfold endOfInvocation; split <;> simp
@[simp] theorem endOfInvocation_guestSched (s : State) : (endOfInvocation s).guestSched = s.guestSched := by unfold endOfInvocation; split <;> simp
@[simp] theorem endOfInvocation_guestReads (s : State) : (endOfInvocation s).guestReads = s.guestReads := by unfold endOfInvocation; split <;> simp
@[simp] theorem endOfInvocation_guestData (s : State) : (endOfInvocation s).guestData = s.guestData := by unfold endOfInvocation; split <;> simp
@[simp] theorem endOfInvocation_draws (s : State) : (endOfInvocation s).draws = s.draws := by unfold endOfInvocation; split <;> simp

@[simp] theorem skipped_outcome (op : Word) (s : State) : (skipped op s).outcome = some .skippedUnknown := rfl
@[simp] theorem endOfInvocation_trigger (s : State) : (endOfInvocation s).trigger = none := rfl
@[simp] theorem endOfInvocation_syncing (s : State) : (endOfInvocation s).syncing = false := rfl

end Sys2Proof.Machine
end

