-- ==== Sys2Proof/Laws/Ops.lean ====
section
/-! SUPPORT. What each shared operation over the memories can do, said once: the guest's accesses, the core's accesses,
the ring cursor, the row accesses of the rectangle engine. -/

namespace Sys2Proof.Machine

/-- Two states agree on everything but the memories, the guest's schedule and the record of its reads, and keep
canonical memories canonical. -/
structure OnlyMemories (s t : State) : Prop where
  eq : t = { s with fifo := t.fifo, fb := t.fb, guestSched := t.guestSched, guestReads := t.guestReads }
  fifo_wf : Memory.wf s.fifo → Memory.wf t.fifo
  fb_wf : Memory.wf s.fb → Memory.wf t.fb

theorem OnlyMemories.refl (s : State) : OnlyMemories s s := ⟨rfl, id, id⟩

theorem OnlyMemories.trans {s t u : State} (h : OnlyMemories s t) (k : OnlyMemories t u) : OnlyMemories s u :=
  ⟨by rw [k.eq, h.eq], k.fifo_wf ∘ h.fifo_wf, k.fb_wf ∘ h.fb_wf⟩

theorem OnlyMemories.cfg {s t : State} (h : OnlyMemories s t) : t.cfg = s.cfg := by rw [h.eq]

theorem ringLength_congr {s t : State} (hc : t.cfg = s.cfg) (he : t.enable = s.enable) (hf : t.config = s.config)
    (mn mx next stop : Nat) : ringLength t mn mx next stop = ringLength s mn mx next stop := by
  unfold ringLength gate fifoMode
  rw [hc, he, hf]

/-! ### The guest's accesses -/

theorem storeGuest_onlyMemories (s : State) (w : GuestWrite) : OnlyMemories s (storeGuest s w) := by
  unfold storeGuest
  split
  · exact ⟨rfl, Memory.writeWithin_wf _ _, id⟩
  · exact ⟨rfl, id, Memory.writeWithin_wf _ _⟩

theorem applyGuest_onlyMemories (s : State) (a : GuestAccess) : OnlyMemories s (applyGuest s a) := by
  unfold applyGuest
  split
  · split
    · exact storeGuest_onlyMemories s _
    · exact .refl s
  · split
    · exact ⟨rfl, id, id⟩
    · exact .refl s

theorem foldl_applyGuest_onlyMemories : ∀ (as : List GuestAccess) (s : State), OnlyMemories s (as.foldl applyGuest s)
  | [], s => .refl s
  | a :: as, s => (applyGuest_onlyMemories s a).trans (foldl_applyGuest_onlyMemories as _)

/-- Before an access of the core only the memories, the schedule and the record of the guest's reads can change
(`10_state.md` R37, `20_memory.md` R76). -/
theorem tick_onlyMemories (s : State) : OnlyMemories s (tick s) := by
  unfold tick
  split
  · exact .refl s
  · rename_i as rest _
    exact (OnlyMemories.mk rfl id id : OnlyMemories s { s with guestSched := rest }).trans
      (foldl_applyGuest_onlyMemories as _)

/-- Nothing happens before an access where the guest makes none. -/
theorem tick_of_quiet {s : State} (h : Quiet s) : tick s = s := by
  unfold tick
  rw [h]

/-- Each access consumes one group of the schedule. -/
theorem tick_guestSched (s : State) : (tick s).guestSched = s.guestSched.tail := by
  unfold tick
  split
  · rename_i h; simp [h]
  · rename_i h; rw [foldl_applyGuest_frame]; simp [h]

/-- Without `cfg.GUEST_INTERLEAVE` the guest's accesses between those of the core leave both memories alone. -/
theorem foldl_applyGuest_memories : ∀ (as : List GuestAccess) (s : State), s.cfg.guestInterleave = false →
    (as.foldl applyGuest s).fifo = s.fifo ∧ (as.foldl applyGuest s).fb = s.fb
  | [], _, _ => ⟨rfl, rfl⟩
  | a :: as, s, h => by
    have ha : (applyGuest s a).fifo = s.fifo ∧ (applyGuest s a).fb = s.fb := by
      unfold applyGuest
      split
      · rw [h]; exact ⟨rfl, rfl⟩
      · split <;> exact ⟨rfl, rfl⟩
    obtain ⟨h1, h2⟩ := foldl_applyGuest_memories as (applyGuest s a) (by rw [applyGuest_cfg, h])
    exact ⟨h1.trans ha.1, h2.trans ha.2⟩

/-! ### The core's FIFO accesses -/

/-- An aligned read inside the FIFO memory answers the word the memory holds then. -/
theorem fifoRead32_ok {off : Nat} {s : State} (ha : off % 4 = 0) (hb : off + 4 ≤ s.cfg.fifoSize) :
    fifoRead32 off s = .ok (Memory.read32 .fifo (tick s).fifo off, tick s) := by
  unfold fifoRead32
  rw [if_pos ⟨ha, by rw [tick_cfg]; exact hb⟩]

/-- All a successful FIFO read can do. -/
theorem fifoRead32_cases {off : Nat} {s t : State} {w : Word} (h : fifoRead32 off s = .ok (w, t)) :
    off % 4 = 0 ∧ off + 4 ≤ s.cfg.fifoSize ∧ t = tick s ∧ w = Memory.read32 .fifo t.fifo off := by
  unfold fifoRead32 at h
  simp only at h
  split at h
  · rename_i hc
    rw [tick_cfg] at hc
    cases h
    exact ⟨hc.1, hc.2, rfl, rfl⟩
  · cases h

/-- An aligned write inside the FIFO memory stores the word. -/
theorem fifoWrite32_ok {off : Nat} {v : Word} {s : State} (ha : off % 4 = 0) (hb : off + 4 ≤ s.cfg.fifoSize) :
    fifoWrite32 off v s = .ok { tick s with fifo := Memory.write32 (tick s).fifo off v } := by
  unfold fifoWrite32
  rw [if_pos ⟨ha, by rw [tick_cfg]; exact hb⟩]

/-- All a successful FIFO write can do. -/
theorem fifoWrite32_cases {off : Nat} {v : Word} {s t : State} (h : fifoWrite32 off v s = .ok t) :
    off % 4 = 0 ∧ off + 4 ≤ s.cfg.fifoSize ∧ t = { tick s with fifo := Memory.write32 (tick s).fifo off v } := by
  unfold fifoWrite32 at h
  simp only at h
  split at h
  · rename_i hc
    rw [tick_cfg] at hc
    cases h
    exact ⟨hc.1, hc.2, rfl⟩
  · cases h

theorem fifoRead32_onlyMemories {off : Nat} {s t : State} {w : Word} (h : fifoRead32 off s = .ok (w, t)) :
    OnlyMemories s t := by
  obtain ⟨-, -, rfl, -⟩ := fifoRead32_cases h
  exact tick_onlyMemories s

theorem fifoWrite32_onlyMemories {off : Nat} {v : Word} {s t : State} (h : fifoWrite32 off v s = .ok t) :
    OnlyMemories s t := by
  obtain ⟨-, -, rfl⟩ := fifoWrite32_cases h
  exact (tick_onlyMemories s).trans ⟨rfl, Memory.write32_wf _ _, id⟩

/-! ### The rectangle engine's accesses -/

/-- A row read inside the framebuffer answers as many bytes as asked for; only the guest's accesses change a memory. -/
theorem fbRead_ok : ∀ (n off : Nat) (s : State), off + n ≤ s.cfg.fbSize →
    ∃ bs t, fbRead off n s = .ok (bs, t) ∧ bs.length = n ∧ OnlyMemories s t
  | 0, off, s, _ => ⟨[], s, rfl, rfl, .refl s⟩
  | n + 1, off, s, h => by
    obtain ⟨bs, t, hr, hl, hm⟩ := fbRead_ok n (off + 1) (tick s) (by rw [tick_cfg]; omega)
    refine ⟨Memory.read .fb (tick s).fb off :: bs, t, ?_, by simp [hl], (tick_onlyMemories s).trans hm⟩
    rw [fbRead, if_pos (by rw [tick_cfg]; omega), hr]

/-- All a successful row read can do. -/
theorem fbRead_cases : ∀ (n off : Nat) (s : State) {bs : List Byte} {t : State}, fbRead off n s = .ok (bs, t) →
    bs.length = n ∧ OnlyMemories s t
  | 0, off, s, bs, t, h => by
    cases h
    exact ⟨rfl, .refl s⟩
  | n + 1, off, s, bs, t, h => by
    rw [fbRead] at h
    split at h
    · split at h
      · rename_i hr
        cases h
        obtain ⟨hl, hm⟩ := fbRead_cases n (off + 1) (tick s) hr
        exact ⟨by simp [hl], (tick_onlyMemories s).trans hm⟩
      · cases h
    · cases h

/-- A row read uses up one group of the guest's schedule a byte (R66, R76). -/
theorem fbRead_guestSched : ∀ (n off : Nat) (s : State) {bs : List Byte} {t : State}, fbRead off n s = .ok (bs, t) →
    t.guestSched = s.guestSched.drop n
  | 0, _, s, _, _, h => by
    cases h
    rfl
  | n + 1, off, s, _, _, h => by
    rw [fbRead] at h
    split at h
    · split at h
      · rename_i hr
        cases h
        rw [fbRead_guestSched n (off + 1) (tick s) hr, tick_guestSched, List.drop_tail]
      · cases h
    · cases h

/-- Without guest accesses a row read answers the bytes of the framebuffer and changes nothing. -/
theorem fbRead_of_quiet : ∀ (n off : Nat) (s : State), Quiet s → off + n ≤ s.cfg.fbSize →
    fbRead off n s = .ok ((List.range n).map (fun k => Memory.read .fb s.fb (off + k)), s)
  | 0, off, s, _, _ => rfl
  | n + 1, off, s, hq, h => by
    rw [fbRead, tick_of_quiet hq, if_pos (by omega), fbRead_of_quiet n (off + 1) s hq (by omega)]
    simp only [List.range_succ_eq_map, List.map_cons, List.map_map, Nat.add_zero]
    congr 3
    apply List.map_congr_left
    intro k _
    simp only [Function.comp, Nat.succ_eq_add_one]
    congr 1
    omega

/-- A row write inside the framebuffer succeeds and changes only memories. -/
theorem fbWrite_ok : ∀ (bs : List Byte) (off : Nat) (s : State), off + bs.length ≤ s.cfg.fbSize →
    ∃ t, fbWrite off bs s = .ok t ∧ OnlyMemories s t
  | [], off, s, _ => ⟨s, rfl, .refl s⟩
  | b :: bs, off, s, h => by
    have hm : OnlyMemories s { tick s with fb := Memory.write (tick s).fb off b } :=
      (tick_onlyMemories s).trans ⟨rfl, id, Memory.write_wf _ _⟩
    rw [List.length_cons] at h
    obtain ⟨t, ht, hm'⟩ := fbWrite_ok bs (off + 1) { tick s with fb := Memory.write (tick s).fb off b }
      (by simp only [tick_cfg]; omega)
    exact ⟨t, by rw [fbWrite, if_pos (by rw [tick_cfg]; omega), ht], hm.trans hm'⟩

/-- All a successful row write can do. -/
theorem fbWrite_cases : ∀ (bs : List Byte) (off : Nat) (s : State) {t : State}, fbWrite off bs s = .ok t →
    OnlyMemories s t
  | [], off, s, t, h => by
    cases h
    exact .refl s
  | b :: bs, off, s, t, h => by
    rw [fbWrite] at h
    split at h
    · exact ((tick_onlyMemories s).trans (OnlyMemories.mk rfl id (Memory.write_wf _ _) :
        OnlyMemories (tick s) { tick s with fb := Memory.write (tick s).fb off b })).trans
        (fbWrite_cases bs (off + 1) _ h)
    · cases h

/-- A row write uses up one group of the guest's schedule a byte (R66, R76). -/
theorem fbWrite_guestSched : ∀ (bs : List Byte) (off : Nat) (s : State) {t : State}, fbWrite off bs s = .ok t →
    t.guestSched = s.guestSched.drop bs.length
  | [], _, s, _, h => by
    cases h
    rfl
  | b :: bs, off, s, _, h => by
    rw [fbWrite] at h
    split at h
    · rw [fbWrite_guestSched bs (off + 1) _ h]
      simp only [tick_guestSched, List.drop_tail, List.length_cons]
    · cases h

/-- Without guest accesses a row write stores its bytes and changes nothing else. -/
theorem fbWrite_of_quiet : ∀ (bs : List Byte) (off : Nat) (s : State), Quiet s → off + bs.length ≤ s.cfg.fbSize →
    fbWrite off bs s = .ok { s with fb := Memory.writeBytes s.fb off bs }
  | [], off, s, _, _ => rfl
  | b :: bs, off, s, hq, h => by
    rw [List.length_cons] at h
    rw [fbWrite, tick_of_quiet hq, if_pos (by omega),
      fbWrite_of_quiet bs (off + 1) { s with fb := Memory.write s.fb off b } hq (by simp only; omega)]
    rfl

/-! ### The ring cursor -/

theorem except_bind_ok {ε α β : Type} (a : α) (f : α → Except ε β) : (Except.ok a >>= f) = f a := rfl

theorem except_bind_error {ε α β : Type} (e : ε) (f : α → Except ε β) :
    ((Except.error e : Except ε α) >>= f) = .error e := rfl

/-- Peels one computation off a sequence that succeeded. -/
theorem except_bind_cases {ε α β : Type} {x : Except ε α} {f : α → Except ε β} {b : β} (h : (x >>= f) = .ok b) :
    ∃ a, x = .ok a ∧ f a = .ok b := by
  cases x with
  | error e => cases h
  | ok a => exact ⟨a, rfl, h⟩

/-- All a successful `length()` can do (R190): the latches are loaded, only memories change besides, and a positive
length means that the latches hold a valid header. -/
theorem length_cases {s t : State} {L : Nat} (h : length s = .ok (L, t)) :
    ∃ u, OnlyMemories s u
      ∧ t = { u with fifoMin := t.fifoMin, fifoMax := t.fifoMax, fifoNext := t.fifoNext, fifoStop := t.fifoStop }
      ∧ L = ringLength s t.fifoMin.toNat t.fifoMax.toNat t.fifoNext.toNat t.fifoStop.toNat := by
  unfold length at h
  obtain ⟨⟨mn, s1⟩, h1, h⟩ := except_bind_cases h
  obtain ⟨⟨mx, s2⟩, h2, h⟩ := except_bind_cases h
  obtain ⟨⟨next, s3⟩, h3, h⟩ := except_bind_cases h
  obtain ⟨⟨stop, s4⟩, h4, h⟩ := except_bind_cases h
  have hm := (((fifoRead32_onlyMemories h1).trans (fifoRead32_onlyMemories h2)).trans
    (fifoRead32_onlyMemories h3)).trans (fifoRead32_onlyMemories h4)
  cases h
  exact ⟨s4, hm, rfl, ringLength_congr (by rw [hm.eq]) (by rw [hm.eq]) (by rw [hm.eq]) _ _ _ _⟩

/-- A positive length means that every ring invariant of R190 holds. -/
theorem ringValid_of_ringLength_pos {s : State} {mn mx next stop : Nat} (h : ringLength s mn mx next stop ≠ 0) :
    mn % 4 = 0 ∧ mx % 4 = 0 ∧ next % 4 = 0 ∧ stop % 4 = 0 ∧ 16 ≤ mn ∧ mx ≤ s.cfg.fifoSize ∧ mn < mx
    ∧ 10240 ≤ mx - mn ∧ mn ≤ stop ∧ stop < mx ∧ mn ≤ next ∧ next < mx := by
  unfold ringLength at h
  split at h
  · rename_i hc
    simp only [ringValid, Bool.and_eq_true, beq_iff_eq, decide_eq_true_eq] at hc
    simp only [fifoMinHdr, fifoMinExtent] at hc
    omega
  · exact absurd rfl h

/-- The pending length is below the ring's extent (`41_ring_cursor.md` R196). -/
theorem ringLength_lt {s : State} {mn mx next stop : Nat} (h : ringLength s mn mx next stop ≠ 0) :
    4 * ringLength s mn mx next stop < mx - mn := by
  have hv := ringValid_of_ringLength_pos h
  unfold ringLength at h ⊢
  split at h
  · rename_i hc
    rw [if_pos hc]
    unfold pendingWords
    have h1 := Int.emod_nonneg ((next : Int) - stop) (show (mx : Int) - mn ≠ 0 by omega)
    have h2 := Int.emod_lt_of_pos ((next : Int) - stop) (show (0 : Int) < (mx : Int) - mn by omega)
    omega
  · exact absurd rfl h

/-- The new consumer position of a valid ring is aligned and inside the ring (R193). -/
theorem nextStop_inside {mn mx stop : Word} (hmn : mn.toNat % 4 = 0) (hmx : mx.toNat % 4 = 0)
    (hst : stop.toNat % 4 = 0) (h1 : mn.toNat ≤ stop.toNat) (h2 : stop.toNat < mx.toNat) :
    (nextStop mn mx stop).toNat % 4 = 0 ∧ mn.toNat ≤ (nextStop mn mx stop).toNat
    ∧ (nextStop mn mx stop).toNat < mx.toNat := by
  have := mx.isLt
  unfold nextStop
  split
  · omega
  · have h4 : stop.toNat + 4 < 2 ^ 32 := by omega
    rw [BitVec.toNat_ofNat, Nat.mod_eq_of_lt h4]
    omega

/-- All a successful `read_word()` can do (R192). -/
theorem readWord_cases {s t : State} {w : Word} (h : readWord s = .ok (w, t)) :
    ∃ u, OnlyMemories s u ∧ t = { u with fifoStop := nextStop s.fifoMin s.fifoMax s.fifoStop } := by
  unfold readWord at h
  obtain ⟨⟨w', s1⟩, h1, h⟩ := except_bind_cases h
  obtain ⟨s2, h2, h⟩ := except_bind_cases h
  cases h
  have hm1 := fifoRead32_onlyMemories h1
  have hm2 := fifoWrite32_onlyMemories h2
  refine ⟨{ t with fifoStop := s.fifoStop }, ⟨?_, fun k => hm2.fifo_wf (hm1.fifo_wf k),
    fun k => hm2.fb_wf (hm1.fb_wf k)⟩, ?_⟩
  · rw [hm2.eq]; simp only; rw [hm1.eq]
  · rw [hm2.eq]; simp only; rw [hm1.eq]

/-- Two states agree on everything but the memories, the guest's schedule and the decoder's own variables. -/
structure OnlyFetch (s t : State) : Prop where
  eq : t = { s with fifo := t.fifo, fb := t.fb, guestSched := t.guestSched, guestReads := t.guestReads,
                    fifoStop := t.fifoStop, cmdStart := t.cmdStart, rem := t.rem, outcome := t.outcome }
  fifo_wf : Memory.wf s.fifo → Memory.wf t.fifo
  fb_wf : Memory.wf s.fb → Memory.wf t.fb

theorem OnlyFetch.refl (s : State) : OnlyFetch s s := ⟨rfl, id, id⟩

theorem OnlyFetch.trans {s t u : State} (h : OnlyFetch s t) (k : OnlyFetch t u) : OnlyFetch s u :=
  ⟨by rw [k.eq, h.eq], k.fifo_wf ∘ h.fifo_wf, k.fb_wf ∘ h.fb_wf⟩

theorem OnlyMemories.onlyFetch {s t : State} (h : OnlyMemories s t) : OnlyFetch s t :=
  ⟨by rw [h.eq], h.fifo_wf, h.fb_wf⟩

theorem readWord_onlyFetch {s t : State} {w : Word} (h : readWord s = .ok (w, t)) : OnlyFetch s t := by
  obtain ⟨u, hm, rfl⟩ := readWord_cases h
  exact hm.onlyFetch.trans ⟨rfl, id, id⟩

theorem readWords_onlyFetch : ∀ (n : Nat) {s t : State} {ws : List Word}, readWords n s = .ok (ws, t) → OnlyFetch s t
  | 0, s, t, ws, h => by
    cases h
    exact .refl s
  | n + 1, s, t, ws, h => by
    rw [readWords] at h
    obtain ⟨⟨w, s1⟩, h1, h⟩ := except_bind_cases h
    obtain ⟨⟨ws', s2⟩, h2, h⟩ := except_bind_cases h
    cases h
    exact (readWord_onlyFetch h1).trans (readWords_onlyFetch n h2)

theorem rewind_onlyFetch {s t : State} (h : rewind s = .ok t) : OnlyFetch s t :=
  (OnlyFetch.mk rfl id id : OnlyFetch s { s with fifoStop := s.cmdStart }).trans (fifoWrite32_onlyMemories h).onlyFetch

/-- All a successful length accounting with its reads can do (R213). -/
theorem takeWords_onlyFetch {n : Nat} {s t : State} {ws : Option (List Word)} (h : takeWords n s = .ok (ws, t)) :
    OnlyFetch s t := by
  unfold takeWords at h
  refine (OnlyFetch.mk rfl id id : OnlyFetch s { s with rem := s.rem - n }).trans ?_
  simp only at h
  split at h
  · obtain ⟨s1, h1, h⟩ := except_bind_cases h
    cases h
    exact (rewind_onlyFetch h1).trans ⟨rfl, id, id⟩
  · obtain ⟨⟨ws', s1⟩, h1, h⟩ := except_bind_cases h
    cases h
    exact readWords_onlyFetch n h1

/-- All a fetch can do (R211): it reads words and moves `stop`; no effect of the command has happened. -/
theorem fetch_onlyFetch {L : Nat} {s t : State} {i : Option Instr} (h : fetch L s = .ok (i, t)) : OnlyFetch s t := by
  unfold fetch at h
  refine (OnlyFetch.mk rfl id id : OnlyFetch s { s with cmdStart := s.fifoStop, rem := (L : Int) - 1 }).trans ?_
  obtain ⟨⟨op, s1⟩, h1, h⟩ := except_bind_cases h
  refine (readWord_onlyFetch h1).trans ?_
  simp only at h
  split at h
  · cases h
    exact .refl _
  · rename_i n _
    unfold fetchArgs at h
    obtain ⟨⟨args, s2⟩, h2, h⟩ := except_bind_cases h
    refine (takeWords_onlyFetch h2).trans ?_
    simp only at h
    split at h
    · cases h
      exact .refl _
    · obtain ⟨⟨payload, s3⟩, h3, h⟩ := except_bind_cases h
      refine (takeWords_onlyFetch h3).trans ?_
      simp only at h
      split at h <;> cases h <;> exact .refl _

end Sys2Proof.Machine
end

