-- ==== Sys2Proof/Laws/Rect.lean ====
section
/-! SUPPORT. What the Rectangle Engine's operations can do: the checks as propositions, completion inside the
framebuffer, and the row accesses without guest accesses. -/

namespace Sys2Proof.Machine

/-! ### The checks -/

theorem s32_toNat {v : Word} (h : 0 ≤ v.toInt) : v.toInt.toNat = v.toNat := by
  have := BitVec.toInt_eq_toNat_cond v
  split at this <;> omega

/-- `VerifyRect` on the current surface, as a proposition (R290). -/
theorem verifyRect_iff {s : State} {x y w h : Word} :
    verifyRect s.cfg (surface s) x y w h = true ↔ RectInside s x y w h := by
  simp only [verifyRect, Bool.and_eq_true, decide_eq_true_eq, and_assoc]
  rfl

/-- The rectangle of verified words (R294). -/
theorem rectOf_eq {s : State} {x y w h : Word} (hi : RectInside s x y w h) : rectOf x y w h = argRect x y w h := by
  obtain ⟨hx, -, hy, -, hw, -, hh, -, -, -⟩ := hi
  simp only [rectOf, argRect, s32, s32_toNat hx, s32_toNat hy, s32_toNat hw, s32_toNat hh]

/-- `FbRangeOk` of verified words, as a proposition (R292). -/
theorem fbRangeOk_iff {s : State} {x y w h : Word} (hi : RectInside s x y w h) :
    fbRangeOk s.cfg (surface s) (bypp s) (rectOf x y w h) = true ↔ RowsInFramebuffer s x y w h := by
  have hi' := hi
  obtain ⟨hx, -, hy, -, hw, -, hh, -, -, -⟩ := hi'
  rw [rectOf_eq hi]
  simp only [fbRangeOk, RowsInFramebuffer, Bool.or_eq_true, beq_iff_eq, decide_eq_true_eq, s32_toNat hx, s32_toNat hy,
    s32_toNat hw, s32_toNat hh, or_assoc]
  have e : ∀ v : Word, v.toNat = 0 ↔ v = 0 := fun v =>
    ⟨fun k => BitVec.eq_of_toNat_eq (by simpa using k), fun k => by rw [k]; rfl⟩
  simp only [argRect, surface, e]

/-- Where a row of a checked rectangle ends (R292): inside the framebuffer, or the row is empty. -/
theorem row_inside {fbSize stride bypp x y w h line : Nat} (hl : line < h)
    (hr : w = 0 ∨ h = 0 ∨ (y + h - 1) * stride + (x + w) * bypp ≤ fbSize) :
    w * bypp = 0 ∨ (y + line) * stride + x * bypp + w * bypp ≤ fbSize := by
  rcases hr with rfl | rfl | hr
  · left; simp
  · omega
  · right
    have : (y + line) * stride ≤ (y + h - 1) * stride := Nat.mul_le_mul_right _ (by omega)
    rw [Nat.add_mul] at hr
    omega

/-! ### Completion -/

/-- A line of a copy inside the framebuffer completes and changes only memories. -/
theorem copyLine_ok {S : Surface} {b : Nat} {src dst : Rect} {line : Nat} {s : State}
    (h1 : src.w * b = 0 ∨ (src.y + line) * S.stride + src.x * b + src.w * b ≤ s.cfg.fbSize)
    (h2 : src.w * b = 0 ∨ (dst.y + line) * S.stride + dst.x * b + src.w * b ≤ s.cfg.fbSize) :
    ∃ t, copyLine S b src dst line s = .ok t ∧ OnlyMemories s t := by
  unfold copyLine
  by_cases hz : src.w * b = 0
  · rw [hz]
    exact ⟨s, rfl, .refl s⟩
  · obtain ⟨bs, t, hr, hl, hm⟩ := fbRead_ok (src.w * b) _ s (h1.resolve_left hz)
    rw [hr]
    obtain ⟨u, hu, hm'⟩ := fbWrite_ok bs ((dst.y + line) * S.stride + dst.x * b) t
      (by rw [hl, hm.cfg]; exact h2.resolve_left hz)
    exact ⟨u, hu, hm.trans hm'⟩

/-- A copy whose lines lie inside the framebuffer completes and changes only memories. -/
theorem copyAll_ok {S : Surface} {b : Nat} {src dst : Rect} : ∀ {lines : List Nat} {s : State},
    (∀ line ∈ lines, (src.w * b = 0 ∨ (src.y + line) * S.stride + src.x * b + src.w * b ≤ s.cfg.fbSize)
      ∧ (src.w * b = 0 ∨ (dst.y + line) * S.stride + dst.x * b + src.w * b ≤ s.cfg.fbSize)) →
    ∃ t, copyAll S b src dst lines s = .ok t ∧ OnlyMemories s t
  | [], s, _ => ⟨s, rfl, .refl s⟩
  | line :: lines, s, h => by
    obtain ⟨h1, h2⟩ := h line (List.mem_cons_self ..)
    obtain ⟨t, ht, hm⟩ := copyLine_ok h1 h2
    obtain ⟨u, hu, hm'⟩ := copyAll_ok (s := t) (lines := lines) (S := S) (b := b) (src := src) (dst := dst)
      (by intro l hl; rw [hm.cfg]; exact h l (List.mem_cons_of_mem _ hl))
    refine ⟨u, ?_, hm.trans hm'⟩
    rw [copyAll, ht]
    exact hu

/-- A fill whose lines lie inside the framebuffer completes and changes only memories. -/
theorem fillAll_ok {S : Surface} {b : Nat} {row : List Byte} {dst : Rect} : ∀ {lines : List Nat} {s : State},
    (∀ line ∈ lines, row.length = 0 ∨ (dst.y + line) * S.stride + dst.x * b + row.length ≤ s.cfg.fbSize) →
    ∃ t, fillAll S b row dst lines s = .ok t ∧ OnlyMemories s t
  | [], s, _ => ⟨s, rfl, .refl s⟩
  | line :: lines, s, h => by
    obtain ⟨t, ht, hm⟩ : ∃ t, fbWrite ((dst.y + line) * S.stride + dst.x * b) row s = .ok t ∧ OnlyMemories s t := by
      rcases h line (List.mem_cons_self ..) with h | h
      · rw [List.length_eq_zero_iff.1 h]
        exact ⟨s, rfl, .refl s⟩
      · exact fbWrite_ok row _ s h
    obtain ⟨u, hu, hm'⟩ := fillAll_ok (s := t) (lines := lines) (S := S) (b := b) (row := row) (dst := dst)
      (by intro l hl; rw [hm.cfg]; exact h l (List.mem_cons_of_mem _ hl))
    refine ⟨u, ?_, hm.trans hm'⟩
    rw [fillAll, ht]
    exact hu

theorem mem_copyLines {sy dy h line : Nat} : line ∈ copyLines sy dy h ↔ line < h := by
  unfold copyLines
  split <;> simp

theorem copyLines_length (sy dy h : Nat) : (copyLines sy dy h).length = h := by
  unfold copyLines
  split <;> simp

/-- A copy uses up one group of the guest's schedule for each byte it reads and each it stores (R66, R76, R296). -/
theorem copyAll_guestSched {S : Surface} {b : Nat} {src dst : Rect} : ∀ {lines : List Nat} {s t : State},
    copyAll S b src dst lines s = .ok t → t.guestSched = s.guestSched.drop (lines.length * (2 * (src.w * b)))
  | [], s, t, h => by
    cases h
    simp
  | line :: lines, s, t, h => by
    rw [copyAll] at h
    split at h
    · rename_i hu
      unfold copyLine at hu
      split at hu
      · rename_i hv
        rw [copyAll_guestSched h, fbWrite_guestSched _ _ _ hu, (fbRead_cases _ _ _ hv).1, fbRead_guestSched _ _ _ hv,
          List.drop_drop, List.drop_drop, List.length_cons, Nat.add_mul]
        congr 1
        omega
      · cases hu
    · cases h

/-- A fill uses up one group of the guest's schedule for each byte it stores (R66, R76, R298). -/
theorem fillAll_guestSched {S : Surface} {b : Nat} {row : List Byte} {dst : Rect} : ∀ {lines : List Nat} {s t : State},
    fillAll S b row dst lines s = .ok t → t.guestSched = s.guestSched.drop (lines.length * row.length)
  | [], s, t, h => by
    cases h
    simp
  | line :: lines, s, t, h => by
    rw [fillAll] at h
    split at h
    · rename_i hu
      rw [fillAll_guestSched h, fbWrite_guestSched _ _ _ hu, List.drop_drop, List.length_cons, Nat.add_mul]
      congr 1
      omega
    · cases h

@[simp] theorem pixelBytes_length (b : Nat) (colour : Word) : (pixelBytes b colour).length = b := by
  simp [pixelBytes]

@[simp] theorem fillRow_length (b w : Nat) (colour : Word) : (fillRow b w colour).length = w * b := by
  simp [fillRow]

/-- Byte `k` of the scratch row of a fill is byte `k mod bypp` of the pixel (R298). -/
theorem fillRow_getD {b : Nat} {colour : Word} : ∀ {w k : Nat}, k < w * b →
    (fillRow b w colour).getD k 0 = byteOf colour (k % b)
  | 0, k, h => by simp at h
  | w + 1, k, h => by
    have hr : fillRow b (w + 1) colour = pixelBytes b colour ++ fillRow b w colour := by
      simp [fillRow, List.replicate_succ]
    rw [hr]
    by_cases hk : k < b
    · rw [List.getD_append _ _ _ _ (by simpa using hk), Nat.mod_eq_of_lt hk]
      simp [pixelBytes, hk]
    · rw [List.getD_append_right _ _ _ _ (by simpa using hk), pixelBytes_length, fillRow_getD]
      · rw [← Nat.mod_eq_sub_mod (by omega)]
      · rw [Nat.succ_mul] at h
        omega

/-- All `RectCopy` can do (R296): fail before the first access, or complete with the destination appended. -/
theorem rectCopy_cases (sx sy dx dy w h : Word) (s : State) :
    (copyOk s sx sy dx dy w h = false ∧ rectCopy sx sy dx dy w h s = .ok none)
    ∨ ∃ t, copyOk s sx sy dx dy w h = true ∧ OnlyMemories s t
        ∧ copyAll (surface s) (bypp s) (rectOf sx sy w h) (rectOf dx dy w h)
            (copyLines (s32 sy).toNat (s32 dy).toNat (s32 h).toNat) s = .ok t
        ∧ rectCopy sx sy dx dy w h s = .ok (some (append (rectOf dx dy w h) t)) := by
  unfold rectCopy
  cases hc : copyOk s sx sy dx dy w h with
  | false => exact .inl ⟨rfl, by simp⟩
  | true =>
    right
    have hc' := hc
    simp only [copyOk, Bool.and_eq_true, fbRangeOk, Bool.or_eq_true, beq_iff_eq, decide_eq_true_eq, or_assoc] at hc'
    obtain ⟨⟨⟨-, -⟩, h1⟩, h2⟩ := hc'
    obtain ⟨t, ht, hm⟩ := copyAll_ok (S := surface s) (b := bypp s) (src := rectOf sx sy w h) (dst := rectOf dx dy w h)
      (lines := copyLines (s32 sy).toNat (s32 dy).toNat (s32 h).toNat) (s := s) (by
        intro line hl
        rw [mem_copyLines] at hl
        exact ⟨row_inside hl h1, row_inside hl h2⟩)
    exact ⟨t, rfl, hm, ht, by simp [ht]⟩

/-- All `RectFill` can do (R298): fail before the first access, or complete with the rectangle appended. -/
theorem rectFill_cases (colour x y w h : Word) (s : State) :
    (fillOk s x y w h = false ∧ rectFill colour x y w h s = .ok none)
    ∨ ∃ t, fillOk s x y w h = true ∧ OnlyMemories s t
        ∧ fillAll (surface s) (bypp s) (fillRow (bypp s) (s32 w).toNat colour) (rectOf x y w h)
            (List.range (s32 h).toNat) s = .ok t
        ∧ rectFill colour x y w h s = .ok (some (append (rectOf x y w h) t)) := by
  unfold rectFill
  cases hc : fillOk s x y w h with
  | false => exact .inl ⟨rfl, by simp⟩
  | true =>
    right
    have hc' := hc
    simp only [fillOk, Bool.and_eq_true, fbRangeOk, Bool.or_eq_true, beq_iff_eq, decide_eq_true_eq, or_assoc] at hc'
    obtain ⟨-, h1⟩ := hc'
    obtain ⟨t, ht, hm⟩ := fillAll_ok (S := surface s) (b := bypp s) (row := fillRow (bypp s) (s32 w).toNat colour)
      (dst := rectOf x y w h) (lines := List.range (s32 h).toNat) (s := s) (by
        intro line hl
        rw [List.mem_range] at hl
        rw [fillRow_length]
        exact row_inside hl h1)
    exact ⟨t, rfl, hm, ht, by simp [ht]⟩

/-! ### Without guest accesses -/

/-- Without guest accesses a line of a copy inside the framebuffer writes the bytes of its source row. -/
theorem copyLine_of_quiet {S : Surface} {b : Nat} {src dst : Rect} {line : Nat} {s : State} (hq : Quiet s)
    (h1 : src.w * b = 0 ∨ (src.y + line) * S.stride + src.x * b + src.w * b ≤ s.cfg.fbSize)
    (h2 : src.w * b = 0 ∨ (dst.y + line) * S.stride + dst.x * b + src.w * b ≤ s.cfg.fbSize) :
    copyLine S b src dst line s = .ok { s with
      fb := Memory.writeBytes s.fb ((dst.y + line) * S.stride + dst.x * b)
        ((List.range (src.w * b)).map (fun k => Memory.read .fb s.fb ((src.y + line) * S.stride + src.x * b + k))) } := by
  unfold copyLine
  by_cases hz : src.w * b = 0
  · rw [hz]; rfl
  · rw [fbRead_of_quiet _ _ _ hq (h1.resolve_left hz)]
    simp only
    rw [fbWrite_of_quiet _ _ _ hq (by simpa using h2.resolve_left hz)]

/-- Without guest accesses the lines of a copy inside the framebuffer copy their rows one after the other, rows aliasing
or not (R296). -/
theorem copyAll_of_quiet {S : Surface} {b : Nat} {src dst : Rect} : ∀ {lines : List Nat} {s : State}, Quiet s →
    Memory.wf s.fb →
    (∀ line ∈ lines, (src.w * b = 0 ∨ (src.y + line) * S.stride + src.x * b + src.w * b ≤ s.cfg.fbSize)
      ∧ (src.w * b = 0 ∨ (dst.y + line) * S.stride + dst.x * b + src.w * b ≤ s.cfg.fbSize)) →
    ∃ m, copyAll S b src dst lines s = .ok { s with fb := m } ∧ Memory.wf m
      ∧ ∀ a, Memory.read .fb m a = lines.foldl (fun f j => copyRow ((src.y + j) * S.stride + src.x * b)
          ((dst.y + j) * S.stride + dst.x * b) (src.w * b) f) (Memory.read .fb s.fb) a
  | [], s, _, hw, _ => ⟨s.fb, rfl, hw, fun _ => rfl⟩
  | line :: lines, s, hq, hw, h => by
    obtain ⟨h1, h2⟩ := h line (List.mem_cons_self ..)
    rw [copyAll, copyLine_of_quiet hq h1 h2]
    obtain ⟨m, hm, hw', hr⟩ := copyAll_of_quiet (S := S) (b := b) (src := src) (dst := dst) (lines := lines)
      (s := { s with
        fb := Memory.writeBytes s.fb ((dst.y + line) * S.stride + dst.x * b)
          ((List.range (src.w * b)).map (fun k => Memory.read .fb s.fb ((src.y + line) * S.stride + src.x * b + k))) })
      hq (Memory.writeBytes_wf _ _ hw) (fun l hl => h l (List.mem_cons_of_mem _ hl))
    refine ⟨m, hm, hw', fun a => ?_⟩
    suffices hc : Memory.read .fb (Memory.writeBytes s.fb ((dst.y + line) * S.stride + dst.x * b)
          ((List.range (src.w * b)).map (fun k => Memory.read .fb s.fb ((src.y + line) * S.stride + src.x * b + k))))
        = copyRow ((src.y + line) * S.stride + src.x * b) ((dst.y + line) * S.stride + dst.x * b) (src.w * b)
            (Memory.read .fb s.fb) by
      rw [hr a, List.foldl_cons, ← hc]
    funext c
    rw [Memory.read_writeBytes]
    unfold copyRow
    simp only [List.length_map, List.length_range]
    split
    · rw [List.getD_eq_getElem?_getD, List.getElem?_map, List.getElem?_range (by omega)]
      rfl
    · rfl

end Sys2Proof.Machine
end

