-- ==== Sys2Proof/Laws/Effects.lean ====
section
/-! SUPPORT. What the effect of a FIFO command can do to the state, composed from its shared operations. -/

namespace Sys2Proof.Machine

/-- Everything a command's effect may do: it writes memories, the redraw queue, the traces, the log, the cursor
buffers, the interrupt status and the outcome, and it keeps what the invariants say of each. -/
structure CommandEffect (s t : State) : Prop where
  eq : t = { s with fifo := t.fifo, fb := t.fb, guestSched := t.guestSched, guestReads := t.guestReads,
                    queue := t.queue, out := t.out, diag := t.diag, logged := t.logged, cur := t.cur, irqStatus := t.irqStatus, fired := t.fired,
                    outcome := t.outcome }
  fifo_wf : Memory.wf s.fifo → Memory.wf t.fifo
  fb_wf : Memory.wf s.fb → Memory.wf t.fb
  out : s.out <+: t.out
  diag : s.diag <+: t.diag
  queue : s.queue.length ≤ 512 → t.queue.length ≤ 512
  logged : s.logged.Nodup → t.logged.Nodup
  andMask : s.cur.andMask.length ≤ s.cfg.cursorCap → t.cur.andMask.length ≤ s.cfg.cursorCap
  xorMask : s.cur.xorMask.length ≤ s.cfg.cursorCap → t.cur.xorMask.length ≤ s.cfg.cursorCap
  bits : s.irqStatus &&& ~~~(eventBits s.cfg) = 0 → t.irqStatus &&& ~~~(eventBits s.cfg) = 0
  status : s.irqStatus ≠ 0 → t.irqStatus ≠ 0
  fired : s.fired = true → t.fired = true
  recorded : s.cfg.irqStatusSetsUnmasked = false → t.irqStatus ≠ s.irqStatus → t.fired = true
  enabled : (s.fired = true → s.irqStatus &&& s.irqMask ≠ 0) → t.fired = true → t.irqStatus &&& s.irqMask ≠ 0

theorem CommandEffect.refl (s : State) : CommandEffect s s :=
  ⟨rfl, id, id, List.prefix_rfl, List.prefix_rfl, id, id, id, id, id, id, id, fun _ h => absurd rfl h, fun h => h⟩

theorem CommandEffect.trans {s t u : State} (h : CommandEffect s t) (k : CommandEffect t u) : CommandEffect s u := by
  have hc : t.cfg = s.cfg := by rw [h.eq]
  have hm : t.irqMask = s.irqMask := by rw [h.eq]
  have k1 := k.andMask; have k2 := k.xorMask; have k3 := k.bits; have k4 := k.recorded; have k5 := k.enabled
  rw [hc] at k1 k2 k3 k4
  rw [hm] at k5
  refine ⟨by rw [k.eq, h.eq], k.fifo_wf ∘ h.fifo_wf, k.fb_wf ∘ h.fb_wf, h.out.trans k.out, h.diag.trans k.diag,
    k.queue ∘ h.queue, k.logged ∘ h.logged, k1 ∘ h.andMask, k2 ∘ h.xorMask, k3 ∘ h.bits, k.status ∘ h.status,
    k.fired ∘ h.fired, fun hs hne => ?_, fun hs => k5 (h.enabled hs)⟩
  by_cases ht : t.irqStatus = s.irqStatus
  · exact k4 hs (by rwa [ht])
  · exact k.fired (h.recorded hs ht)

theorem OnlyMemories.commandEffect {s t : State} (h : OnlyMemories s t) : CommandEffect s t := by
  have hs : t.irqStatus = s.irqStatus := by rw [h.eq]
  have hf : t.fired = s.fired := by rw [h.eq]
  refine ⟨by rw [h.eq], h.fifo_wf, h.fb_wf, ?_, ?_, ?_, ?_, ?_, ?_, ?_, ?_, ?_, ?_, ?_⟩
  all_goals first
    | (rw [hs]; exact fun _ k => absurd rfl k)
    | (rw [hs, hf]; exact fun k => k)
    | (rw [h.eq]; try exact fun k => k)

/-- An update of fields that no invariant speaks of. -/
theorem setOutcome_commandEffect (o : CommandOutcome) (s : State) : CommandEffect s (setOutcome o s) :=
  ⟨rfl, id, id, List.prefix_rfl, List.prefix_rfl, id, id, id, id, id, id, id, fun _ h => absurd rfl h, fun h => h⟩

theorem emit_commandEffect (e : OutEvent) (s : State) : CommandEffect s (emit e s) :=
  ⟨rfl, id, id, List.prefix_append _ _, List.prefix_rfl, id, id, id, id, id, id, id, fun _ h => absurd rfl h,
    fun h => h⟩

theorem addDiag_commandEffect (d : Diag) (s : State) : CommandEffect s (addDiag d s) :=
  ⟨rfl, id, id, List.prefix_rfl, List.prefix_append _ _, id, id, id, id, id, id, id, fun _ h => absurd rfl h,
    fun h => h⟩

theorem flush_out_prefix (s : State) : s.out <+: (flush s).out := by
  unfold flush
  simp only
  split
  · exact List.prefix_rfl
  · exact List.prefix_append _ _

/-- An append keeps the queue within its capacity (`46_redraw_queue.md` R311). -/
theorem append_commandEffect (r : Rect) (s : State) : CommandEffect s (append r s) := by
  unfold append
  simp only
  split
  · exact ⟨rfl, id, id, flush_out_prefix s, List.prefix_rfl, fun _ => by simp [flush], id, id, id, id, id, id,
      fun _ h => absurd rfl h, fun h => h⟩
  · rename_i hne
    refine ⟨rfl, id, id, List.prefix_rfl, List.prefix_rfl, fun h => ?_, id, id, id, id, id, id,
      fun _ h => absurd rfl h, fun h => h⟩
    have : redrawCap = 512 := rfl
    simp only [List.length_append, List.length_cons, List.length_nil]
    omega

theorem fullSurfaceUpdate_commandEffect (s : State) : CommandEffect s (fullSurfaceUpdate s) := append_commandEffect _ s

/-- The once-only diagnostic keeps the log without repeats (`42_decoder.md` R220). -/
theorem logOnce_commandEffect (op : Word) (s : State) : CommandEffect s (logOnce op s) := by
  unfold logOnce
  split
  · exact .refl s
  · rename_i hn
    refine ⟨rfl, id, id, List.prefix_rfl, List.prefix_append _ _, id, fun h => ?_, id, id, id, id, id,
      fun _ h => absurd rfl h, fun h => h⟩
    rw [show ({ addDiag (.unknownCmd op) s with logged := s.logged ++ [op] } : State).logged = s.logged ++ [op] from rfl,
      List.nodup_append]
    exact ⟨h, by simp, by simp only [List.mem_singleton]; rintro a ha b rfl rfl; exact hn ha⟩

theorem skipped_commandEffect (op : Word) (s : State) : CommandEffect s (skipped op s) :=
  (logOnce_commandEffect op s).trans (setOutcome_commandEffect _ _)

theorem skipped_eq_skippedOnce (op : Word) (s : State) : skipped op s = skippedOnce op s := by
  unfold skipped logOnce skippedOnce
  split <;> rfl

theorem or_ne_zero {a b : Word} (h : a ≠ 0) : a ||| b ≠ 0 := fun k => h (BitVec.or_eq_zero_iff.1 k).1

theorem or_and_word (a b c : Word) : (a ||| b) &&& c = (a &&& c) ||| (b &&& c) := by
  ext k hk
  simp [Bool.and_or_distrib_right]

theorem and_or_ne_zero {a b m : Word} (h : b &&& m ≠ 0) : (a ||| b) &&& m ≠ 0 := by
  rw [or_and_word]
  exact fun k => h (BitVec.or_eq_zero_iff.1 k).2

/-- The three events' bits are event bits (`60_exceptions.md` R343). -/
theorem eventBits_cover {c : Config} {bit : Word}
    (h : bit = c.irq.anyFence ∨ bit = c.irq.fifoProgress ∨ bit = c.irq.fenceGoal) : bit &&& ~~~(eventBits c) = 0 := by
  unfold eventBits
  rcases h with rfl | rfl | rfl <;> ext k hk <;> simp <;> intros <;> simp_all

/-- All an interrupt event can do (R339): it adds its bit to the status, with `fired` where it is enabled. -/
theorem irqEvent_commandEffect {bit : Word} {s : State} (hb : bit &&& ~~~(eventBits s.cfg) = 0) :
    CommandEffect s (irqEvent bit s) := by
  have hbits : s.irqStatus &&& ~~~(eventBits s.cfg) = 0 → (s.irqStatus ||| bit) &&& ~~~(eventBits s.cfg) = 0 := by
    intro h
    rw [or_and_word, h, hb]
    rfl
  unfold irqEvent
  split
  · rename_i hm
    refine ⟨rfl, id, id, List.prefix_rfl, List.prefix_rfl, id, id, id, id, hbits, or_ne_zero, fun _ => rfl,
      fun _ _ => rfl, fun _ _ => and_or_ne_zero ?_⟩
    rwa [BitVec.and_comm]
  · split
    · rename_i hu
      refine ⟨rfl, id, id, List.prefix_rfl, List.prefix_rfl, id, id, id, id, hbits, or_ne_zero, id,
        fun hn => absurd hu (by simp [hn]), fun h hf => ?_⟩
      have := h hf
      simp only
      rw [or_and_word]
      exact or_ne_zero this
    · exact .refl s

/-- All an update command can do (R215, R216). -/
theorem updateOrFallback_commandEffect (op : CmdName) (x y w h : Word) (s : State) :
    CommandEffect s (updateOrFallback op x y w h s) := by
  unfold updateOrFallback rectUpdate
  split
  · rename_i t ht
    split at ht
    · cases ht
      exact (append_commandEffect _ s).trans (setOutcome_commandEffect _ _)
    · cases ht
  · exact ((addDiag_commandEffect _ s).trans (fullSurfaceUpdate_commandEffect _)).trans (setOutcome_commandEffect _ _)

/-- The two answers of `RectUpdate` (R294). -/
theorem rectUpdate_inside {x y w h : Word} {s : State} (hi : RectInside s x y w h) :
    rectUpdate x y w h s = some (append (argRect x y w h) s) := by
  unfold rectUpdate
  rw [if_pos (verifyRect_iff.2 hi), rectOf_eq hi]

theorem rectUpdate_outside {x y w h : Word} {s : State} (hi : ¬ RectInside s x y w h) :
    rectUpdate x y w h s = none := by
  unfold rectUpdate
  rw [if_neg (fun k => hi (verifyRect_iff.1 k))]

/-- The two forms of an update command, with its rectangle inside the surface and not. -/
theorem updateOrFallback_inside {op : CmdName} {x y w h : Word} {s : State} (hi : RectInside s x y w h) :
    updateOrFallback op x y w h s = setOutcome .applied (append (argRect x y w h) s) := by
  unfold updateOrFallback
  rw [rectUpdate_inside hi]

theorem updateOrFallback_outside {op : CmdName} {x y w h : Word} {s : State} (hi : ¬ RectInside s x y w h) :
    updateOrFallback op x y w h s
      = setOutcome .applied (fullSurfaceUpdate (addDiag (.badRect op x y w h) s)) := by
  unfold updateOrFallback
  rw [rectUpdate_outside hi]

/-- An append, as one update of the state. -/
theorem append_eq (r : Rect) (s : State) : append r s = { s with queue := queueAfter s r, out := outAfter s } := by
  unfold append queueAfter outAfter
  have : redrawCap = 512 := rfl
  rw [this]
  simp only
  split
  · rename_i h
    cases hi : s.invalidated <;> simp [flush, h, hi, updateEvent]
  · rename_i h
    rw [if_neg (fun k => h k.1)]

/-- The full-surface fallback, as one update of the state (`45_rect_engine.md` R295). -/
theorem fullSurfaceUpdate_eq (s : State) :
    fullSurfaceUpdate s = { s with queue := queueAfter s (fullRect s), out := outAfter s } := by
  unfold fullSurfaceUpdate
  rw [append_eq]
  rfl

/-- The checks of a copy and of a fill, as propositions (R296, R298). -/
theorem copyOk_iff {s : State} {sx sy dx dy w h : Word} : copyOk s sx sy dx dy w h = true ↔
    RectInside s sx sy w h ∧ RectInside s dx dy w h ∧ RowsInFramebuffer s sx sy w h ∧ RowsInFramebuffer s dx dy w h := by
  unfold copyOk
  rw [Bool.and_eq_true, Bool.and_eq_true, Bool.and_eq_true, verifyRect_iff, verifyRect_iff]
  constructor
  · rintro ⟨⟨⟨a, b⟩, c⟩, d⟩
    exact ⟨a, b, (fbRangeOk_iff a).1 c, (fbRangeOk_iff b).1 d⟩
  · rintro ⟨a, b, c, d⟩
    exact ⟨⟨⟨a, b⟩, (fbRangeOk_iff a).2 c⟩, (fbRangeOk_iff b).2 d⟩

theorem fillOk_iff {s : State} {x y w h : Word} : fillOk s x y w h = true ↔
    RectInside s x y w h ∧ RowsInFramebuffer s x y w h := by
  unfold fillOk
  rw [Bool.and_eq_true, verifyRect_iff]
  constructor
  · rintro ⟨a, c⟩
    exact ⟨a, (fbRangeOk_iff a).1 c⟩
  · rintro ⟨a, c⟩
    exact ⟨a, (fbRangeOk_iff a).2 c⟩

end Sys2Proof.Machine
end

