-- ==== Sys2Proof/Laws/Commands.lean ====
section
/-! SUPPORT. What `exec` of a FIFO command can do to the state. -/

namespace Sys2Proof.Machine

/-- All RECT_COPY can do (`42_decoder.md` R217). -/
theorem execRectCopy_commandEffect {a b c d e f : Word} {s t : State} (h : execRectCopy a b c d e f s = .next t) : CommandEffect s t := by
  unfold execRectCopy at h
  rcases rectCopy_cases a b c d e f s with ⟨-, hr⟩ | ⟨u, -, hm, -, hr⟩
  · rw [hr] at h
    cases h
    exact (fullSurfaceUpdate_commandEffect s).trans (skipped_commandEffect _ _)
  · rw [hr] at h
    cases h
    exact (hm.commandEffect.trans (append_commandEffect _ _)).trans (setOutcome_commandEffect _ _)

/-- All RECT_FILL can do (R219). -/
theorem execRectFill_commandEffect {a b c d e : Word} {s t : State} (h : execRectFill a b c d e s = .next t) : CommandEffect s t := by
  unfold execRectFill at h
  rcases rectFill_cases a b c d e s with ⟨-, hr⟩ | ⟨u, -, hm, -, hr⟩
  · rw [hr] at h
    simp only at h
    split at h
    · cases h
      exact (fullSurfaceUpdate_commandEffect s).trans (skipped_commandEffect _ _)
    · cases h
      exact (fullSurfaceUpdate_commandEffect s).trans (setOutcome_commandEffect _ _)
  · rw [hr] at h
    cases h
    exact (hm.commandEffect.trans (append_commandEffect _ _)).trans (setOutcome_commandEffect _ _)

theorem fifoWrite32_commandEffect {off : Nat} {v : Word} {s t : State} (h : fifoWrite32 off v s = .ok t) : CommandEffect s t :=
  (fifoWrite32_onlyMemories h).commandEffect

theorem toOutcome_next {x : Except Fault State} {t : State} (h : toOutcome x = .next t) : x = .ok t := by
  cases x <;> simp_all [toOutcome]

/-- All FENCE can do (R218). -/
theorem execFence_commandEffect {f : Word} {s t : State} (h : execFence f s = .next t) : CommandEffect s t := by
  unfold execFence at h
  have h := toOutcome_next h
  obtain ⟨s1, h1, h⟩ := except_bind_cases h
  obtain ⟨s2, h2, h⟩ := except_bind_cases h
  cases h
  refine ((fifoWrite32_commandEffect h1).trans (irqEvent_commandEffect (eventBits_cover (.inl rfl)))).trans ?_
  refine CommandEffect.trans ?_ (setOutcome_commandEffect _ _)
  unfold fenceGoal at h2
  split at h2
  · obtain ⟨⟨g, s3⟩, h3, h2⟩ := except_bind_cases h2
    refine (fifoRead32_onlyMemories h3).commandEffect.trans ?_
    simp only at h2
    cases h2
    split
    · exact irqEvent_commandEffect (eventBits_cover (.inr (.inr rfl)))
    · exact .refl _
  · cases h2
    exact .refl _

/-- A mask array stays inside its capacity (R247). -/
theorem overwriteMask_length_le {c : Nat} {a b : List Word} (h1 : a.length ≤ c) (h2 : b.length ≤ c) : (overwriteMask a b).length ≤ c := by
  simp [overwriteMask]; omega

/-- All DEFINE_CURSOR can do (`43_cursor_commands.md` R243). -/
theorem execDefineCursor_commandEffect {cid hx hy w h ab xb : Word} {p : List Word} {s t : State}
    (he : execDefineCursor cid hx hy w h ab xb p s = .next t) : CommandEffect s t := by
  unfold execDefineCursor at he
  simp only at he
  split at he
  · rename_i hv
    simp only [cursorValid, Bool.and_eq_true, decide_eq_true_eq] at hv
    cases he
    refine ⟨rfl, id, id, List.prefix_append _ _, List.prefix_rfl, id, id, fun k => ?_, fun k => ?_, id, id, id,
      fun _ h => absurd rfl h, fun h => h⟩
    · exact overwriteMask_length_le (by simp; omega) k
    · exact overwriteMask_length_le (by simp; omega) k
  · cases he
    exact skipped_commandEffect _ _

/-- All DEFINE_ALPHA_CURSOR can do (R246). -/
theorem execDefineAlphaCursor_commandEffect {cid hx hy w h : Word} {p : List Word} {s t : State}
    (he : execDefineAlphaCursor cid hx hy w h p s = .next t) : CommandEffect s t := by
  unfold execDefineAlphaCursor at he
  simp only at he
  split at he
  · rename_i hv
    simp only [cursorValid, Bool.and_eq_true, decide_eq_true_eq] at hv
    cases he
    refine ⟨rfl, id, id, List.prefix_append _ _, List.prefix_rfl, id, id, id, fun k => ?_, id, id, id,
      fun _ h => absurd rfl h, fun h => h⟩
    · exact overwriteMask_length_le (by simp; omega) k
  · cases he
    exact skipped_commandEffect _ _

/-- All a FIFO command can do. -/
theorem exec_commandEffect {c : Config} {i : Instr} {s t : State} (hi : isCommand c i = true) (h : exec i s = .next t) :
    CommandEffect s t := by
  cases i
  case update => cases h; exact updateOrFallback_commandEffect _ _ _ _ _ _
  case updateVerbose => cases h; exact updateOrFallback_commandEffect _ _ _ _ _ _
  case rectCopy => exact execRectCopy_commandEffect h
  case rectFill => exact execRectFill_commandEffect h
  case fence => exact execFence_commandEffect h
  case defineCursor => exact execDefineCursor_commandEffect h
  case defineAlphaCursor => exact execDefineAlphaCursor_commandEffect h
  all_goals first | (cases h; exact skipped_commandEffect _ _) | (simp [isCommand, encode] at hi)

end Sys2Proof.Machine
end

