-- ==== Sys2Proof/Laws/Tables.lean ====
section
/-! SUPPORT. What the tables answer under a valid configuration: which command an opcode word names, what a register
index selects. -/

namespace Sys2Proof

theorem CmdName.mem_all (n : CmdName) : n ∈ CmdName.all := by cases n <;> decide

theorem RegName.mem_all (n : RegName) : n ∈ RegName.all := by cases n <;> decide

theorem Config.valid_numbersOk {c : Config} (h : c.valid = true) : c.numbersOk = true := by
  rw [Config.valid, Bool.and_eq_true] at h
  exact h.2

theorem Config.valid_sizesOk {c : Config} (h : c.valid = true) : c.sizesOk = true := by
  rw [Config.valid, Bool.and_eq_true] at h
  exact h.1

/-- The size constraints of R9 and R72 that memory accesses rest on. -/
theorem Config.valid_sizes {c : Config} (h : c.valid = true) :
    c.fifoSize % 4 = 0 ∧ 10256 ≤ c.fifoSize ∧ c.fifoSize < 2 ^ 31 ∧ 4 * (c.hdr.fenceGoal + 1) ≤ c.fifoSize := by
  have h := Config.valid_sizesOk h
  simp only [Config.sizesOk, HeaderWords.toList, List.all_cons, Bool.and_eq_true, beq_iff_eq, decide_eq_true_eq] at h
  simp only [fifoMinHdr, fifoMinExtent] at h
  omega

/-- The constraints of R9 on the reset mode, the identity and the depths. -/
theorem Config.valid_mode {c : Config} (h : c.valid = true) :
    c.defaultWidth ≤ c.maxWidth ∧ c.maxWidth < 2 ^ 31 ∧ c.defaultHeight ≤ c.maxHeight ∧ c.maxHeight < 2 ^ 31
    ∧ c.defaultBpp ∈ c.bppLegal ∧ c.defaultBpp ≤ 32 ∧ c.svgaId ∈ c.supportedIds := by
  have h := Config.valid_sizesOk h
  simp only [Config.sizesOk, Bool.and_eq_true, decide_eq_true_eq, List.all_eq_true, List.contains_iff_mem] at h
  obtain ⟨⟨⟨⟨⟨⟨⟨⟨⟨⟨⟨⟨⟨⟨⟨⟨⟨⟨⟨_, _⟩, _⟩, _⟩, _⟩, hw⟩, _⟩, hh⟩, _⟩, _⟩, _⟩, hb⟩, hdw⟩, hdh⟩, hdb⟩, _⟩, _⟩, hid⟩, _⟩, _⟩ := h
  exact ⟨hdw, hw, hdh, hh, hdb, (hb _ hdb).2, hid⟩

/-- A command an opcode word names has that number. -/
theorem Config.opcode_of_lookup {c : Config} {op : Word} {n : CmdName} (h : c.lookupOpcode op = some n) :
    c.opcode n = some op := by
  have := List.find?_some h
  simpa using this

/-- No command has the number of an opcode word that names none. -/
theorem Config.lookup_eq_none {c : Config} {op : Word} :
    c.lookupOpcode op = none ↔ ∀ n : CmdName, c.opcode n ≠ some op := by
  simp only [Config.lookupOpcode, List.find?_eq_none, beq_iff_eq]
  exact ⟨fun h n => h n n.mem_all, fun h n _ => h n⟩

theorem nodup_filterMap_inj {α β : Type} {f : α → Option β} : ∀ {l : List α}, (l.filterMap f).Nodup →
    ∀ {a b : α} {v : β}, a ∈ l → b ∈ l → f a = some v → f b = some v → a = b
  | [], _, _, _, _, ha, _, _, _ => by simp at ha
  | x :: l, h, a, b, v, ha, hb, hfa, hfb => by
    have hl : (l.filterMap f).Nodup := by
      rw [List.filterMap_cons] at h
      split at h
      · exact h
      · exact (List.nodup_cons.1 h).2
    have hx : ∀ {y : α}, y ∈ l → f y = some v → f x ≠ some v := by
      intro y hy hfy hfx
      rw [List.filterMap_cons, hfx] at h
      exact (List.nodup_cons.1 h).1 (List.mem_filterMap.2 ⟨y, hy, hfy⟩)
    rcases List.mem_cons.1 ha with ea | ha
    · rcases List.mem_cons.1 hb with eb | hb
      · rw [ea, eb]
      · exact absurd (ea ▸ hfa) (hx hb hfb)
    · rcases List.mem_cons.1 hb with eb | hb
      · exact absurd (eb ▸ hfb) (hx ha hfa)
      · exact nodup_filterMap_inj hl ha hb hfa hfb

/-- Under a valid configuration a command's number names that command (`42_decoder.md` R214). -/
theorem Config.lookup_opcode {c : Config} (h : c.valid = true) {n : CmdName} {op : Word} (hn : c.opcode n = some op) :
    c.lookupOpcode op = some n := by
  have hd : (CmdName.all.filterMap c.opcode).Nodup := by
    have := Config.valid_numbersOk h
    simp only [Config.numbersOk, Bool.and_eq_true, decide_eq_true_eq] at this
    tauto
  cases hl : c.lookupOpcode op with
  | none => exact absurd hn (Config.lookup_eq_none.1 hl n)
  | some m => exact congrArg some (nodup_filterMap_inj hd m.mem_all n.mem_all (Config.opcode_of_lookup hl) hn)

/-- What a valid configuration says of register indices: named registers are apart, and outside both blocks. -/
theorem Config.valid_registers {c : Config} (h : c.valid = true) :
    (∀ m n : RegName, c.regIndex m = c.regIndex n → m = n)
    ∧ (∀ n : RegName, c.outsideBlocks (c.regIndex n) = true)
    ∧ (c.paletteBase + 768 ≤ c.scratchBase ∨ c.scratchBase + c.scratchSize ≤ c.paletteBase ∨ c.scratchSize = 0) := by
  have h := Config.valid_numbersOk h
  simp only [Config.numbersOk, Bool.and_eq_true, decide_eq_true_eq, List.all_eq_true, Bool.or_eq_true, beq_iff_eq] at h
  obtain ⟨⟨⟨⟨⟨⟨⟨⟨_, hn⟩, ho⟩, hb⟩, _⟩, _⟩, _⟩, _⟩, _⟩ := h
  exact ⟨fun m n e => List.inj_on_of_nodup_map hn m.mem_all n.mem_all e, fun n => ho n n.mem_all,
    by simp only [paletteLen] at hb; tauto⟩

/-- Under a valid configuration a named register's index selects it (`20_memory.md` R71). -/
theorem Config.classify_named {c : Config} (h : c.valid = true) (n : RegName) : c.classify (c.regIndex n) = .named n := by
  have hf : RegName.all.find? (fun m => c.regIndex m == c.regIndex n) = some n := by
    cases hf : RegName.all.find? (fun m => c.regIndex m == c.regIndex n) with
    | none =>
      have := List.find?_eq_none.1 hf n n.mem_all
      simp at this
    | some m =>
      have := List.find?_some hf
      exact congrArg some ((Config.valid_registers h).1 m n (by simpa using this))
  rw [Config.classify, hf]

theorem Config.find_named_none {c : Config} {index : Word} (h : ∀ n : RegName, c.regIndex n ≠ index) :
    RegName.all.find? (fun n => c.regIndex n == index) = none := by
  rw [List.find?_eq_none]
  intro n _
  simpa using h n

/-- Under a valid configuration the indices of the palette block select its entries (R71). -/
theorem Config.classify_palette {c : Config} (h : c.valid = true) {k : Nat} (hk : k < 768)
    (hb : c.paletteBase + k < 2 ^ 32) : c.classify (BitVec.ofNat 32 (c.paletteBase + k)) = .palette k := by
  have hi : (BitVec.ofNat 32 (c.paletteBase + k)).toNat = c.paletteBase + k := by
    rw [BitVec.toNat_ofNat, Nat.mod_eq_of_lt hb]
  rw [Config.classify, Config.find_named_none]
  · simp only [hi, paletteLen]
    rw [if_pos (by omega), show c.paletteBase + k - c.paletteBase = k by omega]
  · intro n e
    have := (Config.valid_registers h).2.1 n
    rw [e, Config.outsideBlocks, hi] at this
    simp only [Bool.and_eq_true, Bool.not_eq_true', Bool.and_eq_false_iff, decide_eq_false_iff_not] at this
    simp only [paletteLen] at this
    omega

/-- Under a valid configuration the indices of the scratch block select its registers (R71). -/
theorem Config.classify_scratch {c : Config} (h : c.valid = true) {i : Nat} (hi : i < c.scratchSize)
    (hb : c.scratchBase + i < 2 ^ 32) : c.classify (BitVec.ofNat 32 (c.scratchBase + i)) = .scratch i := by
  have he : (BitVec.ofNat 32 (c.scratchBase + i)).toNat = c.scratchBase + i := by
    rw [BitVec.toNat_ofNat, Nat.mod_eq_of_lt hb]
  have hd := (Config.valid_registers h).2.2
  rw [Config.classify, Config.find_named_none]
  · simp only [he, paletteLen]
    rw [if_neg (by omega), if_pos (by omega), show c.scratchBase + i - c.scratchBase = i by omega]
  · intro n e
    have := (Config.valid_registers h).2.1 n
    rw [e, Config.outsideBlocks, he] at this
    simp only [Bool.and_eq_true, Bool.not_eq_true', Bool.and_eq_false_iff, decide_eq_false_iff_not] at this
    simp only [paletteLen] at this
    omega

/-- The index of an invalid selection is the index asked for. -/
theorem Config.classify_invalid {c : Config} {index idx : Word} (h : c.classify index = .invalid idx) : idx = index := by
  unfold Config.classify at h
  repeat' split at h
  all_goals simp_all

/-- The element of a palette selection lies in the block. -/
theorem Config.classify_palette_lt {c : Config} {index : Word} {k : Nat} (h : c.classify index = .palette k) :
    k < 768 := by
  unfold Config.classify paletteLen at h
  repeat' split at h
  all_goals simp_all
  omega

/-- The element of a scratch selection lies in the block (R165). -/
theorem Config.classify_scratch_lt {c : Config} {index : Word} {i : Nat} (h : c.classify index = .scratch i) :
    i < c.scratchSize := by
  unfold Config.classify at h
  repeat' split at h
  all_goals simp_all
  omega

end Sys2Proof
end

