-- ==== Sys2Proof/Laws/Decode.lean ====
section
/-! SUPPORT. The cases of the command decoder: a complete command, an incomplete one, an unknown opcode. -/

namespace Sys2Proof

/-- The decoder on an opcode word that names a command (R92). -/
theorem decodeCommand_known {c : Config} {op : Word} {n : CmdName} (h : c.lookupOpcode op = some n) (ws : List Word) :
    decodeCommand c (op :: ws)
      = if ws.length < c.fixedArgs n then .error .incomplete
        else if (ws.drop (c.fixedArgs n)).length < c.payloadWords n (ws.take (c.fixedArgs n)) then .error .incomplete
        else .ok (buildCommand n (ws.take (c.fixedArgs n))
            ((ws.drop (c.fixedArgs n)).take (c.payloadWords n (ws.take (c.fixedArgs n)))),
          (ws.drop (c.fixedArgs n)).drop (c.payloadWords n (ws.take (c.fixedArgs n)))) := by
  simp only [decodeCommand, h]

/-- The decoder on an opcode word that names none (R280). -/
theorem decodeCommand_unknown {c : Config} {op : Word} (h : c.lookupOpcode op = none) (ws : List Word) :
    decodeCommand c (op :: ws) = .ok (.unknown op, ws) := by
  simp only [decodeCommand, h]

/-- A command whose fixed and payload words are all there. -/
theorem decodeCommand_complete {c : Config} {n : CmdName} {op : Word} (hl : c.lookupOpcode op = some n)
    {args payload rest : List Word} (ha : args.length = c.fixedArgs n) (hp : payload.length = c.payloadWords n args) :
    decodeCommand c (op :: (args ++ (payload ++ rest))) = .ok (buildCommand n args payload, rest) := by
  rw [decodeCommand_known hl, if_neg (by simp [ha]), List.take_left' ha, List.drop_left' ha, if_neg (by simp [hp]),
    List.take_left' hp, List.drop_left' hp]

/-- A command with too few fixed words. -/
theorem decodeCommand_short {c : Config} {n : CmdName} {op : Word} (hl : c.lookupOpcode op = some n) {ws : List Word}
    (h : ws.length < c.fixedArgs n) : decodeCommand c (op :: ws) = .error .incomplete := by
  rw [decodeCommand_known hl, if_pos h]

/-- A command with too few payload words. -/
theorem decodeCommand_short_payload {c : Config} {n : CmdName} {op : Word} (hl : c.lookupOpcode op = some n)
    {args ws : List Word} (ha : args.length = c.fixedArgs n) (hp : ws.length < c.payloadWords n args) :
    decodeCommand c (op :: (args ++ ws)) = .error .incomplete := by
  rw [decodeCommand_known hl, if_neg (by simp [ha]), List.take_left' ha, List.drop_left' ha, if_pos hp]

/-- The mask length, spelled out (R240). -/
theorem maskWords_eq (width bpp height : Word) :
    maskWords width bpp height = (width.toNat * bpp.toNat + 31) / 32 * height.toNat := by
  simp [maskWords, ceilDiv]

end Sys2Proof
end

