-- ==== Sys2Proof/Laws/Registers.lean ====
section
/-! SUPPORT. What `exec` of a register or port operation can do to the state. -/

namespace Sys2Proof.Machine

/-- Everything a register or port operation other than the acknowledge may do: it writes the register bank, the traces,
the value delivered, and it may start an invocation; and it keeps what the invariants say of each. -/
structure RegisterEffect (s t : State) : Prop where
  eq : t = { s with
    enable := t.enable, config := t.config, width := t.width, height := t.height, bpp := t.bpp,
    pitchlock := t.pitchlock, pitchlockCount := t.pitchlockCount, guestId := t.guestId, displayId := t.displayId,
    scratch := t.scratch, irqMask := t.irqMask, index := t.index, svgaId := t.svgaId, cursorId := t.cursorId, cursorX := t.cursorX, cursorY := t.cursorY, cursorOn := t.cursorOn,
    syncing := t.syncing, invalidated := t.invalidated, out := t.out, diag := t.diag, guestData := t.guestData,
    trigger := t.trigger, steps := t.steps, progressed := t.progressed, fired := t.fired }
  out : s.out <+: t.out
  diag : s.diag <+: t.diag
  scratch : t.scratch.length = s.scratch.length
  mode : ModeInv s → ModeInv t
  running : (t.trigger = s.trigger ∧ t.fired = s.fired ∧ t.syncing = s.syncing)
    ∨ (t.trigger = some .sync ∧ t.fired = false)

/-- A change of the value delivered, or of a field no invariant speaks of. -/
theorem RegisterEffect.plain {s t : State}
    (eq : t = { s with
      enable := t.enable, config := t.config, pitchlock := t.pitchlock, pitchlockCount := t.pitchlockCount,
      guestId := t.guestId, displayId := t.displayId, irqMask := t.irqMask, index := t.index, cursorId := t.cursorId,
      cursorX := t.cursorX, cursorY := t.cursorY, cursorOn := t.cursorOn, invalidated := t.invalidated, out := t.out,
      diag := t.diag, guestData := t.guestData })
    (out : s.out <+: t.out) (diag : s.diag <+: t.diag) : RegisterEffect s t := by
  refine ⟨?_, out, diag, ?_, ?_, ?_⟩
  · rw [eq]
  · rw [eq]
  · rw [eq]; exact id
  · left; rw [eq]; exact ⟨rfl, rfl, rfl⟩

theorem returnData_registerEffect (v : Word) (s : State) : RegisterEffect s (returnData v s) :=
  .plain rfl List.prefix_rfl List.prefix_rfl

theorem addDiag_registerEffect (d : Diag) (s : State) : RegisterEffect s (addDiag d s) :=
  .plain rfl List.prefix_rfl (List.prefix_append _ _)

/-- A change of the mode or the identity. -/
theorem RegisterEffect.of_mode {s t : State}
    (eq : t = { s with width := t.width, height := t.height, bpp := t.bpp, svgaId := t.svgaId,
                       pitchlockCount := t.pitchlockCount, invalidated := t.invalidated })
    (mode : ModeInv s → ModeInv t) : RegisterEffect s t := by
  refine ⟨?_, ?_, ?_, ?_, mode, ?_⟩
  · rw [eq]
  · rw [eq]
  · rw [eq]
  · rw [eq]
  · left; rw [eq]; exact ⟨rfl, rfl, rfl⟩

/-- All an access of a named register can do. -/
theorem accessNamed_registerEffect {acc : RegAccess} {s t : State} (n : RegName) (h : accessNamed acc s n = .next t) :
    RegisterEffect s t := by
  cases acc with
  | read => cases n <;> (cases h; exact returnData_registerEffect _ s)
  | write v =>
    cases n <;> simp only [accessNamed, execRegId, execRegWidth, execRegHeight, execRegBitsPerPixel, execRegConfigDone,
      execRegSync] at h
    case id =>
      split at h <;> cases h
      · exact .of_mode rfl fun k => ⟨k.1, k.2.1, k.2.2.1, by assumption⟩
      · exact addDiag_registerEffect _ s
    case width =>
      split at h <;> cases h
      · exact .of_mode rfl fun k => ⟨by assumption, k.2⟩
      · exact addDiag_registerEffect _ s
    case height =>
      split at h <;> cases h
      · exact .of_mode rfl fun k => ⟨k.1, by assumption, k.2.2⟩
      · exact addDiag_registerEffect _ s
    case bitsPerPixel =>
      split at h <;> cases h
      · exact .of_mode rfl fun k => ⟨k.1, k.2.1, by assumption, k.2.2.2⟩
      · exact addDiag_registerEffect _ s
    case configDone =>
      split at h <;> cases h
      · exact .plain rfl (List.prefix_append _ _) List.prefix_rfl
      · exact .plain rfl List.prefix_rfl List.prefix_rfl
    case sync =>
      cases h
      exact ⟨rfl, List.prefix_rfl, List.prefix_rfl, rfl, id, .inr ⟨rfl, rfl⟩⟩
    all_goals
      cases h
      first
      | exact .plain rfl List.prefix_rfl List.prefix_rfl
      | exact .plain rfl (List.prefix_append _ _) List.prefix_rfl
      | exact addDiag_registerEffect _ s

theorem execRegScratch_registerEffect {i : Nat} {acc : RegAccess} {s t : State} (h : execRegScratch i acc s = .next t) :
    RegisterEffect s t := by
  unfold execRegScratch at h
  split at h <;> split at h <;> cases h
  · exact returnData_registerEffect _ s
  · exact ⟨rfl, List.prefix_rfl, List.prefix_rfl, by simp, id, .inl ⟨rfl, rfl, rfl⟩⟩
  · exact .plain rfl List.prefix_rfl (List.prefix_append _ _)
  · exact addDiag_registerEffect _ s

theorem execRegPalette_registerEffect (k : Nat) {acc : RegAccess} {s t : State} (h : execRegPalette k acc s = .next t) :
    RegisterEffect s t := by
  unfold execRegPalette at h
  split at h <;> cases h <;> exact .plain rfl List.prefix_rfl List.prefix_rfl

theorem execRegInvalid_registerEffect {index : Word} {acc : RegAccess} {s t : State}
    (h : execRegInvalid index acc s = .next t) : RegisterEffect s t := by
  unfold execRegInvalid at h
  split at h <;> cases h <;> exact .plain rfl List.prefix_rfl (List.prefix_append _ _)

/-- All a value-port operation can do (`40_register_bank.md` R122, R123). -/
theorem accessSelected_registerEffect {acc : RegAccess} {s t : State} (h : accessSelected acc s = .next t) :
    RegisterEffect s t := by
  unfold accessSelected at h
  split at h
  · exact accessNamed_registerEffect _ h
  · exact execRegPalette_registerEffect _ h
  · exact execRegScratch_registerEffect h
  · exact execRegInvalid_registerEffect h

/-- All lowering the line can do. -/
theorem lowerLine_cases (s : State) : (s.irqLine = true ∧ lowerLine s = { s with irqLine := false, out := s.out ++ [.irqLower] })
    ∨ (s.irqLine = false ∧ lowerLine s = s) := by
  unfold lowerLine
  cases h : s.irqLine with
  | true => exact .inl ⟨rfl, rfl⟩
  | false => exact .inr ⟨rfl, rfl⟩

/-- All an acknowledge can do (`60_exceptions.md` R341): bits cleared; the line and its report where none is left. -/
theorem acknowledge_cases (v : Word) (s : State) :
    (s.irqStatus &&& ~~~v = 0 ∧ s.irqLine = true
      ∧ acknowledge v s = { s with irqStatus := 0, irqLine := false, out := s.out ++ [.irqLower] })
    ∨ ((s.irqStatus &&& ~~~v ≠ 0 ∨ s.irqLine = false)
      ∧ acknowledge v s = { s with irqStatus := s.irqStatus &&& ~~~v }) := by
  unfold acknowledge
  simp only
  split
  · rename_i hz
    rcases lowerLine_cases { s with irqStatus := s.irqStatus &&& ~~~v } with ⟨hl, h⟩ | ⟨hl, h⟩ <;> rw [h]
    · exact .inl ⟨hz, hl, by rw [hz]⟩
    · exact .inr ⟨.inr hl, rfl⟩
  · rename_i hz
    exact .inr ⟨.inl hz, rfl⟩

/-- All a register or port operation can do. -/
theorem exec_registerEffect {c : Config} {i : Instr} {s t : State} (hi : isCommand c i = false) (h : exec i s = .next t) :
    RegisterEffect s t ∨ ∃ v : Word, i = .portIrqStatusWrite v ∧ t = acknowledge v s := by
  cases i
  case portIrqStatusWrite v => cases h; exact .inr ⟨v, rfl, rfl⟩
  case portIndexWrite v => cases h; exact .inl (.plain rfl List.prefix_rfl List.prefix_rfl)
  case portIndexRead => cases h; exact .inl (returnData_registerEffect _ s)
  case portIrqStatusRead => cases h; exact .inl (returnData_registerEffect _ s)
  case portValueRead => exact .inl (accessSelected_registerEffect h)
  case portValueWrite => exact .inl (accessSelected_registerEffect h)
  case regPalette k a => exact .inl (execRegPalette_registerEffect k h)
  case regScratch => exact .inl (execRegScratch_registerEffect h)
  case regInvalid => exact .inl (execRegInvalid_registerEffect h)
  case regId a => exact .inl (accessNamed_registerEffect (acc := a) .id h)
  case regEnable a => exact .inl (accessNamed_registerEffect (acc := a) .enable h)
  case regWidth a => exact .inl (accessNamed_registerEffect (acc := a) .width h)
  case regHeight a => exact .inl (accessNamed_registerEffect (acc := a) .height h)
  case regMaxWidth a => exact .inl (accessNamed_registerEffect (acc := a) .maxWidth h)
  case regMaxHeight a => exact .inl (accessNamed_registerEffect (acc := a) .maxHeight h)
  case regBitsPerPixel a => exact .inl (accessNamed_registerEffect (acc := a) .bitsPerPixel h)
  case regRedMask a => exact .inl (accessNamed_registerEffect (acc := a) .redMask h)
  case regGreenMask a => exact .inl (accessNamed_registerEffect (acc := a) .greenMask h)
  case regBlueMask a => exact .inl (accessNamed_registerEffect (acc := a) .blueMask h)
  case regBytesPerLine a => exact .inl (accessNamed_registerEffect (acc := a) .bytesPerLine h)
  case regFbStart a => exact .inl (accessNamed_registerEffect (acc := a) .fbStart h)
  case regFbSize a => exact .inl (accessNamed_registerEffect (acc := a) .fbSize h)
  case regCapabilities a => exact .inl (accessNamed_registerEffect (acc := a) .capabilities h)
  case regMemStart a => exact .inl (accessNamed_registerEffect (acc := a) .memStart h)
  case regMemSize a => exact .inl (accessNamed_registerEffect (acc := a) .memSize h)
  case regConfigDone a => exact .inl (accessNamed_registerEffect (acc := a) .configDone h)
  case regSync a => exact .inl (accessNamed_registerEffect (acc := a) .sync h)
  case regBusy a => exact .inl (accessNamed_registerEffect (acc := a) .busy h)
  case regGuestId a => exact .inl (accessNamed_registerEffect (acc := a) .guestId h)
  case regCursorId a => exact .inl (accessNamed_registerEffect (acc := a) .cursorId h)
  case regCursorX a => exact .inl (accessNamed_registerEffect (acc := a) .cursorX h)
  case regCursorY a => exact .inl (accessNamed_registerEffect (acc := a) .cursorY h)
  case regCursorOn a => exact .inl (accessNamed_registerEffect (acc := a) .cursorOn h)
  case regScratchSize a => exact .inl (accessNamed_registerEffect (acc := a) .scratchSize h)
  case regPitchlock a => exact .inl (accessNamed_registerEffect (acc := a) .pitchlock h)
  case regIrqmask a => exact .inl (accessNamed_registerEffect (acc := a) .irqmask h)
  case regDisplayId a => exact .inl (accessNamed_registerEffect (acc := a) .displayId h)
  case regDisplayIsPrimary a => exact .inl (accessNamed_registerEffect (acc := a) .displayIsPrimary h)
  case regDisplayPositionX a => exact .inl (accessNamed_registerEffect (acc := a) .displayPositionX h)
  case regDisplayPositionY a => exact .inl (accessNamed_registerEffect (acc := a) .displayPositionY h)
  case regDisplayWidth a => exact .inl (accessNamed_registerEffect (acc := a) .displayWidth h)
  case regDisplayHeight a => exact .inl (accessNamed_registerEffect (acc := a) .displayHeight h)
  case regCap2 a => exact .inl (accessNamed_registerEffect (acc := a) .cap2 h)
  all_goals simp [isCommand, encode] at hi

end Sys2Proof.Machine
end

