-- ==== Sys2Proof/Laws/Ring.lean ====
section
/-! SUPPORT. The ring cursor without guest accesses: what `length()`, `read_word()`, runs of it and `Take` answer, as
functions of the ring's contents. -/

namespace Sys2Proof.Machine

@[simp] theorem loadLatches_cfg (s : State) : (loadLatches s).cfg = s.cfg := rfl
@[simp] theorem loadLatches_fifo (s : State) : (loadLatches s).fifo = s.fifo := rfl
@[simp] theorem loadLatches_guestSched (s : State) : (loadLatches s).guestSched = s.guestSched := rfl
@[simp] theorem loadLatches_trigger (s : State) : (loadLatches s).trigger = s.trigger := rfl
@[simp] theorem loadLatches_steps (s : State) : (loadLatches s).steps = s.steps := rfl
@[simp] theorem loadLatches_progressed (s : State) : (loadLatches s).progressed = s.progressed := rfl
@[simp] theorem loadLatches_fired (s : State) : (loadLatches s).fired = s.fired := rfl
@[simp] theorem loadLatches_fifoMin (s : State) : (loadLatches s).fifoMin = headerMin s := rfl
@[simp] theorem loadLatches_fifoMax (s : State) : (loadLatches s).fifoMax = headerMax s := rfl
@[simp] theorem loadLatches_fifoNext (s : State) : (loadLatches s).fifoNext = headerNext s := rfl
@[simp] theorem loadLatches_fifoStop (s : State) : (loadLatches s).fifoStop = headerStop s := rfl

/-- `length()` without guest accesses: the latches are loaded from the header, and nothing else changes. -/
theorem length_of_quiet {s : State} (hq : Quiet s) (hs : 16 ≤ s.cfg.fifoSize) :
    length s = .ok (pending s, loadLatches s) := by
  have hr : ∀ off : Nat, off % 4 = 0 → off + 4 ≤ 16 → fifoRead32 off s = .ok (Memory.read32 .fifo s.fifo off, s) := by
    intro off h1 h2
    rw [fifoRead32_ok h1 (by omega), tick_of_quiet hq]
  unfold length
  rw [hr _ (by decide) (by decide), except_bind_ok]
  simp only
  rw [hr _ (by decide) (by decide), except_bind_ok]
  simp only
  rw [hr _ (by decide) (by decide), except_bind_ok]
  simp only
  rw [hr _ (by decide) (by decide), except_bind_ok]
  rfl

/-- A positive pending length means that the latches `length()` loads are ready. -/
theorem latchesReady_of_pending {s : State} (h : pending s ≠ 0) :
    LatchesReady (loadLatches s) := by
  have hv := ringValid_of_ringLength_pos h
  unfold LatchesReady
  simp only [loadLatches_cfg, loadLatches_fifoMin, loadLatches_fifoMax, loadLatches_fifoStop]
  omega

/-- `read_word()` on ready latches without guest accesses. -/
theorem readWord_of_quiet {s : State} (hq : Quiet s) (hl : LatchesReady s) :
    readWord s = .ok (Memory.read32 .fifo s.fifo s.fifoStop.toNat,
      { s with fifoStop := nextStop s.fifoMin s.fifoMax s.fifoStop,
               fifo := Memory.write32 s.fifo 12 (nextStop s.fifoMin s.fifoMax s.fifoStop) }) := by
  obtain ⟨h1, h2, h3, h4, h5, h6, h7⟩ := hl
  unfold readWord
  rw [fifoRead32_ok h3 (by omega), tick_of_quiet hq, except_bind_ok]
  simp only
  rw [fifoWrite32_ok (by decide) (by simp only [hdrStop]; omega),
    tick_of_quiet (s := { s with fifoStop := nextStop s.fifoMin s.fifoMax s.fifoStop }) hq, except_bind_ok]
  rfl

/-- The consumer position stays inside a valid ring. -/
theorem ringAfter_inside {mn mx : Word} (hmn : mn.toNat % 4 = 0) (hmx : mx.toNat % 4 = 0) :
    ∀ (n : Nat) {stop : Word}, stop.toNat % 4 = 0 → mn.toNat ≤ stop.toNat → stop.toNat < mx.toNat →
      (ringAfter mn mx stop n).toNat % 4 = 0 ∧ mn.toNat ≤ (ringAfter mn mx stop n).toNat
      ∧ (ringAfter mn mx stop n).toNat < mx.toNat
  | 0, _, h1, h2, h3 => ⟨h1, h2, h3⟩
  | n + 1, _, h1, h2, h3 => by
    obtain ⟨k1, k2, k3⟩ := nextStop_inside hmn hmx h1 h2 h3
    exact ringAfter_inside hmn hmx n k1 k2 k3

theorem ringAfter_add (mn mx : Word) : ∀ (n k : Nat) (stop : Word),
    ringAfter mn mx stop (n + k) = ringAfter mn mx (ringAfter mn mx stop n) k
  | 0, k, stop => by rw [Nat.zero_add, ringAfter]
  | n + 1, k, stop => by
    rw [Nat.succ_add, ringAfter, ringAfter, ringAfter_add mn mx n k]

@[simp] theorem ringWords_length (m : Memory) (mn mx : Word) : ∀ (n : Nat) (stop : Word),
    (ringWords m mn mx stop n).length = n
  | 0, _ => rfl
  | n + 1, stop => by rw [ringWords, List.length_cons, ringWords_length m mn mx n]

theorem ringWords_add (m : Memory) (mn mx : Word) : ∀ (n k : Nat) (stop : Word),
    ringWords m mn mx stop (n + k) = ringWords m mn mx stop n ++ ringWords m mn mx (ringAfter mn mx stop n) k
  | 0, k, stop => by rw [Nat.zero_add, ringWords, ringAfter, List.nil_append]
  | n + 1, k, stop => by
    rw [Nat.succ_add, ringWords, ringWords, ringAfter, ringWords_add m mn mx n k, List.cons_append]

/-- The words of a ring behind the header do not depend on the header word STOP. -/
theorem ringWords_write_stop (m : Memory) {mn mx : Word} (hmn : mn.toNat % 4 = 0)
    (hmx : mx.toNat % 4 = 0) (h16 : 16 ≤ mn.toNat) (v : Word) : ∀ (n : Nat) {stop : Word}, stop.toNat % 4 = 0 →
      mn.toNat ≤ stop.toNat → stop.toNat < mx.toNat →
      ringWords (Memory.write32 m 12 v) mn mx stop n = ringWords m mn mx stop n
  | 0, _, _, _, _ => rfl
  | n + 1, stop, h1, h2, h3 => by
    obtain ⟨k1, k2, k3⟩ := nextStop_inside hmn hmx h1 h2 h3
    rw [ringWords, ringWords, ringWords_write_stop m hmn hmx h16 v n k1 k2 k3,
      Memory.read32_write32_of_disjoint m 12 v stop.toNat (by omega)]

/-- A run of `read_word()` without guest accesses, on a ring whose header word STOP was written from the latch: it answers
the ring's words and moves `stop` past them, in the latch and in the header. -/
theorem readWords_of_quiet : ∀ (n : Nat) {s : State}, Quiet s → LatchesReady s → Memory.wf s.fifo →
    Memory.write32 s.fifo 12 s.fifoStop = s.fifo →
    readWords n s = .ok (ringWords s.fifo s.fifoMin s.fifoMax s.fifoStop n,
      { s with fifoStop := ringAfter s.fifoMin s.fifoMax s.fifoStop n,
               fifo := Memory.write32 s.fifo 12 (ringAfter s.fifoMin s.fifoMax s.fifoStop n) })
  | 0, s, _, _, hm, he => by
    simp only [readWords, ringWords, ringAfter, he]
  | n + 1, s, hq, hl, hm, he => by
    have hl' := hl
    obtain ⟨h1, h2, h3, h4, h5, h6, h7⟩ := hl'
    obtain ⟨k1, k2, k3⟩ := nextStop_inside h1 h2 h3 h5 h6
    rw [readWords, readWord_of_quiet hq hl, except_bind_ok]
    simp only
    rw [readWords_of_quiet n (s := { s with
        fifoStop := nextStop s.fifoMin s.fifoMax s.fifoStop,
        fifo := Memory.write32 s.fifo 12 (nextStop s.fifoMin s.fifoMax s.fifoStop) })
      hq ⟨h1, h2, k1, h4, k2, k3, h7⟩ (Memory.write32_wf _ _ hm) (Memory.write32_write32 hm _ _ _), except_bind_ok]
    simp only [ringWords, ringAfter, Memory.write32_write32 hm, ringWords_write_stop s.fifo h1 h2 h4 _ n k1 k2 k3]

/-- `Take(n)` and its reads without guest accesses, where the words are all pending. -/
theorem takeWords_of_quiet {n : Nat} {s : State} (hq : Quiet s) (hl : LatchesReady s) (hm : Memory.wf s.fifo)
    (he : Memory.write32 s.fifo 12 s.fifoStop = s.fifo) (hr : (n : Int) ≤ s.rem) :
    takeWords n s = .ok (some (ringWords s.fifo s.fifoMin s.fifoMax s.fifoStop n),
      { s with rem := s.rem - n,
               fifoStop := ringAfter s.fifoMin s.fifoMax s.fifoStop n,
               fifo := Memory.write32 s.fifo 12 (ringAfter s.fifoMin s.fifoMax s.fifoStop n) }) := by
  unfold takeWords
  simp only
  rw [if_neg (by omega), readWords_of_quiet n (s := { s with rem := s.rem - n }) hq hl hm he, except_bind_ok]

/-- `Take(n)` without guest accesses, where they are not: the command is rewound. -/
theorem takeWords_short_of_quiet {n : Nat} {s : State} (hq : Quiet s) (hs : 16 ≤ s.cfg.fifoSize) (hr : s.rem < n) :
    takeWords n s = .ok (none,
      { s with rem := s.rem - n, fifoStop := s.cmdStart, fifo := Memory.write32 s.fifo 12 s.cmdStart,
               outcome := some .rewound }) := by
  unfold takeWords
  simp only
  rw [if_pos (by omega)]
  unfold rewind
  rw [fifoWrite32_ok (by decide) (by simp only [hdrStop]; omega),
    tick_of_quiet (s := { s with rem := s.rem - n, fifoStop := s.cmdStart }) hq, except_bind_ok]
  rfl

end Sys2Proof.Machine
end

