-- ==== Sys2Proof/Laws/Step.lean ====
section
/-! SUPPORT. What a pass of the drain loop, the end of an invocation, and a step can do to the state. -/

namespace Sys2Proof.Machine

/-! ### The decoders give the right kind of instruction -/

theorem decodePort_isCommand {c : Config} {a : PortAccess} {i : Instr} (h : decodePort c a = .ok i) :
    isCommand c i = false := by
  unfold decodePort at h
  repeat' split at h
  all_goals first | (cases h; rfl) | cases h

theorem buildCommand_isCommand (c : Config) (n : CmdName) (args payload : List Word) :
    isCommand c (buildCommand n args payload) = true := by
  cases n <;> rfl

theorem fetch_isCommand {L : Nat} {s t : State} {i : Instr} (c : Config) (h : fetch L s = .ok (some i, t)) :
    isCommand c i = true := by
  unfold fetch at h
  obtain ⟨⟨op, s1⟩, h1, h⟩ := except_bind_cases h
  simp only at h
  split at h
  · cases h; rfl
  · unfold fetchArgs at h
    obtain ⟨⟨args, s2⟩, h2, h⟩ := except_bind_cases h
    simp only at h
    split at h
    · cases h
    · obtain ⟨⟨payload, s3⟩, h3, h⟩ := except_bind_cases h
      simp only at h
      split at h <;> cases h
      exact buildCommand_isCommand _ _ _ _

/-! ### A pass -/

/-- Two states agree on everything but the memories, the guest's schedule, the latches and the decoder's own
variables. -/
structure PassEffect (s t : State) : Prop where
  eq : t = { s with fifo := t.fifo, fb := t.fb, guestSched := t.guestSched, guestReads := t.guestReads,
                    fifoMin := t.fifoMin, fifoMax := t.fifoMax, fifoNext := t.fifoNext, fifoStop := t.fifoStop, steps := t.steps, cmdStart := t.cmdStart,
                    rem := t.rem, outcome := t.outcome }
  fifo_wf : Memory.wf s.fifo → Memory.wf t.fifo
  fb_wf : Memory.wf s.fb → Memory.wf t.fb

theorem PassEffect.refl (s : State) : PassEffect s s := ⟨rfl, id, id⟩

theorem PassEffect.trans {s t u : State} (h : PassEffect s t) (k : PassEffect t u) : PassEffect s u :=
  ⟨by rw [k.eq, h.eq], k.fifo_wf ∘ h.fifo_wf, k.fb_wf ∘ h.fb_wf⟩

theorem OnlyFetch.passEffect {s t : State} (h : OnlyFetch s t) : PassEffect s t := ⟨by rw [h.eq], h.fifo_wf, h.fb_wf⟩

theorem length_passEffect {s t : State} {L : Nat} (h : length s = .ok (L, t)) : PassEffect s t := by
  obtain ⟨u, hm, ht, -⟩ := length_cases h
  refine hm.onlyFetch.passEffect.trans ?_
  rw [ht]
  exact ⟨rfl, id, id⟩

/-- All a pass of the drain loop can do (`42_decoder.md` R210): end the invocation, or run one command. -/
theorem drainPass_cases {s t : State} (h : drainPass s = .next t) :
    (∃ u, PassEffect s u ∧ t = finishInvocation u)
    ∨ ∃ u v, PassEffect s u ∧ CommandEffect u v ∧ t = { v with progressed := true } := by
  unfold drainPass at h
  split at h
  · cases h
    exact .inl ⟨s, .refl s, rfl⟩
  · split at h
    · cases h
    · rename_i L u hl
      have hp := length_passEffect hl
      split at h
      · cases h
        exact .inl ⟨u, hp, rfl⟩
      · split at h
        · cases h
        · rename_i r hf
          obtain ⟨i, v⟩ := r
          have hp' := (hp.trans (PassEffect.mk rfl id id : PassEffect u { u with steps := u.steps + 1 })).trans
            (fetch_onlyFetch hf).passEffect
          cases i with
          | none =>
            cases h
            exact .inl ⟨v, hp', rfl⟩
          | some i =>
            simp only [finishPass] at h
            split at h
            · rename_i w hw
              cases h
              exact .inr ⟨v, w, hp', exec_commandEffect (fetch_isCommand s.cfg hf) hw, rfl⟩
            · cases h
            · cases h

/-! ### The end of an invocation -/

/-- Everything the end of an invocation may do (R212, `46_redraw_queue.md` R316): it writes the interrupt status and
line, the output trace, the redraw queue, and it clears the flags of the invocation. -/
structure EndEffect (s t : State) : Prop where
  eq : t = { s with irqLine := t.irqLine, out := t.out, syncing := false, trigger := none, irqStatus := t.irqStatus,
                    fired := t.fired, queue := t.queue, invalidated := t.invalidated }
  out : s.out <+: t.out
  bits : s.irqStatus &&& ~~~(eventBits s.cfg) = 0 → t.irqStatus &&& ~~~(eventBits s.cfg) = 0
  status : s.irqStatus ≠ 0 → t.irqStatus ≠ 0
  fired : s.fired = true → t.fired = true
  recorded : s.cfg.irqStatusSetsUnmasked = false → t.irqStatus ≠ s.irqStatus → t.fired = true
  enabled : (s.fired = true → s.irqStatus &&& s.irqMask ≠ 0) → t.fired = true → t.irqStatus &&& s.irqMask ≠ 0
  line : t.irqLine = true ↔ s.irqLine = true ∨ (t.fired = true ∧ t.irqStatus &&& s.irqMask ≠ 0)
  refresh : s.trigger = some .refresh → t.queue = [] ∧ t.invalidated = false
  other : s.trigger ≠ some .refresh → t.queue = s.queue ∧ t.invalidated = s.invalidated

theorem finishInvocation_other {s : State} (h : s.trigger ≠ some .refresh) : finishInvocation s = endOfInvocation s :=
  if_neg h

theorem finishInvocation_refresh {s : State} (h : s.trigger = some .refresh) :
    finishInvocation s = refreshEnd (endOfInvocation s) := if_pos h

/-- All the line decision can do (`60_exceptions.md` R340). -/
theorem raiseLine_cases (s : State) :
    ((s.fired = true ∧ s.irqStatus &&& s.irqMask ≠ 0) ∧ raiseLine s = { s with irqLine := true, out := s.out ++ [.irqRaise] })
    ∨ (¬ (s.fired = true ∧ s.irqStatus &&& s.irqMask ≠ 0) ∧ raiseLine s = s) := by
  unfold raiseLine
  split
  · rename_i h
    exact .inl ⟨h, rfl⟩
  · rename_i h
    exact .inr ⟨h, rfl⟩

/-- `EndOfInvocation` (R212), for either trigger and whatever the tail of a refresh makes of queue and trace. -/
theorem endOfInvocation_endEffect (s : State) (o : List OutEvent) (q : List Rect) (b : Bool)
    (h1 : s.trigger = some .refresh → q = [] ∧ b = false)
    (h2 : s.trigger ≠ some .refresh → q = s.queue ∧ b = s.invalidated) :
    EndEffect s { endOfInvocation s with out := (endOfInvocation s).out ++ o, queue := q, invalidated := b } := by
  obtain ⟨u, hu, hp, hpe⟩ : ∃ u, endOfInvocation s = { raiseLine u with syncing := false, trigger := none }
      ∧ CommandEffect s u ∧ u = { s with irqStatus := u.irqStatus, fired := u.fired } := by
    refine ⟨if s.progressed then irqEvent s.cfg.irq.fifoProgress s else s, rfl, ?_, ?_⟩
    · split
      · exact irqEvent_commandEffect (eventBits_cover (.inr (.inl rfl)))
      · exact .refl s
    · unfold irqEvent
      (repeat' split) <;> rfl
  have hm : u.irqMask = s.irqMask := by rw [hpe]
  have hl : u.irqLine = s.irqLine := by rw [hpe]
  rw [hu]
  rcases raiseLine_cases u with ⟨hc, hr⟩ | ⟨hc, hr⟩ <;> rw [hr]
  · refine ⟨by rw [hpe], ?_, hp.bits, hp.status, hp.fired, hp.recorded, hp.enabled, ?_, h1, h2⟩
    · exact (hp.out.trans (List.prefix_append _ _)).trans (List.prefix_append _ _)
    · rw [hm] at hc
      exact ⟨fun _ => .inr hc, fun _ => rfl⟩
  · refine ⟨by rw [hpe], hp.out.trans (List.prefix_append _ _), hp.bits, hp.status, hp.fired, hp.recorded, hp.enabled, ?_,
      h1, h2⟩
    simp only
    rw [hm] at hc
    rw [hl]
    exact ⟨.inl, fun k => k.resolve_right hc⟩

/-- All the exit of the drain loop can do. -/
theorem finishInvocation_endEffect (s : State) : EndEffect s (finishInvocation s) := by
  by_cases h : s.trigger = some .refresh
  · rw [finishInvocation_refresh h]
    unfold refreshEnd
    simp only
    have he := fun o => endOfInvocation_endEffect s o [] false (fun _ => ⟨rfl, rfl⟩) (fun k => absurd h k)
    split
    · rename_i hi
      have hz : (endOfInvocation s).invalidated = true := hi
      have hx : flush (endOfInvocation s) = { endOfInvocation s with queue := [] } := by
        unfold flush
        rw [if_pos hz]
      rw [hx]
      convert he [.modeSet (surface (endOfInvocation s)).w (surface (endOfInvocation s)).h
        (surface (endOfInvocation s)).stride (surface (endOfInvocation s)).bpp, .fullRedraw] using 1
      simp [emit, surface, stride, bypp]
    · rename_i hi
      have hz : (endOfInvocation s).invalidated = false := by
        have : ¬ (endOfInvocation s).invalidated = true := hi
        simpa using this
      have hx : flush (endOfInvocation s)
          = { endOfInvocation s with out := (endOfInvocation s).out ++ (endOfInvocation s).queue.map updateEvent,
                                     queue := [], invalidated := false } := by
        unfold flush
        rw [hz, if_neg (by decide)]
      rw [hx]
      exact he _
  · rw [finishInvocation_other h]
    have he := endOfInvocation_endEffect s [] s.queue s.invalidated (fun k => absurd k h) (fun _ => ⟨rfl, rfl⟩)
    rw [List.append_nil] at he
    have hx : endOfInvocation s = { endOfInvocation s with queue := s.queue, invalidated := s.invalidated } := by
      simp only [← endOfInvocation_queue s, ← endOfInvocation_invalidated s]
    rw [hx]
    exact he

/-! ### Events -/

/-- All the head of a refresh can do (R316 to R318). -/
structure StartEffect (s t : State) : Prop where
  eq : t = { s with lastCursorCount := t.lastCursorCount, cursorX := t.cursorX, cursorY := t.cursorY,
                    cursorOn := t.cursorOn, draws := t.draws, out := t.out, trigger := t.trigger, steps := t.steps,
                    progressed := t.progressed, fired := t.fired }
  out : s.out <+: t.out
  running : (t.trigger = s.trigger ∧ t.fired = s.fired) ∨ (t.trigger = some .refresh ∧ t.fired = false)

theorem refreshStart_startEffect (s : State) : StartEffect s (refreshStart s) := by
  unfold refreshStart
  simp only
  split
  · exact ⟨rfl, List.prefix_rfl, .inr ⟨rfl, rfl⟩⟩
  · exact ⟨rfl, List.prefix_append _ _, .inl ⟨rfl, rfl⟩⟩

/-- All `Reset` leaves (`70_reset_and_hazards.md` R370): the table of R50, free latches and cursor buffers, the
memories and traces. -/
theorem resetEvent_cases (s : State) : ∃ (mn mx next stop : Word) (cur : CursorDef) (d : Nat),
    resetEvent s = { State.resetOf s.cfg with
      out := (lowerLine s).out, diag := s.diag, fifo := s.fifo, fb := s.fb, inputs := s.inputs,
      guestSched := s.guestSched, guestReads := s.guestReads, guestData := s.guestData,
      draws := d, cur := cur, fifoMin := mn, fifoMax := mx, fifoNext := next, fifoStop := stop }
    ∧ cur.andMask.length ≤ s.cfg.cursorCap ∧ cur.xorMask.length ≤ s.cfg.cursorCap :=
  ⟨_, _, _, _, _, _, rfl, List.length_take_le _ _, List.length_take_le _ _⟩

/-- All a port access can do. -/
theorem portEvent_cases {s t : State} {a : PortAccess} (h : portEvent a s = .next t) :
    ∃ i, decodePort s.cfg a = .ok i ∧ exec i s = .next t := by
  unfold portEvent at h
  split at h
  · exact ⟨_, by assumption, h⟩
  · cases h

/-- All a guest read can do. -/
theorem guestRead_cases {s t : State} {space : Space} {a : Nat} (h : guestRead space a s = .next t) :
    ∃ v, t = returnData v s := by
  unfold guestRead at h
  split at h
  · cases h; exact ⟨_, rfl⟩
  · cases h

/-! ### The step -/

theorem step_running {s : State} (h : s.trigger.isSome = true) : step s = drainPass s := by
  unfold step stepOnce
  cases ht : s.trigger with
  | none => rw [ht] at h; cases h
  | some _ => rfl

theorem step_idle {s : State} (h : s.trigger = none) : step s = nextEvent s := by
  unfold step stepOnce
  rw [h]

/-- All a step between invocations can do: nothing, or one event. -/
theorem nextEvent_cases {s t : State} (h : nextEvent s = .next t) :
    (s.inputs = [] ∧ t = s)
    ∨ ∃ e rest, s.inputs = e :: rest
      ∧ ((∃ a i, e = .port a ∧ decodePort s.cfg a = .ok i ∧ isCommand s.cfg i = false
            ∧ exec i { s with inputs := rest } = .next t)
        ∨ (∃ u v, OnlyMemories { s with inputs := rest } u ∧ t = returnData v u)
        ∨ (e = .refresh ∧ StartEffect { s with inputs := rest } t)
        ∨ (e = .reset ∧ t = resetEvent { s with inputs := rest })) := by
  unfold nextEvent at h
  split at h
  · rename_i hi
    cases h
    exact .inl ⟨hi, rfl⟩
  · rename_i e rest hi
    refine .inr ⟨e, rest, hi, ?_⟩
    cases e with
    | port a =>
      obtain ⟨i, hd, hx⟩ := portEvent_cases h
      exact .inl ⟨a, i, rfl, hd, decodePort_isCommand hd, hx⟩
    | guestWrite w =>
      simp only [handleEvent] at h
      split at h <;> cases h
      exact .inr (.inl ⟨_, _, storeGuest_onlyMemories _ w, rfl⟩)
    | guestRead space a =>
      obtain ⟨v, rfl⟩ := guestRead_cases h
      exact .inr (.inl ⟨_, v, .refl _, rfl⟩)
    | refresh =>
      cases h
      exact .inr (.inr (.inl ⟨rfl, refreshStart_startEffect _⟩))
    | reset =>
      cases h
      exact .inr (.inr (.inr ⟨rfl, rfl⟩))

end Sys2Proof.Machine
end

