-- ==== Sys2Proof/Tests/Slice0.lean ====
section
/-! SUPPORT. Named tests: the checks of `WellFormed`, encodings written out from the spec, one-step vectors of
`spec/95_test_vectors.md`, and for every statement with hypotheses a state and operands that meet them. -/

namespace Sys2Proof.Tests

open Sys2Proof.Machine

set_option Elab.async false

/-! ### Helpers -/

/-- The default binding with an opcode for RECT_FILL, as V-RF-1 to V-RF-4 have it. -/
def fillCfg : Config := { Config.default with opcRectFill := some 2 }

/-- The state S1 of the vectors: after `Reset`, mode 640 by 480, 32 bits per pixel. -/
def vga : State := { State.reset with width := 640, height := 480 }

/-- S1 with RECT_FILL. -/
def vgaFill : State := { vga with cfg := fillCfg }

/-- S1 with a header in the FIFO memory. -/
def withHeader (mn mx next stop : Word) : State := { vga with fifo := writeWords [] 0 [mn, mx, next, stop] }

/-- A decode test. -/
def decodes (c : Config) (code : Code) (i : Instr) : Bool :=
  match decode c code with
  | .ok j => j == i
  | .error _ => false

/-- A field of the next state. -/
def got {α : Type} (f : State → α) : Host.Outcome State Fault Refusal → Option α
  | .next t => some (f t)
  | .fault _ => none
  | .refused _ => none

/-- Whether an outcome is a next state. -/
def isNext (o : Host.Outcome State Fault Refusal) : Bool := (got (fun _ => ()) o).isSome

theorem exists_of_isNext {o : Host.Outcome State Fault Refusal} (h : isNext o = true) : ∃ t : State, o = .next t := by
  cases o with
  | next t => exact ⟨t, rfl⟩
  | fault f => cases h
  | refused r => cases h

/-- The instruction a step fetches, if an invocation runs below its bound on a ring with pending words. -/
def fetched (s : State) : Option Instr :=
  if s.trigger.isSome = true ∧ s.steps < s.cfg.maxLoop then
    match length s with
    | .ok (L, t) =>
      if L = 0 then none
      else
        match fetch L { t with steps := t.steps + 1 } with
        | .ok (i, _) => i
        | .error _ => none
    | .error _ => none
  else none

/-- What a state that fetches an instruction meets. -/
theorem fetched_meets {s : State} {i : Instr} (h : fetched s = some i) :
    s.trigger.isSome = true ∧ s.steps < s.cfg.maxLoop
    ∧ ∃ (L : Nat) (t u : State), length s = .ok (L, t) ∧ L ≠ 0
      ∧ fetch L { t with steps := t.steps + 1 } = .ok (some i, u) := by
  unfold fetched at h
  split at h
  · rename_i hc
    refine ⟨hc.1, hc.2, ?_⟩
    split at h
    · rename_i L t hl
      split at h
      · cases h
      · rename_i hL
        split at h
        · rename_i j u hf
          cases h
          exact ⟨L, t, u, hl, hL, hf⟩
        · cases h
    · cases h
  · cases h

/-! ### WellFormed: an ill-formed term for each check -/

theorem test_wf_argument_count : (Instr.nop [1]).wellFormed Config.default = false := by decide +kernel
theorem test_wf_payload_length : (Instr.escape [0] [6] [1]).wellFormed Config.default = false := by decide +kernel
theorem test_wf_size_place : (Instr.escape [] [0, 6] [1, 2]).wellFormed Config.default = false := by decide +kernel
theorem test_wf_fill_without_opcode : (Instr.rectFill 0 0 0 0 0).wellFormed Config.default = false := by decide +kernel
theorem test_wf_known_opcode : (Instr.unknown 1).wellFormed Config.default = false := by decide +kernel
theorem test_wf_palette_entry : (Instr.regPalette 768 .read).wellFormed Config.default = false := by decide +kernel
theorem test_wf_scratch_element : (Instr.regScratch 64 .read).wellFormed Config.default = false := by decide +kernel
theorem test_wf_named_index : (Instr.regInvalid 2 .read).wellFormed Config.default = false := by decide +kernel

/-- R9 and R141: a configuration with one of the six named flags clear (COMMAND_BUFFERS, RECT_COPY) is not valid. -/
theorem test_required_flags :
    { Config.default with caps := 0x80178222 }.valid = false ∧ { Config.default with caps := 0x81178220 }.valid = false
    ∧ { Config.default with caps := 0x01110222 }.valid = true := by decide +kernel

/-! ### Decode: words written out from R90 to R101, R106 and the default numbers of R96 -/

theorem test_decode_implemented :
    decodes Config.default (.command [1, 10, 20, 100, 50]) (.update 10 20 100 50)
    ∧ decodes Config.default (.command [25, 0, 0, 8, 8, 0xCAFE]) (.updateVerbose 0 0 8 8 0xCAFE)
    ∧ decodes Config.default (.command [3, 0, 1, 2, 3, 4, 5]) (.rectCopy 0 1 2 3 4 5)
    ∧ decodes fillCfg (.command [2, 0x00FF8040, 1, 0, 2, 1]) (.rectFill 0x00FF8040 1 0 2 1)
    ∧ decodes Config.default (.command [30, 0x77]) (.fence 0x77) := by decide +kernel

theorem test_decode_cursor :
    decodes Config.default (.command [19, 9, 1, 2, 33, 1, 1, 2, 0xA, 0xB, 0xC, 0xD, 0xE])
      (.defineCursor 9 1 2 33 1 1 2 [0xA, 0xB, 0xC, 0xD, 0xE])
    ∧ decodes Config.default (.command [22, 1, 0, 0, 2, 1, 0xFF0000FF, 0])
      (.defineAlphaCursor 1 0 0 2 1 [0xFF0000FF, 0]) := by decide +kernel

theorem test_decode_skip_fixed :
    decodes Config.default (.command [0]) (.invalidCmd [])
    ∧ decodes Config.default (.command [35, 1]) (.destroyScreen [1])
    ∧ decodes Config.default (.command [36, 1, 2, 3, 4]) (.defineGmrfb [1, 2, 3, 4])
    ∧ decodes Config.default (.command [37, 1, 2, 3, 4, 5, 6, 7]) (.blitGmrfbToScreen [1, 2, 3, 4, 5, 6, 7])
    ∧ decodes Config.default (.command [38, 1, 2, 3, 4, 5, 6, 7]) (.blitScreenToGmrfb [1, 2, 3, 4, 5, 6, 7])
    ∧ decodes Config.default (.command [39, 1]) (.annotationFill [1])
    ∧ decodes Config.default (.command [40, 1, 2, 3]) (.annotationCopy [1, 2, 3])
    ∧ decodes Config.default (.command [41, 1, 16]) (.defineGmr2 [1, 16])
    ∧ decodes Config.default (.command [43]) (.dead [])
    ∧ decodes Config.default (.command [44]) (.dead2 [])
    ∧ decodes Config.default (.command [45]) (.nop [])
    ∧ decodes Config.default (.command [46]) (.nopError []) := by decide +kernel

/-- V-SK-2, V-SK-6, V-SK-7, V-SK-14 to V-SK-18, V-DEC-18. -/
theorem test_decode_skip_variable :
    decodes Config.default (.command [33, 0, 6, 1, 2]) (.escape [0] [6] [1, 2])
    ∧ decodes Config.default (.command [34, 28, 1, 2, 3, 4, 5, 6]) (.defineScreen [28] [1, 2, 3, 4, 5, 6])
    ∧ decodes Config.default (.command [34, 0]) (.defineScreen [0] [])
    ∧ decodes Config.default (.command [42, 1, 0, 0, 3, 7, 8, 9]) (.remapGmr2 1 0 0 3 [7, 8, 9])
    ∧ decodes Config.default (.command [42, 1, 1, 0, 3, 7, 8]) (.remapGmr2 1 1 0 3 [7, 8])
    ∧ decodes Config.default (.command [42, 1, 2, 0, 3, 1, 2, 3, 4, 5, 6]) (.remapGmr2 1 2 0 3 [1, 2, 3, 4, 5, 6])
    ∧ decodes Config.default (.command [42, 1, 4, 0, 3, 7]) (.remapGmr2 1 4 0 3 [7])
    ∧ decodes Config.default (.command [42, 1, 6, 0, 3, 7, 8]) (.remapGmr2 1 6 0 3 [7, 8])
    ∧ decodes Config.default (.command [0x99]) (.unknown 0x99)
    ∧ decodes Config.default (.command [2]) (.unknown 2) := by decide +kernel

/-- The port operations of R101 at offsets 0, 1 and 8; another width or offset is refused by name (R64). -/
theorem test_decode_ports :
    decodes Config.default (.port ⟨0, 32, .write 2⟩) (.portIndexWrite 2)
    ∧ decodes Config.default (.port ⟨0, 32, .read⟩) .portIndexRead
    ∧ decodes Config.default (.port ⟨1, 32, .read⟩) .portValueRead
    ∧ decodes Config.default (.port ⟨1, 32, .write 5⟩) (.portValueWrite 5)
    ∧ decodes Config.default (.port ⟨8, 32, .write 1⟩) (.portIrqStatusWrite 1)
    ∧ decodes Config.default (.port ⟨8, 32, .read⟩) .portIrqStatusRead
    ∧ got (fun _ => ()) (step { vga with inputs := [.port ⟨1, 16, .read⟩] }) = none
    ∧ got (fun _ => ()) (step { vga with inputs := [.port ⟨2, 32, .read⟩] }) = none := by decide +kernel

/-- Every named register at its index of the table of `40_register_bank.md`, section 1. -/
theorem test_decode_registers :
    [(0, Instr.regId .read), (1, .regEnable .read), (2, .regWidth .read), (3, .regHeight .read),
     (4, .regMaxWidth .read), (5, .regMaxHeight .read), (7, .regBitsPerPixel .read), (9, .regRedMask .read),
     (10, .regGreenMask .read), (11, .regBlueMask .read), (12, .regBytesPerLine .read), (13, .regFbStart .read),
     (16, .regFbSize .read), (17, .regCapabilities .read), (18, .regMemStart .read), (19, .regMemSize .read),
     (20, .regConfigDone .read), (21, .regSync .read), (22, .regBusy .read), (23, .regGuestId .read),
     (24, .regCursorId .read), (25, .regCursorX .read), (26, .regCursorY .read), (27, .regCursorOn .read),
     (29, .regScratchSize .read), (32, .regPitchlock .read), (33, .regIrqmask .read), (35, .regDisplayId .read),
     (36, .regDisplayIsPrimary .read), (37, .regDisplayPositionX .read), (38, .regDisplayPositionY .read),
     (39, .regDisplayWidth .read), (40, .regDisplayHeight .read), (59, .regCap2 .read), (1024, .regPalette 0 .read),
     (1791, .regPalette 767 .read), (1792, .regScratch 0 .read), (1855, .regScratch 63 .read),
     (1856, .regInvalid 1856 .read), (6, .regInvalid 6 .read)].all
      (fun p => decodes Config.default (.register p.1 .read) p.2) = true := by decide +kernel

/-- What the table's words give: the FIFO rows, and RECT_FILL's number without its opcode (V-RF-5). -/
theorem test_table_words :
    decodeTableWord 32 1 = some (.update 0 0 0 0) ∧ decodeTableWord 32 30 = some (.fence 0)
    ∧ decodeTableWord 32 2 = some (.unknown 2) ∧ decodeTableWord 32 33 = some (.escape [0] [0] []) := by decide +kernel

/-! ### Single instructions: vectors of `spec/95_test_vectors.md` -/

/-- V-DEC-1, V-DEC-2. -/
theorem test_update_appends : got (·.queue) (exec (.update 10 20 100 50) vga) = some [⟨10, 20, 100, 50⟩] := by
  decide +kernel
theorem test_update_outside :
    got (fun t => (t.queue, t.diag)) (exec (.update 600 0 100 10) vga)
      = some ([⟨0, 0, 640, 480⟩], [.badRect .update 600 0 100 10]) := by decide +kernel

/-- V-DEC-6. -/
theorem test_update_verbose : got (·.queue) (exec (.updateVerbose 0 0 8 8 0xCAFE) vga) = some [⟨0, 0, 8, 8⟩] := by
  decide +kernel

/-- V-RC-1: an overlapping copy one row down. -/
theorem test_rect_copy_overlap :
    got (fun t => [0, 2560, 5120].map (Memory.read .fb t.fb))
      (exec (.rectCopy 0 0 0 1 2 2) { vga with fb := [(0, 1), (2560, 0x11), (5120, 0x21)] })
      = some [1, 1, 0x11] := by decide +kernel

/-- A copy whose rows alias: a pitch lock of 4 at 32 bits a pixel puts pixel `(x, y)` at byte `4 (x + y)`. By hand from
R296, bottom to top: A B C D becomes A B B C after line 1, A A B C after line 0. -/
def aliased : State :=
  { vga with pitchlock := 4, pitchlockCount := 1, fb := [(0, 0xA), (4, 0xB), (8, 0xC), (12, 0xD)] }
theorem test_rect_copy_aliased :
    got (fun t => [0, 4, 8, 12].map (Memory.read .fb t.fb)) (exec (.rectCopy 0 0 0 1 2 2) aliased)
      = some [0xA, 0xA, 0xB, 0xC] := by decide +kernel

/-- V-RC-4. -/
theorem test_rect_copy_outside :
    got (fun t => (t.queue, t.diag, t.fb)) (exec (.rectCopy 0 0 600 0 100 10) vga)
      = some ([⟨0, 0, 640, 480⟩], [.unknownCmd 3], []) := by decide +kernel

/-- V-RF-1, V-RF-3. -/
theorem test_rect_fill_32 :
    got (fun t => [3, 4, 5, 6, 7, 8, 11, 12].map (Memory.read .fb t.fb))
      (exec (.rectFill 0x00FF8040 1 0 2 1) { vgaFill with fb := [(3, 9), (12, 8)] })
      = some [9, 0x40, 0x80, 0xFF, 0, 0x40, 0, 8] := by decide +kernel
theorem test_rect_fill_24 :
    got (fun t => [1919, 1920, 1921, 1922, 1923, 3840].map (Memory.read .fb t.fb))
      (exec (.rectFill 0x11223344 0 1 1 2) { vgaFill with bpp := 24, fb := [(1919, 9), (1923, 8)] })
      = some [9, 0x44, 0x33, 0x22, 8, 0x44] := by decide +kernel

/-- V-DEC-10, V-DEC-11: the goal word counts only where the header region holds it. -/
theorem test_fence_goal :
    got (·.irqStatus) (exec (.fence 9)
      { vga with irqMask := 7, fifoMin := 4096, fifo := writeWords [] 1156 [9] }) = some 5 := by decide +kernel
theorem test_fence_no_slot :
    got (fun t => (t.irqStatus, Memory.read32 .fifo t.fifo 24)) (exec (.fence 9)
      { vga with irqMask := 7, fifoMin := 32, fifo := writeWords [] 1156 [9] }) = some (1, 9) := by decide +kernel

/-- V-CUR-6 and the hot spot; the AND mask first, then the XOR mask (R243). -/
theorem test_define_cursor :
    got (fun t => (t.cur.andMask, t.cur.xorMask, t.cur.hotX)) (exec (.defineCursor 0 3 4 33 1 1 1 [1, 2, 3, 4]) vga)
      = some ([1, 2], [3, 4], 3) := by decide +kernel

/-- V-CUR-4. -/
theorem test_define_cursor_too_wide :
    got (fun t => (t.diag, t.cur)) (exec (.defineCursor 0 0 0 300 4 1 1 (List.replicate 80 0xFFFFFFFF)) vga)
      = some ([.unknownCmd 19], CursorDef.initial) := by decide +kernel

/-- V-CUR-11. -/
theorem test_define_alpha_cursor :
    got (fun t => (t.cur.kind, t.cur.xorBpp, t.cur.xorMask)) (exec (.defineAlphaCursor 1 0 0 2 1 [0xFF0000FF, 0]) vga)
      = some (.alpha, 32, [0xFF0000FF, 0]) := by decide +kernel

/-- V-SK-20, V-DEC-18: once per opcode value. -/
theorem test_nop_logged_once : got (·.diag) (exec (.nop []) { vga with logged := [45] }) = some [] := by decide +kernel
theorem test_skip_logs :
    [Instr.invalidCmd [], .destroyScreen [1], .escape [0] [0] [], .dead2 [], .unknown 0x99].map
      (fun i => got (·.diag) (exec i vga))
      = [some [.unknownCmd 0], some [.unknownCmd 35], some [.unknownCmd 33], some [.unknownCmd 44],
         some [.unknownCmd 0x99]] := by decide +kernel

/-! ### Registers and ports: V-REG and V-IRQ -/

/-- V-REG-6, V-REG-7. -/
theorem test_id : got (·.svgaId) (exec (.regId (.write 0x90000001)) vga) = some 0x90000001
    ∧ got (·.svgaId) (exec (.regId (.write 0x12345678)) vga) = some 0x90000002 := by decide +kernel

/-- V-REG-24, V-REG-26. -/
theorem test_enable :
    got (·.out) (exec (.regEnable (.write 1)) vga) = some [.dirtyTracking .start]
    ∧ got (·.out) (exec (.regEnable (.write 0xFFFF0000)) { vga with config := true }) = some [.dirtyTracking .stop] := by
  decide +kernel

/-- V-REG-10, V-REG-11, V-REG-12. -/
theorem test_mode_writes :
    [2368, 2369, 0, 0x80000000].map (fun v => got (·.width) (exec (.regWidth (.write v)) vga))
      = [some 2368, some 640, some 0, some 640]
    ∧ got (·.height) (exec (.regHeight (.write 1771)) vga) = some 480
    ∧ got (·.diag) (exec (.regBitsPerPixel (.write 13)) vga) = some [.badRegWrite .bitsPerPixel 13] := by decide +kernel

/-- V-REG-13, V-REG-14. -/
theorem test_masks :
    [Instr.regRedMask .read, .regGreenMask .read, .regBlueMask .read].map (fun i => got (·.guestData) (exec i vga))
      = [some 0x00FF0000, some 0x0000FF00, some 0x000000FF]
    ∧ [Instr.regRedMask .read, .regGreenMask .read, .regBlueMask .read].map
        (fun i => got (·.guestData) (exec i { vga with bpp := 16 })) = [some 0xF800, some 0x07E0, some 0x001F] := by
  decide +kernel

/-- V-REG-16 to V-REG-18, V-REG-21. -/
theorem test_bytes_per_line :
    [{ vga with width := 1024 }, { vga with width := 1024, pitchlock := 8192, pitchlockCount := 1 },
     { vga with width := 800, pitchlock := 8192 }, { vga with width := 10, bpp := 24 }].map
      (fun s => got (·.guestData) (exec (.regBytesPerLine .read) s))
      = [some 4096, some 8192, some 3200, some 30] := by decide +kernel

/-- V-REG-22. -/
theorem test_parameters :
    [Instr.regMaxWidth .read, .regMaxHeight .read, .regFbStart .read, .regFbSize .read, .regMemStart .read,
     .regMemSize .read, .regScratchSize .read, .regCapabilities .read, .regCap2 .read].map
      (fun i => got (·.guestData) (exec i vga))
      = [some 2368, some 1770, some 0xFD000000, some 0x01000000, some 0xFE000000, some 0x00010000, some 64,
         some 0x81178222, some 0] := by decide +kernel

/-- V-REG-32, V-REG-33, V-REG-34. -/
theorem test_scratch :
    got (fun t => t.scratch[63]?) (exec (.portValueWrite 7) { vga with index := 1855 }) = some (some 7)
    ∧ got (·.diag) (exec (.portValueWrite 7) { vga with index := 1856 }) = some [.badRegIndex .write 1856] := by
  decide +kernel

/-- V-REG-35, V-REG-3. -/
theorem test_palette_and_invalid :
    got (fun t => (t.guestData, t.diag)) (exec .portValueRead { vga with index := 1024, guestData := 9 }) = some (0, [])
    ∧ got (fun t => (t.guestData, t.diag)) (exec .portValueRead { vga with index := 0xFFFFFFFF, guestData := 9 })
      = some (0, [.badRegIndex .read 0xFFFFFFFF]) := by decide +kernel

/-- V-IRQ-1, V-IRQ-2, V-IRQ-3. -/
theorem test_acknowledge :
    got (fun t => (t.irqStatus, t.irqLine)) (exec (.portIrqStatusWrite 1) { vga with irqStatus := 3, irqLine := true })
      = some (2, true)
    ∧ got (fun t => (t.irqStatus, t.irqLine, t.out))
        (exec (.portIrqStatusWrite 2) { vga with irqStatus := 2, irqLine := true }) = some (0, false, [.irqLower])
    ∧ got (·.out) (exec (.portIrqStatusWrite 0xFFFFFFFF) vga) = some [] := by decide +kernel

/-! ### Steps -/

/-- V-LEN-2 to V-LEN-5, V-LEN-8, V-LEN-9, V-LEN-12 to V-LEN-14, V-LEN-16. -/
theorem test_length :
    [((16 : Word), (65536 : Word), (36 : Word), (16 : Word)), (16, 65536, 16, 65532), (16, 65536, 65532, 16),
     (1160, 11400, 1160, 1164), (16, 10252, 16, 16), (16, 10256, 20, 16), (16, 65536, 65536, 16), (16, 65536, 16, 65536),
     (16, 65536, 12, 16), (0x80000010, 0x80010000, 0x80000010, 0x80000010)].map
      (fun h => pending (withHeader h.1 h.2.1 h.2.2.1 h.2.2.2)) = [5, 1, 16379, 2559, 0, 1, 0, 0, 0, 0] := by
  decide +kernel

/-- V-RW-2: the cursor wraps, in the latch and in the header. -/
theorem test_read_word_wraps :
    (match readWord { vga with fifoMin := 16, fifoMax := 65536, fifoStop := 65532, fifo := writeWords [] 65532 [30] } with
      | .ok (w, t) => some (w, t.fifoStop, Memory.read32 .fifo t.fifo 12)
      | .error _ => none) = some (30, 16, 16) := by decide +kernel

/-- V-DEC-12: a command whose words are not all pending moves nothing. -/
theorem test_rewind :
    got (fun t => (t.fifoStop, t.queue, t.progressed, t.trigger))
      (step { withHeader 4096 65536 4108 4096 with
        trigger := some .sync, syncing := true,
        fifo := writeWords (writeWords [] 0 [4096, 65536, 4108, 4096]) 4096 [1, 10, 20, 100, 50] })
      = some (4096, [], false, none) := by decide +kernel

/-- V-DEC-1 through fetch and decode. -/
theorem test_step_update :
    got (fun t => (t.queue, t.fifoStop, t.progressed)) (step (placeWords [1, 10, 20, 100, 50] vga))
      = some ([⟨10, 20, 100, 50⟩], 48, true) := by decide +kernel

/-- The first instruction after reset, as the table's words place it. -/
theorem test_step_table_word :
    got (fun t => (t.diag, t.outcome)) (step (State.reset.withFetchWord 32 45))
      = some ([.unknownCmd 45], some .skippedUnknown) := by decide +kernel

/-- V-LEG-1 and V-Q-5. -/
theorem test_refresh :
    got (·.out) (step { vga with enable := true, inputs := [.refresh] }) = some [.legacyRender]
    ∧ got (fun t => (t.out, t.queue))
        (step { withHeader 0 0 0 0 with
          enable := true, config := true, invalidated := false, trigger := some .refresh,
          queue := [⟨1, 1, 2, 2⟩, ⟨3, 3, 4, 4⟩] })
      = some ([.update 1 1 2 2, .update 3 3 4 4], []) := by decide +kernel

/-- V-IRQ-10, V-RST-1. -/
theorem test_reset :
    got (fun t => (t.irqStatus, t.irqLine, t.out, t.width, t.invalidated))
      (step { vga with irqStatus := 1, irqLine := true, invalidated := false, inputs := [.reset] })
      = some (0, false, [.irqLower], 0, true) := by decide +kernel

/-! ### Witnesses: for every statement with hypotheses, states and operands that meet them -/

/-- A running SYNC invocation with `FENCE 0x77` pending. -/
def running : State := placeWords [30, 0x77] vga

/-- A running SYNC invocation with the first three words of UPDATE pending (V-DEC-12). -/
def cut : State :=
  { withHeader 4096 65536 4108 4096 with
    trigger := some .sync, syncing := true,
    fifo := writeWords (writeWords [] 0 [4096, 65536, 4108, 4096]) 4096 [1, 10, 20, 100, 50] }

/-- Latches of V-RW-1, and the last word of the ring. -/
def latched (stop : Word) : State := { vga with fifoMin := 16, fifoMax := 65536, fifoStop := stop }

theorem test_witness_valid : Config.default.valid = true ∧ fillCfg.valid = true := by decide +kernel

theorem test_witness_step_fetches : fetched running = some (.fence 0x77) := by decide +kernel
theorem test_witness_step_fetches_meets :
    ∃ (L : Nat) (t u : State), length running = .ok (L, t) ∧ L ≠ 0
      ∧ fetch L { t with steps := t.steps + 1 } = .ok (some (.fence 0x77), u) :=
  (fetched_meets test_witness_step_fetches).2.2

theorem test_witness_step_ports :
    vga.trigger = none ∧ decodes vga.cfg (.port ⟨0, 32, .write 2⟩) (.portIndexWrite 2)
    ∧ (16 ≠ 32 ∨ (0 ≠ vga.cfg.portIndex ∧ 0 ≠ vga.cfg.portValue ∧ 0 ≠ vga.cfg.portIrqStatus))
    ∧ (32 ≠ 32 ∨ (2 ≠ vga.cfg.portIndex ∧ 2 ≠ vga.cfg.portValue ∧ 2 ≠ vga.cfg.portIrqStatus)) := by decide +kernel

theorem test_witness_decoded_encoding :
    (match decodeCommand Config.default [30, 0x77, 45] with
      | .ok (i, rest) => some (i, rest)
      | .error _ => none) = some (.fence 0x77, [45]) := by decide +kernel

theorem test_witness_decode_encode :
    Config.default.valid = true ∧ (Instr.escape [0] [6] [1, 2]).wellFormed Config.default = true
    ∧ (Instr.regPalette 767 (.write 1)).wellFormed Config.default = true
    ∧ (Instr.regScratch 63 .read).wellFormed Config.default = true
    ∧ (Instr.regInvalid 1856 .read).wellFormed Config.default = true
    ∧ (Instr.unknown 0x99).wellFormed Config.default = true
    ∧ (Instr.rectFill 0 0 0 0 0).wellFormed fillCfg = true := by decide +kernel

/-- The palette and scratch blocks at both ends; an index in neither block and of no register. -/
theorem test_witness_blocks :
    Config.default.valid = true ∧ 0 < 768 ∧ 767 < 768 ∧ Config.default.paletteBase + 767 < 2 ^ 32
    ∧ 63 < Config.default.scratchSize ∧ Config.default.scratchBase + 63 < 2 ^ 32
    ∧ 63 < vga.cfg.scratchSize ∧ vga.scratch[63]? = some 0 ∧ vga.cfg.scratchSize ≤ 64
    ∧ (∀ n ∈ RegName.all, Config.default.regIndex n ≠ 1856)
    ∧ ¬ (Config.default.paletteBase ≤ 1856 ∧ 1856 < Config.default.paletteBase + 768)
    ∧ ¬ (Config.default.scratchBase ≤ 1856 ∧ 1856 < Config.default.scratchBase + Config.default.scratchSize) := by
  decide +kernel

/-- Accepted and rejected values at the bounds: identities, sizes, depths, flags, the pitch lock. -/
theorem test_witness_register_values :
    (0x90000001 : Word) ∈ vga.cfg.supportedIds ∧ (0x12345678 : Word) ∉ vga.cfg.supportedIds
    ∧ (2368 : Word).toNat ≤ vga.cfg.maxWidth ∧ vga.cfg.maxWidth < (2369 : Word).toNat
    ∧ (1770 : Word).toNat ≤ vga.cfg.maxHeight ∧ vga.cfg.maxHeight < (1771 : Word).toNat
    ∧ (16 : Word).toNat ∈ vga.cfg.bppLegal ∧ (15 : Word).toNat ∉ vga.cfg.bppLegal
    ∧ (1 : Word) ≠ 0 ∧ vga.config = false ∧ { vga with config := true }.config = true := by decide +kernel

/-- An acknowledge that lowers the line, one that leaves a bit, one with the line low. -/
theorem test_witness_acknowledge :
    { vga with irqStatus := 2, irqLine := true }.irqStatus &&& ~~~(2 : Word) = 0
    ∧ { vga with irqStatus := 3, irqLine := true }.irqStatus &&& ~~~(1 : Word) ≠ 0
    ∧ vga.irqLine = false := by decide +kernel

/-- Rectangles at the edge of the surface and one beyond it (V-DEC-3, V-VR-3), with their words and one too few. -/
theorem test_witness_update :
    RectInside vga 0 0 640 480 ∧ ¬ RectInside vga 0 0 641 1 ∧ [(0 : Word), 0, 8].length < 4
    ∧ [(0 : Word), 0, 8, 8].length < 5 := by decide +kernel

/-- A copy that fails, a fill that fails, with an opcode for it. -/
theorem test_witness_failed_rectangles :
    ¬ (RectInside vga 0 0 100 10 ∧ RectInside vga 600 0 100 10 ∧ RowsInFramebuffer vga 0 0 100 10
        ∧ RowsInFramebuffer vga 600 0 100 10)
    ∧ vgaFill.cfg.opcRectFill = some 2 ∧ ¬ (RectInside vgaFill 639 0 2 1 ∧ RowsInFramebuffer vgaFill 639 0 2 1) := by
  decide +kernel

/-- A fill of the last row: its first and last byte, the address behind it, no aliasing of its rows. -/
theorem test_witness_fill :
    fillCfg.valid = true ∧ fillCfg.opcRectFill = some 2 ∧ [(0 : Word), 0, 0, 8].length < 5
    ∧ Quiet vgaFill ∧ Memory.wf vgaFill.fb
    ∧ RectInside vgaFill 0 479 640 1 ∧ RowsInFramebuffer vgaFill 0 479 640 1
    ∧ 0 < (1 : Word).toNat ∧ 0 < (640 : Word).toNat * bypp vgaFill ∧ 2559 < (640 : Word).toNat * bypp vgaFill := by
  decide +kernel

/-- A row that no later row reaches, and an address no row reaches. -/
theorem test_witness_fill_rows :
    (∀ j' k' : Nat, 0 < j' → j' < (1 : Word).toNat → k' < (640 : Word).toNat * bypp vgaFill →
      pixelAddr vgaFill 0 479 j' k' ≠ pixelAddr vgaFill 0 479 0 0)
    ∧ ∀ j k : Nat, j < (1 : Word).toNat → k < (640 : Word).toNat * bypp vgaFill → pixelAddr vgaFill 0 479 j k ≠ 0 := by
  have h1 : (1 : Word).toNat = 1 := rfl
  have h2 : pixelAddr vgaFill 0 479 0 0 = 1226240 := by decide +kernel
  rw [h1]
  refine ⟨fun j' _ hj hj' => by omega, fun j k hj _ h => ?_⟩
  have : j = 0 := by omega
  subst this
  have h3 : pixelAddr vgaFill 0 479 0 k = pixelAddr vgaFill 0 479 0 0 + k := rfl
  omega

/-- The overlapping copy of V-RC-8. -/
theorem test_witness_copy :
    Quiet vga ∧ Memory.wf vga.fb ∧ vga.width.toNat * bypp vga ≤ stride vga
    ∧ RectInside vga 0 0 640 100 ∧ RectInside vga 0 10 640 100
    ∧ RowsInFramebuffer vga 0 0 640 100 ∧ RowsInFramebuffer vga 0 10 640 100
    ∧ 99 < (100 : Word).toNat ∧ 2559 < (640 : Word).toNat * bypp vga := by decide +kernel

theorem test_witness_engine :
    (∃ sx sy dx dy w h : Word, Instr.rectCopy 0 0 0 1 2 2 = .rectCopy sx sy dx dy w h)
    ∧ (∃ colour x y w h : Word, Instr.rectFill 5 0 0 1 1 = .rectFill colour x y w h)
    ∧ Quiet vga ∧ Memory.wf vga.fb ∧ vga.cfg.fbSize ≤ 16777216 :=
  ⟨⟨0, 0, 0, 1, 2, 2, rfl⟩, ⟨5, 0, 0, 1, 1, rfl⟩, rfl, by decide, by decide⟩

/-- A copy whose rows alias, and one that does not. -/
theorem test_witness_copy_aliased :
    Quiet aliased ∧ Memory.wf aliased.fb ∧ stride aliased < aliased.width.toNat * bypp aliased
    ∧ vga.width.toNat * bypp vga ≤ stride vga ∧ RectInside aliased 0 0 2 2 ∧ RectInside aliased 0 1 2 2
    ∧ RowsInFramebuffer aliased 0 0 2 2 ∧ RowsInFramebuffer aliased 0 1 2 2
    ∧ isNext (exec (.rectCopy 0 0 0 1 2 2) aliased) = true ∧ isNext (exec (.rectFill 5 0 0 1 1) aliased) = true := by
  decide +kernel

/-- FENCE with the header region ending just before the goal word, and just behind it: goal met and not met. -/
theorem test_witness_fence :
    vga.cfg.valid = true ∧ ([] : List Word).length < 1
    ∧ { vga with fifoMin := 1156 }.fifoMin.toNat < 4 * (vga.cfg.hdr.fenceGoal + 1)
    ∧ 4 * (vga.cfg.hdr.fenceGoal + 1) ≤ { vga with fifoMin := 1160 }.fifoMin.toNat
    ∧ Memory.read32 .fifo (Memory.write32 (writeWords [] 1156 [8]) 24 9) (4 * vga.cfg.hdr.fenceGoal) ≠ 9
    ∧ Memory.read32 .fifo (Memory.write32 (writeWords [] 1156 [9]) 24 9) (4 * vga.cfg.hdr.fenceGoal) = 9 := by decide +kernel

theorem test_witness_fence_frame :
    vga.cfg.valid = true ∧ Quiet vga ∧ Memory.wf vga.fifo ∧ 23 < 24 ∧ 28 ≤ 28
    ∧ { vga with irqMask := 1 }.irqMask &&& vga.cfg.irq.anyFence ≠ 0
    ∧ vga.irqMask = 0 ∧ vga.cfg.irqStatusSetsUnmasked = false := by decide +kernel

/-- A cursor of the greatest width, and one of V-CUR-7's depths; one payload word too few. -/
theorem test_witness_cursor :
    ([] : List Word).length = ((256 : Word).toNat * (1 : Word).toNat + 31) / 32 * (0 : Word).toNat
    ∧ [(1 : Word), 2].length = ((4 : Word).toNat * (8 : Word).toNat + 31) / 32 * (2 : Word).toNat
    ∧ (List.replicate 8 (0 : Word)).length = ((4 : Word).toNat * (32 : Word).toNat + 31) / 32 * (2 : Word).toNat
    ∧ (256 : Word).toNat ≤ 256 ∧ (List.replicate 8 (0 : Word)).length ≤ vga.cfg.cursorCap
    ∧ (List.replicate 9 (0 : Word)).length < ((4 : Word).toNat * (8 : Word).toNat + 31) / 32 * (2 : Word).toNat
        + ((4 : Word).toNat * (32 : Word).toNat + 31) / 32 * (2 : Word).toNat
    ∧ (List.replicate 6 (0 : Word)).length < 7 := by decide +kernel

theorem test_witness_alpha_cursor :
    [(1 : Word), 2].length = (2 : Word).toNat * (1 : Word).toNat ∧ (2 : Word).toNat ≤ 256 ∧ (1 : Word).toNat ≤ 256
    ∧ [(1 : Word), 2].length ≤ vga.cfg.cursorCap ∧ [(1 : Word)].length < (2 : Word).toNat * (1 : Word).toNat
    ∧ (List.replicate 4 (0 : Word)).length < 5 := by decide +kernel

/-- One beyond each bound of a cursor (V-CUR-5, V-CUR-9). -/
theorem test_witness_oversized :
    256 < (257 : Word).toNat
    ∧ vga.cfg.cursorCap < ((256 : Word).toNat * (33 : Word).toNat + 31) / 32 * (256 : Word).toNat
    ∧ vga.cfg.cursorCap < (257 : Word).toNat * (256 : Word).toNat := by decide +kernel

/-- Argument lists of the declared lengths, and payloads of the declared lengths with one word too few. -/
theorem test_witness_skips :
    ([] : List Word).length = Config.default.skipArgs.nop
    ∧ (List.replicate 7 (0 : Word)).length = Config.default.skipArgs.blitGmrfbToScreen
    ∧ [(0 : Word), 6].length = Config.default.skipArgs.escape ∧ [(0 : Word), 6][1]? = some 6
    ∧ [(1 : Word), 2].length = ((6 : Word).toNat + 3) / 4 ∧ [(1 : Word)].length < ((6 : Word).toNat + 3) / 4
    ∧ [(28 : Word)].length = Config.default.skipArgs.defineScreen ∧ [(28 : Word)][0]? = some 28
    ∧ (List.replicate 6 (0 : Word)).length = max (((28 : Word).toNat + 3) / 4) 1 - 1
    ∧ (List.replicate 5 (0 : Word)).length < max (((28 : Word).toNat + 3) / 4) 1 - 1
    ∧ [(7 : Word), 8, 9].length = Config.default.remapGmr2Words 0 3
    ∧ [(7 : Word), 8].length < Config.default.remapGmr2Words 0 3 := by decide +kernel

/-- `cfg.SKIP_ARGS` gives ESCAPE another count (R96, R260): three fixed words, the size still the second. -/
def escape3 : Config := { Config.default with skipArgs := { Config.default.skipArgs with escape := 3 } }
theorem test_escape_count :
    escape3.valid = true
    ∧ (match decode escape3 (.command [33, 0, 4, 9, 0x11]) with
        | .ok i => some i
        | .error _ => none) = some (.escape [0] [4, 9] [0x11]) := by decide +kernel

/-- A count that leaves the size word out: every payload of the free length is a witness (log 20). -/
def escape1 : Config := { Config.default with skipArgs := { Config.default.skipArgs with escape := 1, defineScreen := 0 } }
theorem test_escape_unstated_config :
    escape1.valid = true ∧ [(0 : Word)].length = escape1.skipArgs.escape ∧ [(0 : Word)][1]? = none
    ∧ ([] : List Word).length = escape1.skipArgs.defineScreen ∧ ([] : List Word)[0]? = none := by decide +kernel
theorem test_escape_unstated_payload (op : Word) (args : List Word) :
    (List.replicate (Config.unstatedPayload op args) (0 : Word)).length = Config.unstatedPayload op args :=
  List.length_replicate

theorem test_witness_unknown_opcode (n : CmdName) : Config.default.opcode n ≠ some 0x99 := by
  cases n <;> decide +kernel

/-- Masked and unmasked events under both settings. -/
theorem test_witness_irq_event :
    { vga with irqMask := 1 }.irqMask &&& (1 : Word) ≠ 0 ∧ vga.irqMask &&& (1 : Word) = 0
    ∧ { Config.default with irqStatusSetsUnmasked := true }.irqStatusSetsUnmasked = true
    ∧ vga.cfg.irqStatusSetsUnmasked = false := by decide +kernel

/-- An invocation at its bound, with an enabled event that fired and with none. -/
theorem test_witness_end :
    let s := { vga with trigger := some .sync, steps := 1024, syncing := true }
    s.trigger = some .sync ∧ s.cfg.maxLoop ≤ s.steps ∧ s.fired = false
    ∧ { s with irqMask := 1, irqStatus := 1, fired := true }.irqStatus &&& (1 : Word) ≠ 0
    ∧ { s with trigger := some .refresh }.trigger = some .refresh
    ∧ s.invalidated = true ∧ { s with invalidated := false }.invalidated = false := by decide +kernel

theorem test_witness_queue :
    vga.invalidated = true ∧ { vga with invalidated := false }.invalidated = false ∧ vga.queue.length ≠ 512
    ∧ { vga with queue := List.replicate 512 ⟨0, 0, 1, 1⟩ }.queue.length = 512 := by decide +kernel

/-- Headers at the bounds of R190: ready (V-LEN-4, V-LEN-9) and not (V-LEN-6, V-LEN-8, V-LEN-12). -/
theorem test_witness_length_ready :
    16 ≤ vga.cfg.fifoSize ∧ RingReady vga 16 65536 65532 16 ∧ RingReady vga 16 10256 20 16 := by decide +kernel
theorem test_witness_length_not_ready :
    ¬ RingReady vga 12 65536 12 12 ∧ ¬ RingReady vga 16 10252 16 16 ∧ ¬ RingReady vga 16 65536 65536 16 := by
  decide +kernel

theorem test_witness_latches :
    LatchesReady (latched 16) ∧ LatchesReady (latched 65532) ∧ 16 ≤ (latched 16).cfg.fifoSize := by decide +kernel

theorem test_witness_refresh :
    vga.trigger = none ∧ vga.enable = false ∧ { vga with enable := true, config := true }.config = true
    ∧ { vga with inputs := [.refresh] }.inputs = [.refresh] ∧ { vga with inputs := [.reset] }.inputs = [.reset] := by
  decide +kernel

/-- Guest accesses at the last bytes of both memories. -/
theorem test_witness_guest :
    vga.trigger = none ∧ 65532 + [(1 : Byte), 2, 3, 4].length ≤ vga.cfg.fifoSize ∧ Memory.wf vga.fifo
    ∧ 16777215 + [(1 : Byte)].length ≤ vga.cfg.fbSize ∧ Memory.wf vga.fb ∧ 65535 < vga.cfg.fifoSize
    ∧ 16777215 < vga.cfg.fbSize := by decide +kernel

/-- Guest accesses scheduled before an access of the core: writes, one of them over the end of the framebuffer, and
reads at the last byte and behind it. Without interleaving only the reads happen. -/
theorem test_witness_schedule :
    let as : List GuestAccess :=
      [.write ⟨.fifo, 65535, [7]⟩, .write ⟨.fb, 16777215, [1, 2]⟩, .read .fifo 65535, .read .fifo 65536, .read .fb 16777216]
    let s := { vga with cfg := { vga.cfg with guestInterleave := true }, guestSched := [as, []] }
    let t := { s with cfg := { s.cfg with guestInterleave := false }, fifo := [(65535, 9)] }
    s.cfg.guestInterleave = true ∧ s.guestSched = [as, []] ∧ Memory.wf s.fifo ∧ Memory.wf s.fb
    ∧ (tick s).fifo = [(65535, 7)] ∧ (tick s).fb = [(16777215, 1)] ∧ (tick s).guestSched = [[]] ∧ (tick s).guestReads = [7]
    ∧ t.cfg.guestInterleave = false ∧ (tick t).fifo = t.fifo ∧ (tick t).guestReads = [9]
    ∧ 65535 < s.cfg.fifoSize ∧ 16777215 < s.cfg.fbSize ∧ s.cfg.fifoSize ≤ 65536 ∧ s.cfg.fbSize ≤ 16777216
    ∧ vga.guestSched = [] := by decide +kernel

/-- Accesses of the core at the last word and the last bytes of its memories, each after a group of the guest's
accesses: a write between two bytes of a row is seen by the second. -/
theorem test_witness_accesses :
    let s := { vga with guestSched := [[], [.write ⟨.fb, 16777214, [5, 6]⟩]], fb := [(16777214, 1), (16777215, 2)] }
    65532 % 4 = 0 ∧ 65532 + 4 ≤ s.cfg.fifoSize ∧ 16777214 < s.cfg.fbSize ∧ 16777214 + 2 ≤ s.cfg.fbSize
    ∧ (match fbRead 16777214 2 s with
        | .ok (bs, t) => some (bs, t.guestSched)
        | .error _ => none) = some ([1, 6], [])
    ∧ (match fbWrite 16777214 [8, 9] s with
        | .ok t => some (t.fb, t.guestSched)
        | .error _ => none) = some ([(16777214, 5), (16777215, 9)], []) := by decide +kernel

/-- A ring not ready and an empty one, in a running SYNC invocation and in a running refresh. -/
theorem test_witness_not_ready :
    let s := { withHeader 12 65536 12 12 with trigger := some .sync, syncing := true }
    let t := { withHeader 16 65536 16 16 with trigger := some .refresh, steps := 3, progressed := true }
    s.cfg.valid = true ∧ Quiet s ∧ s.trigger.isSome = true ∧ s.steps < s.cfg.maxLoop ∧ s.progressed = false
    ∧ s.fired = false ∧ t.trigger.isSome = true ∧ t.steps < t.cfg.maxLoop
    ∧ ¬ RingReady s (headerMin s).toNat (headerMax s).toNat (headerNext s).toNat (headerStop s).toNat
    ∧ RingReady t (headerMin t).toNat (headerMax t).toNat (headerNext t).toNat (headerStop t).toNat
    ∧ headerNext t = headerStop t := by decide +kernel

theorem test_witness_ring :
    running.cfg.valid = true ∧ Quiet running ∧ Memory.wf running.fifo ∧ running.trigger.isSome = true
    ∧ running.steps < running.cfg.maxLoop
    ∧ (match decodeCommand running.cfg (pendingRing running) with
        | .ok (i, rest) => some (i, rest)
        | .error _ => none) = some (.fence 0x77, []) := by decide +kernel

theorem test_witness_rewound :
    cut.cfg.valid = true ∧ Quiet cut ∧ Memory.wf cut.fifo ∧ cut.trigger.isSome = true ∧ cut.steps < cut.cfg.maxLoop
    ∧ pending cut = 3
    ∧ (match decodeCommand cut.cfg (pendingRing cut) with
        | .ok _ => none
        | .error e => some e) = some .incomplete := by decide +kernel

theorem test_witness_updates :
    vga.queue.length + (List.replicate 512 ((1 : Word), (1 : Word), (2 : Word), (2 : Word))).length ≤ 512 := by
  decide +kernel

/-- Inputs with a meaning of every kind. -/
theorem test_witness_inputs :
    vga.cfg.valid = true
    ∧ [[], [Event.port ⟨8, 32, .read⟩], [.guestWrite ⟨.fifo, 65535, [1]⟩], [.guestRead .fb 16777215], [.refresh],
        [.reset]].all (fun is => nextInputOk { vga with inputs := is }) = true := by decide +kernel

/-- Commands and register operations that answer a next state. -/
theorem test_witness_exec :
    isCommand vga.cfg (.fence 1) = true ∧ isNext (exec (.fence 1) vga) = true
    ∧ isCommand vga.cfg (.regSync (.write 1)) = false ∧ isNext (exec (.regSync (.write 1)) vga) = true := by
  decide +kernel

/-- Steps of an invocation that goes on, one that ends, and a refresh that ends. -/
theorem test_witness_steps :
    running.trigger.isSome = true ∧ isNext (step running) = true ∧ got (fun t => t.trigger.isSome) (step running) = some true
    ∧ got (·.trigger) (step cut) = some none
    ∧ got (·.trigger) (step { withHeader 0 0 0 0 with trigger := some .refresh }) = some none := by decide +kernel

/-- The invariants, right after reset and inside an invocation that fired. -/
theorem test_witness_line_invariant :
    LineInv vga ∧ LineInv { running with irqMask := 1, irqStatus := 1, fired := true } := by decide +kernel
theorem test_witness_shape_invariant : running.cfg.valid = true ∧ ShapeInv running := by decide +kernel
theorem test_witness_mode_invariant :
    ModeInv running ∧ { running with irqStatus := 7 }.irqStatus &&& ~~~(eventBits Config.default) = 0 := by decide +kernel

/-- The line moves up at the end of an invocation, and down by an acknowledge and by a reset. -/
theorem test_witness_line :
    got (·.irqLine) (step { cut with irqMask := 1, irqStatus := 1, fired := true }) = some true
    ∧ got (·.irqLine) (step { vga with irqStatus := 1, irqLine := true, inputs := [.port ⟨8, 32, .write 1⟩] })
      = some false
    ∧ got (·.irqLine) (step { vga with irqStatus := 1, irqLine := true, inputs := [.reset] }) = some false := by
  decide +kernel

end Sys2Proof.Tests
end

/-! PROOFS. What one step of the machine can do, said once, and the statements of `10_state.md` that follow from it:
the register bank, the traces, the configuration and the mode, the shape of the stored data, and `Reset`. -/

namespace Sys2Proof.Machine

/-! ### The step -/

/-- Everything a step that answers a next state can be: one of the two exits of a pass of the drain loop
(`42_decoder.md` R210), the idle step, or one event of the environment (`10_state.md` R20). -/
inductive StepEffect (s : State) : State → Prop
  | finish {u : State} (running : s.trigger.isSome = true) (pass : PassEffect s u) : StepEffect s (finishInvocation u)
  | command {u v : State} (running : s.trigger.isSome = true) (pass : PassEffect s u) (effect : CommandEffect u v) :
      StepEffect s { v with progressed := true }
  | idle (notRunning : s.trigger = none) (next : s.inputs = []) : StepEffect s s
  | register {a : PortAccess} {rest : List Event} {t : State} (notRunning : s.trigger = none)
      (next : s.inputs = .port a :: rest) (effect : RegisterEffect { s with inputs := rest } t) : StepEffect s t
  | acknowledge {a : PortAccess} {rest : List Event} {v : Word} (notRunning : s.trigger = none)
      (next : s.inputs = .port a :: rest) (decoded : decodePort s.cfg a = .ok (.portIrqStatusWrite v)) :
      StepEffect s (acknowledge v { s with inputs := rest })
  | guest {e : Event} {rest : List Event} {u : State} {v : Word} (notRunning : s.trigger = none)
      (next : s.inputs = e :: rest) (effect : OnlyMemories { s with inputs := rest } u) : StepEffect s (returnData v u)
  | refresh {rest : List Event} {t : State} (notRunning : s.trigger = none) (next : s.inputs = .refresh :: rest)
      (effect : StartEffect { s with inputs := rest } t) : StepEffect s t
  | reset {rest : List Event} (notRunning : s.trigger = none) (next : s.inputs = .reset :: rest) :
      StepEffect s (resetEvent { s with inputs := rest })

theorem step_stepEffect {s t : State} (h : step s = .next t) : StepEffect s t := by
  cases ht : s.trigger with
  | some k =>
    have hrun : s.trigger.isSome = true := by rw [ht]; rfl
    rw [step_running hrun] at h
    rcases drainPass_cases h with ⟨u, hpass, rfl⟩ | ⟨u, v, hpass, hcmd, rfl⟩
    · exact .finish hrun hpass
    · exact .command hrun hpass hcmd
  | none =>
    rw [step_idle ht] at h
    rcases nextEvent_cases h with ⟨hin, rfl⟩ | ⟨e, rest, hin, hport | hguest | hrefresh | hreset⟩
    · exact .idle ht hin
    · obtain ⟨a, i, rfl, hdec, hcmd, hexec⟩ := hport
      rcases exec_registerEffect hcmd hexec with hreg | ⟨v, rfl, rfl⟩
      · exact .register ht hin hreg
      · exact .acknowledge ht hin hdec
    · obtain ⟨u, v, hmem, rfl⟩ := hguest
      exact .guest ht hin hmem
    · obtain ⟨rfl, hstart⟩ := hrefresh
      exact .refresh ht hin hstart
    · obtain ⟨rfl, rfl⟩ := hreset
      exact .reset ht hin

/-- A `Reset` event always has its step (`70_reset_and_hazards.md` R370). -/
theorem step_of_reset {s : State} {rest : List Event} (ht : s.trigger = none) (hin : s.inputs = .reset :: rest) :
    step s = .next (resetEvent { s with inputs := rest }) := by
  rw [step_idle ht, nextEvent, hin]
  rfl

/-! ### The state after reset -/

theorem Config.default_valid : Config.default.valid = true := by decide +kernel

theorem toNat_ofNat_of_le_bound {n b : Nat} (h : n ≤ b) (hb : b < 2 ^ 31) :
    (BitVec.ofNat 32 n).toNat = n := by
  rw [BitVec.toNat_ofNat]
  omega

/-- The reset mode and identity of a valid configuration are legal (`10_state.md` R24, R31, R50). -/
theorem State.resetOf_modeInv {c : Config} (h : c.valid = true) : ModeInv (State.resetOf c) := by
  obtain ⟨hdw, hw, hdh, hh, hdb, hb, hid⟩ := Config.valid_mode h
  refine ⟨?_, ?_, ?_, hid⟩
  · exact (toNat_ofNat_of_le_bound hdw hw).trans_le hdw
  · exact (toNat_ofNat_of_le_bound hdh hh).trans_le hdh
  · rwa [show (State.resetOf c).bpp.toNat = c.defaultBpp from toNat_ofNat_of_le_bound hb (by decide)]

theorem State.resetOf_lineInv (c : Config) : LineInv (State.resetOf c) :=
  ⟨fun hline => absurd hline Bool.false_ne_true, fun _ hstatus => absurd rfl hstatus,
    fun hrun => absurd hrun Bool.false_ne_true⟩

theorem State.resetOf_shapeInv (c : Config) : ShapeInv (State.resetOf c) :=
  ⟨Memory.wf_nil, Memory.wf_nil, List.length_replicate, Nat.zero_le _, List.nodup_nil, Nat.zero_le _, Nat.zero_le _,
    fun _ => rfl⟩

/-- Settles O42: the invariants hold of the reset state of every valid configuration, and the default one is valid. -/
theorem resetStateMeetsTheInvariants : Obligations.ResetStateMeetsTheInvariants := by
  unfold Obligations.ResetStateMeetsTheInvariants
  refine ⟨Config.default_valid, State.resetOf_lineInv _, State.resetOf_shapeInv _,
    State.resetOf_modeInv Config.default_valid, BitVec.zero_and, fun a => ⟨?_, ?_⟩⟩
  · exact Memory.read_of_unlisted rfl
  · exact Memory.read_of_unlisted rfl

/-- What lowering the line reports (`90_conflicts.md` C6). -/
theorem lowerLine_out (s : State) :
    (lowerLine s).out = if s.irqLine = true then s.out ++ [.irqLower] else s.out := by
  unfold lowerLine
  split <;> rfl

theorem out_prefix_lowerLine (s : State) : s.out <+: (lowerLine s).out := by
  rw [lowerLine_out]
  split
  · exact List.prefix_append _ _
  · exact List.prefix_rfl

/-- Settles O41: a `Reset` step is `resetEvent`, which is the table of R50 but for latches and cursor buffers. -/
theorem resetRestoresEveryFieldOfTheTable : Obligations.ResetRestoresEveryFieldOfTheTable := by
  unfold Obligations.ResetRestoresEveryFieldOfTheTable
  intro s rest ht hin
  refine ⟨_, step_of_reset ht hin, ?_⟩
  obtain ⟨mn, mx, next, stop, cur, d, heq, -, -⟩ := resetEvent_cases { s with inputs := rest }
  rw [heq]
  exact ⟨by simp only [State.resetOf, and_self], rfl, rfl, rfl, rfl, rfl, rfl, rfl, lowerLine_out _⟩

/-! ### The register bank in an invocation -/

/-- Settles O52, over the two exits of a pass. -/
theorem invocationsLeaveTheRegisterBank : Obligations.InvocationsLeaveTheRegisterBank := by
  unfold Obligations.InvocationsLeaveTheRegisterBank
  intro s t hrun h
  cases step_stepEffect h with
  | @finish u _ hpass =>
    have hend := finishInvocation_endEffect u
    refine ⟨?_, fun htrig => ?_, fun _ => by rw [hend.eq]⟩
    · rw [hend.eq, hpass.eq]
      simp only [SameRegisters, and_self]
    · rw [hend.eq] at htrig
      cases htrig
  | @command u v _ hpass hcmd =>
    refine ⟨?_, fun _ => ?_, fun htrig => ?_⟩
    · rw [hcmd.eq, hpass.eq]
      simp only [SameRegisters, and_self]
    · rw [hcmd.eq, hpass.eq]
      exact ⟨rfl, rfl⟩
    · rw [hcmd.eq, hpass.eq] at htrig
      simp_all
  | idle ht | register ht | acknowledge ht | guest ht | refresh ht | reset ht => simp [ht] at hrun

/-! ### The traces -/

/-- Both traces of `s` are beginnings of those of `t` (`10_state.md` R48, R49). -/
def TracesExtend (s t : State) : Prop := s.out <+: t.out ∧ s.diag <+: t.diag

theorem TracesExtend.trans {s t u : State} (h : TracesExtend s t) (k : TracesExtend t u) : TracesExtend s u :=
  ⟨h.1.trans k.1, h.2.trans k.2⟩

/-- Where the traces are the same data, they extend. -/
theorem TracesExtend.of_eq {s t : State} (hout : t.out = s.out) (hdiag : t.diag = s.diag) : TracesExtend s t :=
  ⟨hout ▸ List.prefix_rfl, hdiag ▸ List.prefix_rfl⟩

theorem PassEffect.tracesExtend {s t : State} (h : PassEffect s t) : TracesExtend s t :=
  .of_eq (by rw [h.eq]) (by rw [h.eq])

theorem EndEffect.tracesExtend {s t : State} (h : EndEffect s t) : TracesExtend s t :=
  ⟨h.out, by rw [h.eq]⟩

theorem StartEffect.tracesExtend {s t : State} (h : StartEffect s t) : TracesExtend s t :=
  ⟨h.out, by rw [h.eq]⟩

theorem acknowledge_tracesExtend (v : Word) (s : State) : TracesExtend s (acknowledge v s) := by
  rcases acknowledge_cases v s with ⟨-, -, heq⟩ | ⟨-, heq⟩ <;> rw [heq]
  · exact ⟨List.prefix_append _ _, List.prefix_rfl⟩
  · exact .of_eq rfl rfl

theorem resetEvent_tracesExtend (s : State) : TracesExtend s (resetEvent s) := by
  obtain ⟨mn, mx, next, stop, cur, d, heq, -, -⟩ := resetEvent_cases s
  rw [heq]
  exact ⟨out_prefix_lowerLine s, List.prefix_rfl⟩

/-- Settles O54, over what a step can be. -/
theorem tracesOnlyGrow : Obligations.TracesOnlyGrow := by
  unfold Obligations.TracesOnlyGrow
  intro s t h
  change TracesExtend s t
  cases step_stepEffect h with
  | finish _ hpass => exact hpass.tracesExtend.trans (finishInvocation_endEffect _).tracesExtend
  | command _ hpass hcmd => exact hpass.tracesExtend.trans ⟨hcmd.out, hcmd.diag⟩
  | idle => exact .of_eq rfl rfl
  | register _ _ hreg => exact ⟨hreg.out, hreg.diag⟩
  | @acknowledge _ rest v => exact acknowledge_tracesExtend v { s with inputs := rest }
  | guest _ _ hmem => exact hmem.onlyFetch.passEffect.tracesExtend
  | refresh _ _ hstart => exact hstart.tracesExtend
  | @reset rest => exact resetEvent_tracesExtend { s with inputs := rest }

/-! ### The configuration and the mode -/

/-- The configuration of `t` is that of `s`, and `t` has a legal mode and identity where `s` has. -/
def KeepsMode (s t : State) : Prop := t.cfg = s.cfg ∧ (ModeInv s → ModeInv t)

theorem KeepsMode.trans {s t u : State} (h : KeepsMode s t) (k : KeepsMode t u) : KeepsMode s u :=
  ⟨k.1.trans h.1, k.2 ∘ h.2⟩

theorem PassEffect.keepsMode {s t : State} (h : PassEffect s t) : KeepsMode s t := by
  rw [h.eq]
  exact ⟨rfl, id⟩

theorem CommandEffect.keepsMode {s t : State} (h : CommandEffect s t) : KeepsMode s t := by
  rw [h.eq]
  exact ⟨rfl, id⟩

theorem EndEffect.keepsMode {s t : State} (h : EndEffect s t) : KeepsMode s t := by
  rw [h.eq]
  exact ⟨rfl, id⟩

theorem StartEffect.keepsMode {s t : State} (h : StartEffect s t) : KeepsMode s t := by
  rw [h.eq]
  exact ⟨rfl, id⟩

theorem RegisterEffect.keepsMode {s t : State} (h : RegisterEffect s t) : KeepsMode s t :=
  ⟨by rw [h.eq], h.mode⟩

theorem acknowledge_keepsMode (v : Word) (s : State) : KeepsMode s (acknowledge v s) := by
  rcases acknowledge_cases v s with ⟨-, -, heq⟩ | ⟨-, heq⟩ <;> (rw [heq]; exact ⟨rfl, id⟩)

/-- A reset takes the mode of the configuration, so it needs no legal mode before (R24, R50). -/
theorem resetEvent_keepsMode {s : State} (hvalid : s.cfg.valid = true) : KeepsMode s (resetEvent s) := by
  obtain ⟨mn, mx, next, stop, cur, d, heq, -, -⟩ := resetEvent_cases s
  rw [heq]
  exact ⟨rfl, fun _ => State.resetOf_modeInv hvalid⟩

/-- Settles O55, over what a step can be. -/
theorem stepsKeepModeAndConfiguration : Obligations.StepsKeepModeAndConfiguration := by
  unfold Obligations.StepsKeepModeAndConfiguration
  intro s t hvalid h
  change KeepsMode s t
  cases step_stepEffect h with
  | finish _ hpass => exact hpass.keepsMode.trans (finishInvocation_endEffect _).keepsMode
  | command _ hpass hcmd => exact hpass.keepsMode.trans hcmd.keepsMode
  | idle => exact ⟨rfl, id⟩
  | register _ _ hreg => exact hreg.keepsMode
  | @acknowledge _ rest v => exact acknowledge_keepsMode v { s with inputs := rest }
  | guest _ _ hmem => exact hmem.onlyFetch.passEffect.keepsMode
  | refresh _ _ hstart => exact hstart.keepsMode
  | reset => exact resetEvent_keepsMode hvalid

/-! ### The shape of the stored data -/

theorem PassEffect.shapeInv {s t : State} (h : PassEffect s t) (hs : ShapeInv s) : ShapeInv t := by
  obtain ⟨hfifo, hfb, hrest⟩ := hs
  rw [h.eq]
  exact ⟨h.fifo_wf hfifo, h.fb_wf hfb, hrest⟩

theorem CommandEffect.shapeInv {s t : State} (h : CommandEffect s t) (hs : ShapeInv s) : ShapeInv t := by
  obtain ⟨hfifo, hfb, hscratch, hqueue, hlogged, hand, hxor, hsync⟩ := hs
  rw [h.eq]
  exact ⟨h.fifo_wf hfifo, h.fb_wf hfb, hscratch, h.queue hqueue, h.logged hlogged, h.andMask hand, h.xorMask hxor,
    hsync⟩

/-- The end of an invocation clears `syncing`, and the end of a refresh empties the queue (`46_redraw_queue.md`
R316). -/
theorem EndEffect.shapeInv {s t : State} (h : EndEffect s t) (hs : ShapeInv s) : ShapeInv t := by
  obtain ⟨hfifo, hfb, hscratch, hqueue, hlogged, hand, hxor, -⟩ := hs
  have hqueue' : t.queue.length ≤ 512 := by
    by_cases ht : s.trigger = some .refresh
    · rw [(h.refresh ht).1]
      exact Nat.zero_le _
    · rwa [(h.other ht).1]
  rw [h.eq]
  exact ⟨hfifo, hfb, hscratch, hqueue', hlogged, hand, hxor, fun _ => rfl⟩

/-- A register operation sets `syncing` only as it starts an invocation (`40_register_bank.md` R144). -/
theorem RegisterEffect.shapeInv {s t : State} (h : RegisterEffect s t) (hs : ShapeInv s) : ShapeInv t := by
  obtain ⟨hfifo, hfb, hscratch, hqueue, hlogged, hand, hxor, hsync⟩ := hs
  have hsync' : t.trigger = none → t.syncing = false := by
    rcases h.running with ⟨htrig, -, hsame⟩ | ⟨htrig, -⟩
    · rwa [htrig, hsame]
    · simp [htrig]
  have hscratch' : t.scratch.length = s.cfg.scratchSize := h.scratch.trans hscratch
  rw [h.eq]
  exact ⟨hfifo, hfb, hscratch', hqueue, hlogged, hand, hxor, hsync'⟩

theorem StartEffect.shapeInv {s t : State} (h : StartEffect s t) (hs : ShapeInv s) : ShapeInv t := by
  obtain ⟨hfifo, hfb, hscratch, hqueue, hlogged, hand, hxor, hsync⟩ := hs
  have hsync' : t.trigger = none → s.syncing = false := by
    rcases h.running with ⟨htrig, -⟩ | ⟨htrig, -⟩
    · rwa [htrig]
    · simp [htrig]
  rw [h.eq]
  exact ⟨hfifo, hfb, hscratch, hqueue, hlogged, hand, hxor, hsync'⟩

theorem acknowledge_shapeInv (v : Word) {s : State} (hs : ShapeInv s) : ShapeInv (acknowledge v s) := by
  rcases acknowledge_cases v s with ⟨-, -, heq⟩ | ⟨-, heq⟩ <;> (rw [heq]; exact hs)

/-- A reset keeps the memories and takes everything else from the table of R50; the free cursor masks are cut at their
capacity. -/
theorem resetEvent_shapeInv {s : State} (hfifo : Memory.wf s.fifo) (hfb : Memory.wf s.fb) :
    ShapeInv (resetEvent s) := by
  obtain ⟨mn, mx, next, stop, cur, d, heq, hand, hxor⟩ := resetEvent_cases s
  obtain ⟨-, -, hscratch, hqueue, hlogged, -, -, hsync⟩ := State.resetOf_shapeInv s.cfg
  rw [heq]
  exact ⟨hfifo, hfb, hscratch, hqueue, hlogged, hand, hxor, hsync⟩

/-- Settles O59, over what a step can be. -/
theorem stepsKeepTheShape : Obligations.StepsKeepTheShape := by
  unfold Obligations.StepsKeepTheShape
  intro s t _ hs h
  cases step_stepEffect h with
  | finish _ hpass => exact (finishInvocation_endEffect _).shapeInv (hpass.shapeInv hs)
  | command _ hpass hcmd => exact hcmd.shapeInv (hpass.shapeInv hs)
  | idle => exact hs
  | register _ _ hreg => exact hreg.shapeInv hs
  | acknowledge => exact acknowledge_shapeInv _ hs
  | guest _ _ hmem => exact hmem.onlyFetch.passEffect.shapeInv hs
  | refresh _ _ hstart => exact hstart.shapeInv hs
  | reset =>
    obtain ⟨hfifo, hfb, -⟩ := hs
    exact resetEvent_shapeInv hfifo hfb

end Sys2Proof.Machine

/-! PROOFS. The guest's accesses to the two memories, between two operations of the core and before its accesses, and
the statements of `20_memory.md`: who touches which memory, and what a port access runs. -/

namespace Sys2Proof.Machine

/-! ### Who touches what (`20_memory.md` R70) -/

theorem CommandEffect.sameRegisters {s t : State} (h : CommandEffect s t) : SameRegisters s t := by
  rw [h.eq]
  simp only [SameRegisters, and_self]

/-- Settles O50: every command's effect is a `CommandEffect`, which writes no field of the register bank. -/
theorem commandsLeaveTheRegisterBank : Obligations.CommandsLeaveTheRegisterBank := by
  unfold Obligations.CommandsLeaveTheRegisterBank
  intro i s t hi h
  exact (exec_commandEffect hi h).sameRegisters

/-- Two states agree on the memories, the redraw queue, the cursor buffers, the log and what is the environment's:
everything of R70 that is no register. -/
def SameMemories (s t : State) : Prop :=
  t.fifo = s.fifo ∧ t.fb = s.fb ∧ t.queue = s.queue ∧ t.cur = s.cur ∧ t.logged = s.logged
  ∧ t.guestSched = s.guestSched ∧ t.guestReads = s.guestReads ∧ t.inputs = s.inputs

theorem RegisterEffect.sameMemories {s t : State} (h : RegisterEffect s t) : SameMemories s t := by
  rw [h.eq]
  simp only [SameMemories, and_self]

theorem acknowledge_sameMemories (v : Word) (s : State) : SameMemories s (acknowledge v s) := by
  rcases acknowledge_cases v s with ⟨-, -, heq⟩ | ⟨-, heq⟩ <;> (rw [heq]; simp only [SameMemories, and_self])

/-- Settles O51: a register or port operation is a `RegisterEffect` or the acknowledge. -/
theorem registerOperationsLeaveTheMemories : Obligations.RegisterOperationsLeaveTheMemories := by
  unfold Obligations.RegisterOperationsLeaveTheMemories
  intro i s t hi h
  change SameMemories s t
  rcases exec_registerEffect hi h with hreg | ⟨v, -, rfl⟩
  · exact hreg.sameMemories
  · exact acknowledge_sameMemories v s

/-! ### A scheduled access of the guest (`20_memory.md` R76) -/

theorem storeGuest_fifo (s : State) (a : Nat) (bs : List Byte) :
    storeGuest s ⟨.fifo, a, bs⟩ = { s with fifo := Memory.writeWithin s.cfg.fifoSize s.fifo a bs } := rfl

theorem storeGuest_fb (s : State) (a : Nat) (bs : List Byte) :
    storeGuest s ⟨.fb, a, bs⟩ = { s with fb := Memory.writeWithin s.cfg.fbSize s.fb a bs } := rfl

theorem applyGuest_write_of_interleave {s : State} (h : s.cfg.guestInterleave = true) (w : GuestWrite) :
    applyGuest s (.write w) = storeGuest s w := if_pos h

theorem applyGuest_write_of_noInterleave {s : State} (h : s.cfg.guestInterleave = false) (w : GuestWrite) :
    applyGuest s (.write w) = s := if_neg (by rw [h]; exact Bool.false_ne_true)

theorem applyGuest_read_inside {s : State} {space : Space} {a : Nat} (h : a < spaceSize s.cfg space) :
    applyGuest s (.read space a) = { s with guestReads := s.guestReads ++ [sharedByte s space a] } := if_pos h

theorem applyGuest_read_outside {s : State} {space : Space} {a : Nat} (h : spaceSize s.cfg space ≤ a) :
    applyGuest s (.read space a) = s := if_neg (Nat.not_lt.2 h)

theorem storeGuest_guestReads (s : State) (w : GuestWrite) : (storeGuest s w).guestReads = s.guestReads := by
  rw [storeGuest_frame]

/-- A write records nothing, and a read appends at most its byte (log 10). -/
theorem guestReads_prefix_applyGuest (s : State) (a : GuestAccess) : s.guestReads <+: (applyGuest s a).guestReads := by
  cases a with
  | write w =>
    cases h : s.cfg.guestInterleave with
    | true => rw [applyGuest_write_of_interleave h, storeGuest_guestReads]
    | false => rw [applyGuest_write_of_noInterleave h]
  | read space addr =>
    rcases Nat.lt_or_ge addr (spaceSize s.cfg space) with h | h
    · rw [applyGuest_read_inside h]
      exact List.prefix_append _ _
    · rw [applyGuest_read_outside h]

theorem guestReads_prefix_foldl_applyGuest (as : List GuestAccess) (s : State) :
    s.guestReads <+: (as.foldl applyGuest s).guestReads := by
  induction as generalizing s with
  | nil => exact List.prefix_rfl
  | cons a as ih => exact (guestReads_prefix_applyGuest s a).trans (ih _)

/-! ### The group before an access of the core -/

theorem tick_of_scheduled {s : State} {as : List GuestAccess} {rest : List (List GuestAccess)}
    (h : s.guestSched = as :: rest) : tick s = as.foldl applyGuest { s with guestSched := rest } := by
  unfold tick
  rw [h]

/-- A row read of one byte more is the byte the framebuffer holds after the tick, then the rest of the row. -/
theorem fbRead_succ_ok {s t : State} {off n : Nat} {bs : List Byte} (hoff : off < s.cfg.fbSize)
    (h : fbRead (off + 1) n (tick s) = .ok (bs, t)) :
    fbRead off (n + 1) s = .ok (Memory.read .fb (tick s).fb off :: bs, t) := by
  rw [fbRead, if_pos (by rwa [tick_cfg]), h]

theorem fbWrite_cons {s : State} {off : Nat} (hoff : off < s.cfg.fbSize) (b : Byte) (bs : List Byte) :
    fbWrite off (b :: bs) s = fbWrite (off + 1) bs { tick s with fb := Memory.write (tick s).fb off b } := by
  rw [fbWrite, if_pos (by rwa [tick_cfg])]

/-- Settles O60, one clause after the other: the group before an access, the accesses of the core on the tick of their
state, and what one write and one read of the guest do. -/
theorem guestWritesFallBeforeAnAccess : Obligations.GuestWritesFallBeforeAnAccess := by
  unfold Obligations.GuestWritesFallBeforeAnAccess
  refine ⟨fun s => tick_of_quiet, ?group, fun s off v halign hin => ⟨fifoRead32_ok halign hin, fifoWrite32_ok halign hin⟩,
    fun s off hoff => ⟨fun n bs t => fbRead_succ_ok hoff, fbWrite_cons hoff⟩, ?rowRead, ?rowWrite,
    fun s w h => applyGuest_write_of_noInterleave h w, ?write, ?read⟩
  case group =>
    intro s as rest hsched
    rw [tick_of_scheduled hsched]
    exact ⟨rfl, foldl_applyGuest_frame as { s with guestSched := rest },
      guestReads_prefix_foldl_applyGuest as { s with guestSched := rest },
      foldl_applyGuest_memories as { s with guestSched := rest }⟩
  case rowRead =>
    intro s off n hin
    obtain ⟨bs, t, hread, hlen, -⟩ := fbRead_ok n off s hin
    exact ⟨bs, t, hread, hlen, fbRead_guestSched n off s hread⟩
  case rowWrite =>
    intro s off bs hin
    obtain ⟨t, hwrite, -⟩ := fbWrite_ok bs off s hin
    exact ⟨t, hwrite, fbWrite_guestSched bs off s hwrite⟩
  case write =>
    intro s a bs hinterleave
    have hstore := applyGuest_write_of_interleave hinterleave
    exact ⟨fun hwf => ⟨Memory.writeWithin s.cfg.fifoSize s.fifo a bs, (hstore _).trans (storeGuest_fifo s a bs),
        Memory.writeWithin_wf a bs hwf, Memory.read_writeWithin s.fifo a bs⟩,
      fun hwf => ⟨Memory.writeWithin s.cfg.fbSize s.fb a bs, (hstore _).trans (storeGuest_fb s a bs),
        Memory.writeWithin_wf a bs hwf, Memory.read_writeWithin s.fb a bs⟩⟩
  case read =>
    intro s a
    exact ⟨applyGuest_read_inside (space := .fifo), applyGuest_read_inside (space := .fb),
      applyGuest_read_outside (space := .fifo), applyGuest_read_outside (space := .fb)⟩

/-! ### One event between two operations of the core (`10_state.md` R20) -/

theorem step_of_event {s : State} {e : Event} {rest : List Event} (hidle : s.trigger = none)
    (hin : s.inputs = e :: rest) : step s = handleEvent e { s with inputs := rest } := by
  rw [step_idle hidle, nextEvent, hin]

theorem portEvent_of_decoded {s : State} {a : PortAccess} {i : Instr} (h : decodePort s.cfg a = .ok i) :
    portEvent a s = exec i s := by
  unfold portEvent
  rw [h]

theorem portEvent_of_undecoded {s : State} {a : PortAccess} {e : DecodeError} (h : decodePort s.cfg a = .error e) :
    portEvent a s = .refused .undecodedPort := by
  unfold portEvent
  rw [h]

/-- The core decodes 32-bit accesses at its three ports and no other (`20_memory.md` R64). -/
theorem decodePort_of_unmapped {c : Config} {a : PortAccess}
    (h : a.width ≠ 32 ∨ (a.offset ≠ c.portIndex ∧ a.offset ≠ c.portValue ∧ a.offset ≠ c.portIrqStatus)) :
    decodePort c a = .error .undecodedPort := by
  unfold decodePort
  by_cases hwidth : a.width = 32
  · obtain ⟨hindex, hvalue, hirq⟩ := h.resolve_left (not_not_intro hwidth)
    rw [if_pos hwidth, if_neg hindex, if_neg hvalue, if_neg hirq]
  · rw [if_neg hwidth]

/-- Settles O2, over what the port access decodes to. -/
theorem stepRunsThePortOperation : Obligations.StepRunsThePortOperation := by
  unfold Obligations.StepRunsThePortOperation
  intro s a rest hidle hin
  rw [step_of_event hidle hin]
  exact ⟨fun i hdec => portEvent_of_decoded (s := { s with inputs := rest }) hdec,
    fun hunmapped => portEvent_of_undecoded (s := { s with inputs := rest }) (decodePort_of_unmapped hunmapped)⟩

theorem handleEvent_guestWrite {s : State} {w : GuestWrite} (h : w.addr + w.bytes.length ≤ spaceSize s.cfg w.space) :
    handleEvent (.guestWrite w) s = .next (storeGuest s w) := if_pos (decide_eq_true h)

theorem handleEvent_guestRead {s : State} {space : Space} {a : Nat} (h : a < spaceSize s.cfg space) :
    handleEvent (.guestRead space a) s = .next (returnData ((sharedByte s space a).setWidth 32) s) := if_pos h

/-- A string that lies inside its memory is stored as a whole. -/
theorem Memory.read_writeWithin_of_fits {size : Nat} {space : Space} (m : Memory) {a : Nat} {bs : List Byte}
    (hfits : a + bs.length ≤ size) (b : Nat) :
    Memory.read space (Memory.writeWithin size m a bs) b
      = if a ≤ b ∧ b < a + bs.length then bs.getD (b - a) 0 else Memory.read space m b := by
  rw [Memory.read_writeWithin]
  exact if_congr ⟨fun ⟨hlo, hhi, _⟩ => ⟨hlo, hhi⟩, fun ⟨hlo, hhi⟩ => ⟨hlo, hhi, hhi.trans_le hfits⟩⟩ rfl rfl

/-- Settles O43: a direct write is `storeGuest`, which fits its memory, and a direct read is `returnData`. -/
theorem guestMemoryAccessesTouchOneMemory : Obligations.GuestMemoryAccessesTouchOneMemory := by
  unfold Obligations.GuestMemoryAccessesTouchOneMemory
  intro s rest hidle
  refine ⟨?fifoWrite, ?fbWrite, ?fifoRead, ?fbRead⟩
  case fifoWrite =>
    intro a bs hin hfits hwf
    exact ⟨Memory.writeWithin s.cfg.fifoSize s.fifo a bs, (step_of_event hidle hin).trans (handleEvent_guestWrite hfits),
      Memory.writeWithin_wf a bs hwf, Memory.read_writeWithin_of_fits s.fifo hfits⟩
  case fbWrite =>
    intro a bs hin hfits hwf
    exact ⟨Memory.writeWithin s.cfg.fbSize s.fb a bs, (step_of_event hidle hin).trans (handleEvent_guestWrite hfits),
      Memory.writeWithin_wf a bs hwf, Memory.read_writeWithin_of_fits s.fb hfits⟩
  case fifoRead => exact fun a hin ha => (step_of_event hidle hin).trans (handleEvent_guestRead ha)
  case fbRead => exact fun a hin ha => (step_of_event hidle hin).trans (handleEvent_guestRead ha)

end Sys2Proof.Machine

/-! PROOFS. The encoding of `30_encoding.md`: a FIFO command is an opcode, its fixed words and the payload they declare,
and the decoder and the encoder agree on it; and the same of register indices and port accesses. -/

namespace Sys2Proof

/-! ### Complete commands (`30_encoding.md` R90 to R92) -/

/-- The words of a whole command: it has an opcode number, its declared count of fixed words, and the payload these
declare. -/
structure CompleteCommand (c : Config) (n : CmdName) (args payload : List Word) : Prop where
  live : (c.opcode n).isSome = true
  fixed : args.length = c.fixedArgs n
  payload : payload.length = c.payloadWords n args

theorem map_getD_range {α : Type} {l : List α} {k : Nat} (d : α) (h : l.length = k) :
    (List.range k).map (fun j => l.getD j d) = l := by
  refine List.ext_getElem (by simp [h]) fun j _ hj => ?_
  simp [hj]

/-- The encoder undoes `buildCommand`: a command with counted operands writes exactly the fixed words it read, every
other one writes its argument words back. -/
theorem encode_buildCommand {c : Config} {n : CmdName} {args payload : List Word}
    (h : CompleteCommand c n args payload) :
    encode c (buildCommand n args payload) = .command ((c.opcode n).getD 0 :: (args ++ payload)) := by
  have counted := congrArg (fun ws => Code.command ((c.opcode n).getD 0 :: (ws ++ payload))) (map_getD_range 0 h.fixed)
  cases n with
  | defineCursor | defineAlphaCursor | remapGmr2 => exact counted
  | update | rectFill | rectCopy | updateVerbose | fence =>
    obtain rfl := List.eq_nil_of_length_eq_zero h.payload
    exact counted
  | escape => simp only [encode, buildCommand, Config.opcode, Option.getD_some, List.take_append_drop]
  | defineScreen => rfl
  | invalidCmd | destroyScreen | defineGmrfb | blitGmrfbToScreen | blitScreenToGmrfb | annotationFill | annotationCopy
  | defineGmr2 | dead | dead2 | nop | nopError =>
    obtain rfl := List.eq_nil_of_length_eq_zero h.payload
    simp [encode, buildCommand, Config.opcode]

/-- A complete command is well formed: what the check asks of each is its counts, or that it has an opcode. -/
theorem buildCommand_wellFormed {c : Config} {n : CmdName} {args payload : List Word}
    (h : CompleteCommand c n args payload) : (buildCommand n args payload).wellFormed c = true := by
  have hargs : c.argsOk n args = true := beq_iff_eq.2 h.fixed
  have hpayload : c.payloadOk n args payload = true := beq_iff_eq.2 h.payload
  cases n with
  | update | rectCopy | updateVerbose | fence => rfl
  | rectFill => exact h.live
  | defineCursor | defineAlphaCursor | remapGmr2 => exact hpayload
  | escape =>
    have hfixed : args.length = c.skipArgs.escape := h.fixed
    simp only [buildCommand, Instr.wellFormed, List.take_append_drop, hargs, hpayload, List.length_take, hfixed,
      beq_self_eq_true, Bool.and_true]
  | defineScreen => simp [buildCommand, Instr.wellFormed, hargs, hpayload]
  | invalidCmd | destroyScreen | defineGmrfb | blitGmrfbToScreen | blitScreenToGmrfb | annotationFill | annotationCopy
  | defineGmr2 | dead | dead2 | nop | nopError => exact hargs

/-! ### What the command decoder accepts -/

/-- Everything the command decoder can answer: an opcode word no row names (R280), or a complete command at the front of
the words (R92). -/
inductive CommandDecoding (c : Config) : List Word → Instr → List Word → Prop
  | unknown {op : Word} {rest : List Word} (unnamed : c.lookupOpcode op = none) :
      CommandDecoding c (op :: rest) (.unknown op) rest
  | known {op : Word} {n : CmdName} {args payload rest : List Word} (named : c.lookupOpcode op = some n)
      (complete : CompleteCommand c n args payload) :
      CommandDecoding c (op :: (args ++ (payload ++ rest))) (buildCommand n args payload) rest

theorem decodeCommand_commandDecoding {c : Config} {ws rest : List Word} {i : Instr}
    (h : decodeCommand c ws = .ok (i, rest)) : CommandDecoding c ws i rest := by
  cases ws with
  | nil => cases h
  | cons op ws =>
    cases hl : c.lookupOpcode op with
    | none =>
      rw [decodeCommand_unknown hl] at h
      cases h
      exact .unknown hl
    | some n =>
      rw [decodeCommand_known hl] at h
      split at h
      · cases h
      · rename_i hfixed
        split at h
        · cases h
        · rename_i hpayload
          cases h
          have hlive : (c.opcode n).isSome = true := by rw [Config.opcode_of_lookup hl]; rfl
          have hwhole := CommandDecoding.known hl
            (rest := (ws.drop (c.fixedArgs n)).drop (c.payloadWords n (ws.take (c.fixedArgs n))))
            ⟨hlive, List.length_take_of_le (not_lt.1 hfixed), List.length_take_of_le (not_lt.1 hpayload)⟩
          rwa [List.take_append_drop, List.take_append_drop] at hwhole

/-- Settles O4, over the two answers of the command decoder. -/
theorem decodedCommandsAreTheirEncoding : Obligations.DecodedCommandsAreTheirEncoding := by
  unfold Obligations.DecodedCommandsAreTheirEncoding
  intro c ws rest i hdec
  cases decodeCommand_commandDecoding hdec with
  | @unknown op _ unnamed => exact ⟨by simp [Instr.wellFormed, unnamed], [op], rfl, rfl⟩
  | @known op n args payload _ named complete =>
    refine ⟨buildCommand_wellFormed complete, op :: (args ++ payload), ?_, by simp⟩
    rw [encode_buildCommand complete, Config.opcode_of_lookup named, Option.getD_some]

/-! ### Decoding an encoding, by kind of instruction -/

/-- Under a valid configuration the encoding of a complete command decodes to it. -/
theorem decode_encode_buildCommand {c : Config} (hv : c.valid = true) (n : CmdName) (args payload : List Word)
    (live : (c.opcode n).isSome = true) (fixed : args.length = c.fixedArgs n)
    (hpayload : payload.length = c.payloadWords n args) :
    decode c (encode c (buildCommand n args payload)) = .ok (buildCommand n args payload) := by
  obtain ⟨op, hop⟩ := Option.isSome_iff_exists.1 live
  have hdec := decodeCommand_complete (Config.lookup_opcode hv hop) (rest := []) fixed hpayload
  rw [List.append_nil] at hdec
  rw [encode_buildCommand ⟨live, fixed, hpayload⟩, hop, Option.getD_some, decode, hdec]

/-- A member of the skip class without payload, whose argument words are all it carries (`44_skip_commands.md` R261). -/
theorem decode_encode_skipped {c : Config} (hv : c.valid = true) (n : CmdName) {args : List Word}
    (hargs : c.argsOk n args = true) (live : (c.opcode n).isSome = true := by rfl)
    (noPayload : c.payloadWords n args = 0 := by rfl) :
    decode c (encode c (buildCommand n args [])) = .ok (buildCommand n args []) :=
  decode_encode_buildCommand hv n args [] live (beq_iff_eq.1 hargs) noPayload.symm

/-- ESCAPE's fixed words fall apart where the decoder cuts them: one before `size`, if there is one (R97). -/
theorem escape_words_split {c : Config} {nsid size payload : List Word}
    (h : (Instr.escape nsid size payload).wellFormed c = true) :
    (nsid ++ size).length = c.fixedArgs .escape ∧ payload.length = c.payloadWords .escape (nsid ++ size)
    ∧ buildCommand .escape (nsid ++ size) payload = .escape nsid size payload := by
  simp only [Instr.wellFormed, Bool.and_eq_true, Config.argsOk, Config.payloadOk, beq_iff_eq] at h
  obtain ⟨⟨hnsid, hfixed⟩, hpayload⟩ := h
  refine ⟨hfixed, hpayload, ?_⟩
  rw [Config.fixedArgs, List.length_append] at hfixed
  match nsid with
  | [] =>
    have hsize : size = [] := List.eq_nil_of_length_eq_zero (by simp only [List.length_nil] at hnsid hfixed; omega)
    rw [hsize]
    rfl
  | [_] => rfl
  | _ :: _ :: _ => simp only [List.length_cons] at hnsid; omega

theorem encode_namedRegister (c : Config) (n : RegName) (acc : RegAccess) :
    encode c (namedRegister acc n) = .register (c.regIndex n) acc := by
  cases n <;> rfl

/-- Under a valid configuration the index of a named register decodes to its operation (`20_memory.md` R71). -/
theorem decode_encode_namedRegister {c : Config} (hv : c.valid = true) (n : RegName) (acc : RegAccess) :
    decode c (encode c (namedRegister acc n)) = .ok (namedRegister acc n) := by
  rw [encode_namedRegister, decode, decodeRegister, Config.classify_named hv]

theorem Config.valid_ports {c : Config} (h : c.valid = true) :
    c.portValue ≠ c.portIndex ∧ c.portIrqStatus ≠ c.portIndex ∧ c.portIrqStatus ≠ c.portValue := by
  have h := Config.valid_numbersOk h
  simp only [Config.numbersOk, Bool.and_eq_true, decide_eq_true_eq] at h
  obtain ⟨_, hports⟩ := h
  simp only [List.nodup_cons, List.mem_cons, List.not_mem_nil, or_false, not_or] at hports
  obtain ⟨⟨hvalue, hirq⟩, hirqValue, -⟩ := hports
  exact ⟨Ne.symm hvalue, Ne.symm hirq, Ne.symm hirqValue⟩

/-- Settles O5, by the kind of the instruction: the decoder finds a command by its opcode, a register by its index, a
port by its offset, and each of the three is unambiguous under a valid configuration. -/
theorem decodeOfEncodeIsTheInstruction : Obligations.DecodeOfEncodeIsTheInstruction := by
  unfold Obligations.DecodeOfEncodeIsTheInstruction
  intro c i hv hwf
  obtain ⟨hvalue, hirq, hirqValue⟩ := Config.valid_ports hv
  cases i with
  | update x y w h => exact decode_encode_buildCommand hv .update [x, y, w, h] [] rfl rfl rfl
  | rectFill colour x y w h => exact decode_encode_buildCommand hv .rectFill [colour, x, y, w, h] [] hwf rfl rfl
  | rectCopy sx sy dx dy w h => exact decode_encode_buildCommand hv .rectCopy [sx, sy, dx, dy, w, h] [] rfl rfl rfl
  | updateVerbose x y w h r => exact decode_encode_buildCommand hv .updateVerbose [x, y, w, h, r] [] rfl rfl rfl
  | fence v => exact decode_encode_buildCommand hv .fence [v] [] rfl rfl rfl
  | defineCursor id hx hy w h ab xb payload =>
    exact decode_encode_buildCommand hv .defineCursor [id, hx, hy, w, h, ab, xb] payload rfl rfl (beq_iff_eq.1 hwf)
  | defineAlphaCursor id hx hy w h pixels =>
    exact decode_encode_buildCommand hv .defineAlphaCursor [id, hx, hy, w, h] pixels rfl rfl (beq_iff_eq.1 hwf)
  | remapGmr2 id flags off pages payload =>
    exact decode_encode_buildCommand hv .remapGmr2 [id, flags, off, pages] payload rfl rfl (beq_iff_eq.1 hwf)
  | escape nsid size payload =>
    obtain ⟨hfixed, hpayload, hbuild⟩ := escape_words_split hwf
    exact hbuild ▸ decode_encode_buildCommand hv .escape (nsid ++ size) payload rfl hfixed hpayload
  | defineScreen args payload =>
    obtain ⟨hfixed, hpayload⟩ := Bool.and_eq_true_iff.1 hwf
    exact decode_encode_buildCommand hv .defineScreen args payload rfl (beq_iff_eq.1 hfixed) (beq_iff_eq.1 hpayload)
  | invalidCmd args => exact decode_encode_skipped hv .invalidCmd hwf
  | destroyScreen args => exact decode_encode_skipped hv .destroyScreen hwf
  | defineGmrfb args => exact decode_encode_skipped hv .defineGmrfb hwf
  | blitGmrfbToScreen args => exact decode_encode_skipped hv .blitGmrfbToScreen hwf
  | blitScreenToGmrfb args => exact decode_encode_skipped hv .blitScreenToGmrfb hwf
  | annotationFill args => exact decode_encode_skipped hv .annotationFill hwf
  | annotationCopy args => exact decode_encode_skipped hv .annotationCopy hwf
  | defineGmr2 args => exact decode_encode_skipped hv .defineGmr2 hwf
  | dead args => exact decode_encode_skipped hv .dead hwf
  | dead2 args => exact decode_encode_skipped hv .dead2 hwf
  | nop args => exact decode_encode_skipped hv .nop hwf
  | nopError args => exact decode_encode_skipped hv .nopError hwf
  | unknown op =>
    have hnone : c.lookupOpcode op = none := Option.isNone_iff_eq_none.1 hwf
    rw [encode, decode, decodeCommand_unknown hnone]
  | regId acc => exact decode_encode_namedRegister hv .id acc
  | regEnable acc => exact decode_encode_namedRegister hv .enable acc
  | regWidth acc => exact decode_encode_namedRegister hv .width acc
  | regHeight acc => exact decode_encode_namedRegister hv .height acc
  | regMaxWidth acc => exact decode_encode_namedRegister hv .maxWidth acc
  | regMaxHeight acc => exact decode_encode_namedRegister hv .maxHeight acc
  | regBitsPerPixel acc => exact decode_encode_namedRegister hv .bitsPerPixel acc
  | regRedMask acc => exact decode_encode_namedRegister hv .redMask acc
  | regGreenMask acc => exact decode_encode_namedRegister hv .greenMask acc
  | regBlueMask acc => exact decode_encode_namedRegister hv .blueMask acc
  | regBytesPerLine acc => exact decode_encode_namedRegister hv .bytesPerLine acc
  | regFbStart acc => exact decode_encode_namedRegister hv .fbStart acc
  | regFbSize acc => exact decode_encode_namedRegister hv .fbSize acc
  | regCapabilities acc => exact decode_encode_namedRegister hv .capabilities acc
  | regMemStart acc => exact decode_encode_namedRegister hv .memStart acc
  | regMemSize acc => exact decode_encode_namedRegister hv .memSize acc
  | regConfigDone acc => exact decode_encode_namedRegister hv .configDone acc
  | regSync acc => exact decode_encode_namedRegister hv .sync acc
  | regBusy acc => exact decode_encode_namedRegister hv .busy acc
  | regGuestId acc => exact decode_encode_namedRegister hv .guestId acc
  | regCursorId acc => exact decode_encode_namedRegister hv .cursorId acc
  | regCursorX acc => exact decode_encode_namedRegister hv .cursorX acc
  | regCursorY acc => exact decode_encode_namedRegister hv .cursorY acc
  | regCursorOn acc => exact decode_encode_namedRegister hv .cursorOn acc
  | regScratchSize acc => exact decode_encode_namedRegister hv .scratchSize acc
  | regPitchlock acc => exact decode_encode_namedRegister hv .pitchlock acc
  | regIrqmask acc => exact decode_encode_namedRegister hv .irqmask acc
  | regDisplayId acc => exact decode_encode_namedRegister hv .displayId acc
  | regDisplayIsPrimary acc => exact decode_encode_namedRegister hv .displayIsPrimary acc
  | regDisplayPositionX acc => exact decode_encode_namedRegister hv .displayPositionX acc
  | regDisplayPositionY acc => exact decode_encode_namedRegister hv .displayPositionY acc
  | regDisplayWidth acc => exact decode_encode_namedRegister hv .displayWidth acc
  | regDisplayHeight acc => exact decode_encode_namedRegister hv .displayHeight acc
  | regCap2 acc => exact decode_encode_namedRegister hv .cap2 acc
  | regPalette k acc =>
    simp only [Instr.wellFormed, Bool.and_eq_true, decide_eq_true_eq] at hwf
    rw [encode, decode, decodeRegister, Config.classify_palette hv hwf.1 hwf.2]
  | regScratch k acc =>
    simp only [Instr.wellFormed, Bool.and_eq_true, decide_eq_true_eq] at hwf
    rw [encode, decode, decodeRegister, Config.classify_scratch hv hwf.1 hwf.2]
  | regInvalid index acc =>
    rw [encode, decode, decodeRegister, beq_iff_eq.1 hwf]
  | portIndexWrite v => simp [encode, decode, decodePort]
  | portIndexRead => simp [encode, decode, decodePort]
  | portValueWrite v => simp [encode, decode, decodePort, hvalue]
  | portValueRead => simp [encode, decode, decodePort, hvalue]
  | portIrqStatusWrite v => simp [encode, decode, decodePort, hirq, hirqValue]
  | portIrqStatusRead => simp [encode, decode, decodePort, hirq, hirqValue]

/-- Settles O3: each code is the encoding of its instruction, so O5 decodes it. -/
theorem writtenOutEncodingsDecode : Obligations.WrittenOutEncodingsDecode := by
  have hdec : ∀ i : Instr, i.wellFormed Config.default = true →
      decode Config.default (encode Config.default i) = .ok i :=
    fun i => decodeOfEncodeIsTheInstruction Config.default i Machine.Config.default_valid
  exact ⟨hdec (.update 10 20 100 50) rfl, hdec (.rectCopy 0 0 0 10 640 100) rfl, hdec (.fence 0x77) rfl,
    hdec (.defineAlphaCursor 1 0 0 2 1 [0xFF0000FF, 0]) (by decide), hdec (.escape [0] [6] [0x11, 0x22]) (by decide),
    hdec (.unknown 0x99) (by decide), hdec (.portIndexWrite 2) rfl, hdec (.regWidth (.write 640)) rfl,
    hdec (.regScratch 63 .read) (by decide)⟩

end Sys2Proof

/-! PROOFS. A decode step on a ring (`42_decoder.md` R210 to R213): the fetch reads the words the ring holds, in ring
order, as the command decoder reads them from a list. -/

namespace Sys2Proof.Machine

/-! ### A decode step that has consumed `n` of `L` pending words -/

/-- The state of a decode step on a ring of `L` pending words that began in `s` and has consumed `n` of them: `stop` has
moved past them, in the latch and in the header (`41_ring_cursor.md` R192), and the accounting is done
(`42_decoder.md` R211, R213). -/
def consumed (s : State) (L n : Nat) : State :=
  let stop := ringAfter s.fifoMin s.fifoMax s.fifoStop n
  { s with cmdStart := s.fifoStop, rem := (L : Int) - n, fifoStop := stop, fifo := Memory.write32 s.fifo 12 stop }

theorem afterFetch_eq_consumed (s : State) (n : Nat) :
    afterFetch s n = consumed { loadLatches s with steps := s.steps + 1 } (pending s) n := rfl

@[simp] theorem consumed_cfg (s : State) (L n : Nat) : (consumed s L n).cfg = s.cfg := rfl

section
variable {s : State} (hquiet : Quiet s) (hready : LatchesReady s) (hwf : Memory.wf s.fifo)
include hready

theorem consumed_latchesReady (L n : Nat) : LatchesReady (consumed s L n) := by
  obtain ⟨hmin, hmax, hstop, h16, hlo, hhi, hsize⟩ := hready
  obtain ⟨hstop', hlo', hhi'⟩ := ringAfter_inside hmin hmax n hstop hlo hhi
  exact ⟨hmin, hmax, hstop', h16, hlo', hhi', hsize⟩

/-- What the ring holds behind the consumed words is as it was: only the header word STOP has been stored. -/
theorem ringWords_consumed (L n k : Nat) :
    ringWords (consumed s L n).fifo s.fifoMin s.fifoMax (consumed s L n).fifoStop k
      = ringWords s.fifo s.fifoMin s.fifoMax (ringAfter s.fifoMin s.fifoMax s.fifoStop n) k := by
  obtain ⟨hmin, hmax, hstop, h16, hlo, hhi, -⟩ := hready
  obtain ⟨hstop', hlo', hhi'⟩ := ringAfter_inside hmin hmax n hstop hlo hhi
  exact ringWords_write_stop s.fifo hmin hmax h16 _ k hstop' hlo' hhi'

include hquiet

/-- The opcode word (R211). -/
theorem readWord_opcode (L : Nat) :
    readWord { s with cmdStart := s.fifoStop, rem := (L : Int) - 1 }
      = .ok (Memory.read32 .fifo s.fifo s.fifoStop.toNat, consumed s L 1) :=
  readWord_of_quiet (s := { s with cmdStart := s.fifoStop, rem := (L : Int) - 1 }) hquiet hready

include hwf

/-- `Take(k)` where `k` more words are pending (R213): it answers them and goes on behind them. -/
theorem takeWords_consumed {L n k : Nat} (hpending : n + k ≤ L) :
    takeWords k (consumed s L n)
      = .ok (some (ringWords s.fifo s.fifoMin s.fifoMax (ringAfter s.fifoMin s.fifoMax s.fifoStop n) k),
        consumed s L (n + k)) := by
  have hstored : Memory.write32 (consumed s L n).fifo 12 (consumed s L n).fifoStop = (consumed s L n).fifo :=
    Memory.write32_write32 hwf _ _ _
  have hrem : (k : Int) ≤ (consumed s L n).rem := by simp only [consumed]; omega
  have hrem' : (L : Int) - n - k = (L : Int) - (n + k : Nat) := by omega
  rw [takeWords_of_quiet (s := consumed s L n) hquiet (consumed_latchesReady hready L n) (Memory.write32_wf _ _ hwf)
    hstored hrem]
  simp only [consumed, Memory.write32_write32 hwf, ringAfter_add, hrem', ← ringWords_consumed hready L n k]

end

/-- Where a list of words stands at the front of a ring, the ring holds it there and what follows it behind. -/
theorem ringWords_eq_append {m : Memory} {mn mx stop : Word} {L : Nat} {xs ys : List Word}
    (h : ringWords m mn mx stop L = xs ++ ys) :
    ringWords m mn mx stop xs.length = xs
    ∧ ringWords m mn mx (ringAfter mn mx stop xs.length) ys.length = ys := by
  have hL : L = xs.length + ys.length := by rw [← ringWords_length m mn mx L stop, h, List.length_append]
  rw [hL, ringWords_add] at h
  exact List.append_inj h (ringWords_length m mn mx _ stop)

/-! ### The fetch -/

/-- The words of a complete command at the front of what is pending are its fixed words and the payload these declare
(R211, R213). -/
theorem fetchArgs_of_complete {s : State} (hquiet : Quiet s) (hready : LatchesReady s) (hwf : Memory.wf s.fifo)
    {L k m : Nat} {n : CmdName} {args payload rest : List Word} (complete : CompleteCommand s.cfg n args payload)
    (hpending : k + args.length + payload.length ≤ L)
    (hring : ringWords s.fifo s.fifoMin s.fifoMax (ringAfter s.fifoMin s.fifoMax s.fifoStop k) m
      = args ++ (payload ++ rest)) :
    fetchArgs n (consumed s L k)
      = .ok (some (buildCommand n args payload), consumed s L (k + args.length + payload.length)) := by
  obtain ⟨hargs, hbehind⟩ := ringWords_eq_append hring
  obtain ⟨hpayload, -⟩ := ringWords_eq_append hbehind
  rw [← ringAfter_add] at hpayload
  have htakeArgs := takeWords_consumed hquiet hready hwf (L := L) (n := k) (k := args.length) (by omega)
  have htakePayload := takeWords_consumed hquiet hready hwf hpending
  rw [hargs, complete.fixed] at htakeArgs
  rw [hpayload, complete.payload, complete.fixed] at htakePayload
  rw [fetchArgs, consumed_cfg, htakeArgs, except_bind_ok]
  simp only
  rw [consumed_cfg, htakePayload, except_bind_ok, complete.payload,
    complete.fixed]

/-- The fetch half of a decode step reads from the ring what the command decoder reads from the list of its words. -/
theorem fetch_of_decodeCommand {s : State} (hquiet : Quiet s) (hready : LatchesReady s) (hwf : Memory.wf s.fifo)
    {L : Nat} {i : Instr} {rest : List Word}
    (hdec : decodeCommand s.cfg (ringWords s.fifo s.fifoMin s.fifoMax s.fifoStop L) = .ok (i, rest)) :
    fetch L s = .ok (some i, consumed s L (L - rest.length)) := by
  generalize hws : ringWords s.fifo s.fifoMin s.fifoMax s.fifoStop L = ws at hdec
  have hL : L = ws.length := by rw [← hws, ringWords_length]
  have hread := readWord_opcode hquiet hready L
  cases decodeCommand_commandDecoding hdec with
  | @unknown op rest unnamed =>
    obtain ⟨hop, -⟩ := ringWords_eq_append (xs := [op]) hws
    rw [List.head_eq_of_cons_eq hop] at hread
    have hone : L - rest.length = 1 := by rw [hL, List.length_cons]; omega
    rw [fetch, hread, except_bind_ok, hone]
    simp only [consumed_cfg, unnamed]
  | @known op n args payload rest named complete =>
    obtain ⟨hop, hbehind⟩ := ringWords_eq_append (xs := [op]) hws
    rw [List.head_eq_of_cons_eq hop] at hread
    simp only [List.length_cons, List.length_append] at hL
    have hall : L - rest.length = 1 + args.length + payload.length := by omega
    rw [fetch, hread, except_bind_ok, hall]
    simp only [consumed_cfg, named]
    exact fetchArgs_of_complete hquiet hready hwf complete (by omega) hbehind

/-! ### The step -/

/-- A pass of the drain loop whose fetch answers an instruction runs it (R210). -/
theorem step_of_fetch {s t u : State} {L : Nat} {i : Instr} (hrun : s.trigger.isSome = true)
    (hbound : s.steps < s.cfg.maxLoop) (hlength : length s = .ok (L, t)) (hpending : L ≠ 0)
    (hfetch : fetch L { t with steps := t.steps + 1 } = .ok (some i, u)) : step s = progress (exec i u) := by
  rw [step_running hrun, drainPass, if_neg (not_le.2 hbound), hlength]
  simp only
  rw [if_neg hpending, hfetch]
  rfl

/-- Settles O45: the pass loads the latches, and its fetch is the command decoder on the words of the ring. -/
theorem stepRunsTheInstructionInTheRing : Obligations.StepRunsTheInstructionInTheRing := by
  unfold Obligations.StepRunsTheInstructionInTheRing
  intro s i rest hv hquiet hwf hrun hbound hdec
  have hpending : pending s ≠ 0 := by
    intro hzero
    rw [pendingRing, hzero] at hdec
    cases hdec
  obtain ⟨-, hsize, -⟩ := Config.valid_sizes hv
  rw [afterFetch_eq_consumed]
  exact step_of_fetch hrun hbound (length_of_quiet hquiet (by omega)) hpending
    (fetch_of_decodeCommand (s := { loadLatches s with steps := s.steps + 1 }) hquiet
      (latchesReady_of_pending hpending) hwf hdec)

end Sys2Proof.Machine

/-! PROOFS. The Register Bank of `40_register_bank.md`: which register an index selects, what a read delivers and a write
stores or rejects, and the index and value ports in front of it. -/

namespace Sys2Proof

/-! ### Which register an index selects (`20_memory.md` R71) -/

theorem decodeRegister_named {c : Config} (hv : c.valid = true) (n : RegName) (acc : RegAccess) :
    decodeRegister c (c.regIndex n) acc = namedRegister acc n := by
  rw [decodeRegister, Config.classify_named hv]

theorem decodeRegister_palette {c : Config} (hv : c.valid = true) {k : Nat} (acc : RegAccess) (hk : k < 768)
    (hword : c.paletteBase + k < 2 ^ 32) :
    decodeRegister c (BitVec.ofNat 32 (c.paletteBase + k)) acc = .regPalette k acc := by
  rw [decodeRegister, Config.classify_palette hv hk hword]

theorem decodeRegister_scratch {c : Config} (hv : c.valid = true) {i : Nat} (acc : RegAccess) (hi : i < c.scratchSize)
    (hword : c.scratchBase + i < 2 ^ 32) :
    decodeRegister c (BitVec.ofNat 32 (c.scratchBase + i)) acc = .regScratch i acc := by
  rw [decodeRegister, Config.classify_scratch hv hi hword]

/-- An index of no named register and in neither block is invalid, under every configuration (`40_register_bank.md`
R167). -/
theorem Config.classify_unassigned {c : Config} {index : Word} (hnamed : ∀ n : RegName, c.regIndex n ≠ index)
    (hpalette : ¬(c.paletteBase ≤ index.toNat ∧ index.toNat < c.paletteBase + paletteLen))
    (hscratch : ¬(c.scratchBase ≤ index.toNat ∧ index.toNat < c.scratchBase + c.scratchSize)) :
    c.classify index = .invalid index := by
  rw [Config.classify, Config.find_named_none hnamed]
  simp only [if_neg hpalette, if_neg hscratch]

/-- The capability flags of R9 and R141 together (log 22). -/
theorem Config.valid_caps {c : Config} (h : c.valid = true) : c.caps &&& requiredCaps = requiredCaps := by
  have hsizes := Config.valid_sizesOk h
  simp only [Config.sizesOk, Bool.and_eq_true, beq_iff_eq] at hsizes
  obtain ⟨⟨-, hcaps⟩, -⟩ := hsizes
  exact hcaps

end Sys2Proof

namespace Sys2Proof.Machine

theorem selectedBy_named (n : RegName) :
    SelectedBy n (fun acc => namedRegister acc n) (Config.default.regIndex n) :=
  ⟨rfl, fun _ acc hv => decodeRegister_named hv n acc⟩

/-! ### The value port runs the selected register -/

theorem exec_namedRegister (n : RegName) (acc : RegAccess) (s : State) :
    exec (namedRegister acc n) s = accessNamed acc s n := by
  cases n <;> rfl

/-- The value port's own dispatch agrees with `exec` of the decoded register operation (R122, R123). -/
theorem accessSelected_eq_exec (acc : RegAccess) (s : State) :
    accessSelected acc s = exec (decodeRegister s.cfg s.index acc) s := by
  rw [accessSelected, decodeRegister]
  cases s.cfg.classify s.index with
  | named n => exact (exec_namedRegister n acc s).symm
  | palette k | scratch i | invalid index => rfl

/-! ### Scratch elements inside and behind the block (`40_register_bank.md` R165; log 18) -/

theorem exec_regScratch_read {s : State} {i : Nat} (hi : i < s.cfg.scratchSize) :
    exec (.regScratch i .read) s = .next (returnData (s.scratch.getD i 0) s) := if_pos hi

theorem exec_regScratch_write {s : State} {i : Nat} (hi : i < s.cfg.scratchSize) (v : Word) :
    exec (.regScratch i (.write v)) s = .next { s with scratch := s.scratch.set i v } := if_pos hi

theorem exec_regScratch_behind {s : State} {i : Nat} (hi : s.cfg.scratchSize ≤ i) (acc : RegAccess) :
    exec (.regScratch i acc) s = exec (.regInvalid (BitVec.ofNat 32 (s.cfg.scratchBase + i)) acc) s := by
  cases acc <;> exact if_neg (Nat.not_lt.2 hi)

/-! ### What every access of the bank does -/

/-- The access completes and changes at most the value delivered and the diagnostic trace. -/
def CompletesAsRead (s : State) (o : Host.Outcome State Fault Refusal) : Prop :=
  ∃ t : State, o = .next t ∧ t = { s with guestData := t.guestData, diag := t.diag }

theorem completesAsRead_returnData (w : Word) (s : State) : CompletesAsRead s (.next (returnData w s)) :=
  ⟨_, rfl, rfl⟩

theorem completesAsRead_regInvalid (index : Word) (s : State) : CompletesAsRead s (exec (.regInvalid index .read) s) :=
  ⟨_, rfl, rfl⟩

/-- Every named register's read is the delivery of a word. -/
theorem accessNamed_read (n : RegName) (s : State) : CompletesAsRead s (accessNamed .read s n) := by
  cases n <;> exact completesAsRead_returnData _ s

theorem accessSelected_read (s : State) : CompletesAsRead s (accessSelected .read s) := by
  rw [accessSelected]
  cases s.cfg.classify s.index with
  | named n => exact accessNamed_read n s
  | palette k => exact completesAsRead_returnData 0 s
  | scratch i =>
    change CompletesAsRead s (exec (.regScratch i .read) s)
    rcases Nat.lt_or_ge i s.cfg.scratchSize with hi | hi
    · rw [exec_regScratch_read hi]
      exact completesAsRead_returnData _ s
    · rw [exec_regScratch_behind hi]
      exact completesAsRead_regInvalid _ s
  | invalid index => exact completesAsRead_regInvalid index s

/-- The access completes and leaves the latched index. -/
def CompletesKeepingIndex (s : State) (o : Host.Outcome State Fault Refusal) : Prop :=
  ∃ t : State, o = .next t ∧ t.index = s.index

theorem CompletesKeepingIndex.ite {s t u : State} (c : Prop) [Decidable c] (ht : t.index = s.index)
    (hu : u.index = s.index) : CompletesKeepingIndex s (if c then .next t else .next u) := by
  split
  · exact ⟨t, rfl, ht⟩
  · exact ⟨u, rfl, hu⟩

/-- Four registers reject some values, CONFIG_DONE emits for some, and every other one has a single outcome. -/
theorem accessNamed_write (n : RegName) (v : Word) (s : State) :
    CompletesKeepingIndex s (accessNamed (.write v) s n) := by
  cases n
  case id | width | height | bitsPerPixel => exact .ite _ rfl rfl
  case configDone => exact ⟨_, rfl, by split <;> rfl⟩
  all_goals exact ⟨_, rfl, rfl⟩

theorem accessSelected_write (v : Word) (s : State) : CompletesKeepingIndex s (accessSelected (.write v) s) := by
  rw [accessSelected]
  cases s.cfg.classify s.index with
  | named n => exact accessNamed_write n v s
  | scratch i => exact .ite (i < s.cfg.scratchSize) rfl rfl
  | palette k | invalid index => exact ⟨_, rfl, rfl⟩

/-- Settles O19: the port's dispatch is the decoded register operation, and every access of the bank completes. -/
theorem valuePortAccessesTheSelectedRegister : Obligations.ValuePortAccessesTheSelectedRegister := by
  unfold Obligations.ValuePortAccessesTheSelectedRegister
  exact ⟨fun s => ⟨accessSelected_eq_exec .read s, accessSelected_read s⟩,
    fun s v => ⟨accessSelected_eq_exec (.write v) s, accessSelected_write v s⟩⟩

/-! ### Read-only registers -/

/-- Settles O6: each is selected by its index, and its read and its rejected write are its definition; the flags are a
constraint on valid configurations. -/
theorem parameterRegistersReadTheirConstant : Obligations.ParameterRegistersReadTheirConstant := by
  unfold Obligations.ParameterRegistersReadTheirConstant
  exact ⟨⟨selectedBy_named .maxWidth, fun _ => rfl, fun _ _ => rfl, rfl⟩,
    ⟨selectedBy_named .maxHeight, fun _ => rfl, fun _ _ => rfl, rfl⟩,
    ⟨selectedBy_named .fbStart, fun _ => rfl, fun _ _ => rfl⟩,
    ⟨selectedBy_named .fbSize, fun _ => rfl, fun _ _ => rfl⟩,
    ⟨selectedBy_named .memStart, fun _ => rfl, fun _ _ => rfl⟩,
    ⟨selectedBy_named .memSize, fun _ => rfl, fun _ _ => rfl⟩,
    ⟨selectedBy_named .capabilities, fun _ => rfl, fun _ _ => rfl, rfl, fun _ => Config.valid_caps⟩,
    ⟨selectedBy_named .cap2, fun _ => rfl, fun _ _ => rfl, rfl⟩,
    ⟨selectedBy_named .scratchSize, fun _ => rfl, fun _ _ => rfl⟩⟩

/-! The table of R131 reads the depth as a number; here it is over the word the depth register holds. -/

theorem pixelMask_red (bpp : Word) :
    pixelMask .red bpp.toNat = if bpp = 32 ∨ bpp = 24 then 0x00FF0000 else if bpp = 16 then 0x0000F800
      else if bpp = 15 then 0x00007C00 else 0 := by
  simp [pixelMask, BitVec.toNat_eq]

theorem pixelMask_green (bpp : Word) :
    pixelMask .green bpp.toNat = if bpp = 32 ∨ bpp = 24 then 0x0000FF00 else if bpp = 16 then 0x000007E0
      else if bpp = 15 then 0x000003E0 else 0 := by
  simp [pixelMask, BitVec.toNat_eq]

theorem pixelMask_blue (bpp : Word) :
    pixelMask .blue bpp.toNat = if bpp = 32 ∨ bpp = 24 then 0x000000FF else if bpp = 16 ∨ bpp = 15
      then 0x0000001F else 0 := by
  simp [pixelMask, BitVec.toNat_eq]

theorem reads_congr {instr : RegAccess → Instr} {value value' : State → Word} (h : Reads instr value)
    (heq : ∀ s : State, value s = value' s) : Reads instr value' :=
  fun s => heq s ▸ h s

/-- Settles O7: the masks are the table of R131 at the depth; stride and BUSY are read from the state. -/
theorem computedRegistersReadTheCurrentState : Obligations.ComputedRegistersReadTheCurrentState := by
  unfold Obligations.ComputedRegistersReadTheCurrentState
  have hred : Reads .regRedMask (fun s => pixelMask .red s.bpp.toNat) := fun _ => rfl
  have hgreen : Reads .regGreenMask (fun s => pixelMask .green s.bpp.toNat) := fun _ => rfl
  have hblue : Reads .regBlueMask (fun s => pixelMask .blue s.bpp.toNat) := fun _ => rfl
  exact ⟨⟨selectedBy_named .redMask, fun _ _ => rfl, reads_congr hred fun s => pixelMask_red s.bpp⟩,
    ⟨selectedBy_named .greenMask, fun _ _ => rfl, reads_congr hgreen fun s => pixelMask_green s.bpp⟩,
    ⟨selectedBy_named .blueMask, fun _ _ => rfl, reads_congr hblue fun s => pixelMask_blue s.bpp⟩,
    ⟨selectedBy_named .bytesPerLine, fun _ _ => rfl, fun _ => rfl⟩,
    ⟨selectedBy_named .busy, fun _ _ => rfl, fun _ => rfl⟩⟩

/-! ### Registers that take every write -/

/-- Settles O8: each is selected by its index, and its read and its write are its definition. -/
theorem storageRegistersStoreAndReturn : Obligations.StorageRegistersStoreAndReturn := by
  unfold Obligations.StorageRegistersStoreAndReturn
  exact ⟨⟨selectedBy_named .guestId, fun _ => rfl, fun _ _ => rfl⟩,
    ⟨selectedBy_named .cursorId, fun _ => rfl, fun _ _ => rfl⟩,
    ⟨selectedBy_named .cursorX, fun _ => rfl, fun _ _ => rfl⟩,
    ⟨selectedBy_named .cursorY, fun _ => rfl, fun _ _ => rfl⟩,
    ⟨selectedBy_named .cursorOn, fun _ => rfl, fun _ _ => rfl⟩,
    ⟨selectedBy_named .displayId, fun _ => rfl, fun _ _ => rfl⟩,
    ⟨selectedBy_named .irqmask, fun _ => rfl, fun _ _ => rfl⟩⟩

/-- Settles O9: as O8, with a palette index selecting its entry. -/
theorem stubRegistersDiscardWrites : Obligations.StubRegistersDiscardWrites := by
  unfold Obligations.StubRegistersDiscardWrites
  exact ⟨⟨selectedBy_named .displayIsPrimary, fun _ => rfl, fun _ _ => rfl⟩,
    ⟨selectedBy_named .displayPositionX, fun _ => rfl, fun _ _ => rfl⟩,
    ⟨selectedBy_named .displayPositionY, fun _ => rfl, fun _ _ => rfl⟩,
    ⟨selectedBy_named .displayWidth, fun _ => rfl, fun _ _ => rfl⟩,
    ⟨selectedBy_named .displayHeight, fun _ => rfl, fun _ _ => rfl⟩,
    fun _ _ acc hv hk hword => decodeRegister_palette hv acc hk hword, fun _ => ⟨fun _ => rfl, fun _ _ => rfl⟩⟩

/-- What an ENABLE write does, the value read as a flag (R125). -/
theorem exec_regEnable_write (s : State) (v : Word) : exec (.regEnable (.write v)) s
    = .next { s with enable := v != 0, invalidated := true,
                     out := s.out ++ [.dirtyTracking (if (v != 0) && s.config then .stop else .start)] } := rfl

/-- Settles O11: the written flag and the stored CONFIG_DONE flag decide the event. -/
theorem enableRegisterSwitchesTrackingAndInvalidates : Obligations.EnableRegisterSwitchesTrackingAndInvalidates := by
  unfold Obligations.EnableRegisterSwitchesTrackingAndInvalidates
  refine ⟨selectedBy_named .enable, fun _ => rfl, fun s v => ⟨fun hv hconfig => ?_, fun hv hconfig => ?_, fun hv => ?_⟩⟩
  · rw [exec_regEnable_write, bne_iff_ne.2 hv, hconfig]
    rfl
  · rw [exec_regEnable_write, bne_iff_ne.2 hv, hconfig]
    rfl
  · rw [hv]
    rfl

/-- Settles O14: only a true value emits. -/
theorem configDoneRegisterStopsTracking : Obligations.ConfigDoneRegisterStopsTracking := by
  unfold Obligations.ConfigDoneRegisterStopsTracking
  refine ⟨selectedBy_named .configDone, fun _ => rfl, fun s v => ⟨fun hv => ?_, fun hv => ?_⟩⟩
  · rw [exec, execRegConfigDone, if_pos hv, bne_iff_ne.2 hv]
    rfl
  · rw [hv]
    rfl

/-- Settles O15: the write is the head of an invocation, by definition. -/
theorem syncRegisterStartsAnInvocation : Obligations.SyncRegisterStartsAnInvocation := by
  unfold Obligations.SyncRegisterStartsAnInvocation
  exact ⟨selectedBy_named .sync, fun _ => rfl, fun _ _ => rfl⟩

/-- Settles O16: the override is active exactly behind a non-zero write. -/
theorem pitchlockRegisterSetsTheOverride : Obligations.PitchlockRegisterSetsTheOverride := by
  unfold Obligations.PitchlockRegisterSetsTheOverride
  refine ⟨selectedBy_named .pitchlock, fun _ => rfl, fun s v => ⟨fun hv => ?_, fun hv => ?_⟩⟩
  · rw [exec, execRegPitchlock, if_pos hv]
  · rw [hv]
    rfl

/-! ### Registers that reject some values -/

/-- Settles O10: a write is accepted among the supported identities and nowhere else. -/
theorem idRegisterAcceptsSupportedIdentities : Obligations.IdRegisterAcceptsSupportedIdentities := by
  unfold Obligations.IdRegisterAcceptsSupportedIdentities
  exact ⟨selectedBy_named .id, fun _ => rfl, fun _ _ => ⟨fun hin => if_pos hin, fun hout => if_neg hout⟩⟩

/-- Settles O12: a write is accepted up to the maximum, inclusive, and nowhere else. -/
theorem sizeRegistersAcceptUpToTheMaxima : Obligations.SizeRegistersAcceptUpToTheMaxima := by
  unfold Obligations.SizeRegistersAcceptUpToTheMaxima
  exact ⟨⟨selectedBy_named .width, fun _ => rfl,
      fun _ _ => ⟨fun hle => if_pos hle, fun hgt => if_neg (Nat.not_le.2 hgt)⟩⟩,
    ⟨selectedBy_named .height, fun _ => rfl,
      fun _ _ => ⟨fun hle => if_pos hle, fun hgt => if_neg (Nat.not_le.2 hgt)⟩⟩⟩

/-- Settles O13: a write is accepted among the legal depths and nowhere else. -/
theorem depthRegisterAcceptsLegalDepths : Obligations.DepthRegisterAcceptsLegalDepths := by
  unfold Obligations.DepthRegisterAcceptsLegalDepths
  exact ⟨selectedBy_named .bitsPerPixel, fun _ => rfl, fun _ _ => ⟨fun hin => if_pos hin, fun hout => if_neg hout⟩⟩

/-! ### The scratch block, invalid indices and the index port -/

/-- Settles O17: the block's indices select its elements, an element behind its end is an invalid index, and so is every
index of no register. -/
theorem scratchRegistersAndInvalidIndices : Obligations.ScratchRegistersAndInvalidIndices := by
  unfold Obligations.ScratchRegistersAndInvalidIndices
  refine ⟨fun _ _ acc hv hi hword => decodeRegister_scratch hv acc hi hword, ?inside, ?behind, ?unassigned,
    fun _ _ _ => ⟨rfl, rfl⟩⟩
  case inside =>
    intro s i v w hi
    refine ⟨fun hw => ?_, exec_regScratch_write hi v⟩
    rw [exec_regScratch_read hi, List.getD_eq_getElem?_getD, hw]
    rfl
  case behind => exact fun s i v hi => ⟨exec_regScratch_behind hi .read, exec_regScratch_behind hi (.write v)⟩
  case unassigned =>
    intro c index acc hnamed hpalette hscratch
    rw [decodeRegister, Config.classify_unassigned hnamed hpalette hscratch]

/-- Settles O18: both port operations by definition. -/
theorem indexPortLatchesAndReturns : Obligations.IndexPortLatchesAndReturns := by
  unfold Obligations.IndexPortLatchesAndReturns
  exact ⟨fun _ _ => rfl, fun _ => rfl⟩

end Sys2Proof.Machine

/-! PROOFS. The Ring Buffer Cursor of `41_ring_cursor.md`: `length()` reads and validates the live header, `read_word()`
moves `stop` and `rewind` restores it, and a pass of the drain loop on a ring without pending words ends the
invocation. -/

namespace Sys2Proof.Machine

/-! ### The conditions of `length()` (R190, R191) -/

theorem gate_iff (s : State) :
    gate s = true ↔ (s.cfg.fifoGateOnConfig = true → s.enable = true ∧ s.config = true) := by
  rw [gate, fifoMode]
  cases s.cfg.fifoGateOnConfig <;> simp

theorem ringValid_iff (c : Config) (mn mx next stop : Nat) : ringValid c mn mx next stop = true ↔
    mn % 4 = 0 ∧ mx % 4 = 0 ∧ next % 4 = 0 ∧ stop % 4 = 0 ∧ 16 ≤ mn ∧ mx ≤ c.fifoSize ∧ mn < mx
    ∧ 10240 ≤ mx - mn ∧ mn ≤ stop ∧ stop < mx ∧ mn ≤ next ∧ next < mx := by
  simp only [ringValid, Bool.and_eq_true, beq_iff_eq, decide_eq_true_eq, and_assoc]
  rfl

/-- What the model checks is that the buffer is ready. -/
theorem ringReady_iff {s : State} {mn mx next stop : Nat} :
    RingReady s mn mx next stop ↔ (gate s && ringValid s.cfg mn mx next stop) = true := by
  rw [Bool.and_eq_true, gate_iff, ringValid_iff]

theorem ringLength_of_ready {s : State} {mn mx next stop : Nat} (h : RingReady s mn mx next stop) :
    ringLength s mn mx next stop = pendingWords mn mx next stop := if_pos (ringReady_iff.1 h)

theorem ringLength_of_not_ready {s : State} {mn mx next stop : Nat} (h : ¬ RingReady s mn mx next stop) :
    ringLength s mn mx next stop = 0 := if_neg (mt ringReady_iff.2 h)

/-- A ring whose producer and consumer positions are equal is empty. -/
theorem ringLength_self (s : State) (mn mx stop : Nat) : ringLength s mn mx stop stop = 0 := by
  rw [ringLength, pendingWords, sub_self, Int.zero_emod]
  exact ite_self 0

/-! ### `length()` with the guest's accesses in between (R190, `20_memory.md` R76) -/

/-- A guest access leaves the gate and the sizes alone. -/
theorem ringLength_tick (s : State) (mn mx next stop : Nat) :
    ringLength (tick s) mn mx next stop = ringLength s mn mx next stop :=
  ringLength_congr (tick_cfg s) (tick_enable s) (tick_config s) mn mx next stop

/-- Each header word is read after one more group of the guest's accesses. -/
theorem length_ok {s : State} (hsize : 16 ≤ s.cfg.fifoSize) :
    let s1 := tick s
    let s2 := tick s1
    let s3 := tick s2
    let s4 := tick s3
    length s = .ok (ringLength s (headerMin s1).toNat (headerMax s2).toNat (headerNext s3).toNat (headerStop s4).toNat,
      { s4 with fifoMin := headerMin s1, fifoMax := headerMax s2, fifoNext := headerNext s3,
                fifoStop := headerStop s4 }) := by
  have hread : ∀ (t : State) (k : Nat), t.cfg = s.cfg → k < 4 →
      fifoRead32 (4 * k) t = .ok (Memory.read32 .fifo (tick t).fifo (4 * k), tick t) :=
    fun t k hcfg hk => fifoRead32_ok (by omega) (by rw [hcfg]; omega)
  intro s1 s2 s3 s4
  have hcfg1 : s1.cfg = s.cfg := tick_cfg s
  have hcfg2 : s2.cfg = s.cfg := (tick_cfg s1).trans hcfg1
  have hcfg3 : s3.cfg = s.cfg := (tick_cfg s2).trans hcfg2
  have hlength : ∀ mn mx next stop, ringLength s4 mn mx next stop = ringLength s mn mx next stop := by
    intro mn mx next stop
    rw [ringLength_tick, ringLength_tick, ringLength_tick, ringLength_tick]
  rw [← hlength, length, hread s hdrMin rfl (by decide), except_bind_ok]
  simp only
  rw [hread s1 hdrMax hcfg1 (by decide), except_bind_ok]
  simp only
  rw [hread s2 hdrNextCmd hcfg2 (by decide), except_bind_ok]
  simp only
  rw [hread s3 hdrStop hcfg3 (by decide), except_bind_ok]
  rfl

/-- Settles O37: the length answered is the pending length exactly where the header read is ready. -/
theorem lengthValidatesTheLiveHeader : Obligations.LengthValidatesTheLiveHeader := by
  unfold Obligations.LengthValidatesTheLiveHeader
  intro s hsize
  exact ⟨fun hready => (length_ok hsize).trans (congrArg (fun L => Except.ok (L, _)) (ringLength_of_ready hready)),
    fun hnot => (length_ok hsize).trans (congrArg (fun L => Except.ok (L, _)) (ringLength_of_not_ready hnot))⟩

/-! ### `read_word()` and `rewind` (R192 to R194) -/

/-- Over words, four on is an addition of words. -/
theorem nextStop_eq (mn mx stop : Word) :
    nextStop mn mx stop = if stop.toNat + 4 ≥ mx.toNat then mn else stop + 4 := by
  rw [nextStop, BitVec.ofNat_add, BitVec.ofNat_toNat, BitVec.setWidth_eq]
  rfl

/-- `read_word()` on ready latches, with the guest's accesses before the read and before the store of `stop`. -/
theorem readWord_ok {s : State} (hready : LatchesReady s) :
    let a := tick s
    let stop := nextStop s.fifoMin s.fifoMax s.fifoStop
    let b := tick { a with fifoStop := stop }
    readWord s = .ok (Memory.read32 .fifo a.fifo s.fifoStop.toNat,
      { b with fifo := Memory.write32 b.fifo 12 stop }) := by
  obtain ⟨-, hmaxAligned, haligned, h16, hlo, hhi, hsize⟩ := hready
  intro a stop b
  have hstop : nextStop (tick s).fifoMin (tick s).fifoMax (tick s).fifoStop = stop := by simp [stop]
  rw [readWord, fifoRead32_ok haligned (by omega), except_bind_ok]
  simp only
  rw [hstop, fifoWrite32_ok (by decide) (by simp only [tick_cfg, hdrStop]; omega)]
  rfl

/-- Moving `stop` past a word keeps ready latches ready (R193). -/
theorem latchesReady_nextStop {s t : State} (hready : LatchesReady s) (hcfg : t.cfg = s.cfg)
    (hmin : t.fifoMin = s.fifoMin) (hmax : t.fifoMax = s.fifoMax)
    (hstop : t.fifoStop = nextStop s.fifoMin s.fifoMax s.fifoStop) : LatchesReady t := by
  obtain ⟨hminAligned, hmaxAligned, haligned, h16, hlo, hhi, hsize⟩ := hready
  obtain ⟨haligned', hlo', hhi'⟩ := nextStop_inside hminAligned hmaxAligned haligned hlo hhi
  rw [LatchesReady, hcfg, hmin, hmax, hstop]
  exact ⟨hminAligned, hmaxAligned, haligned', h16, hlo', hhi', hsize⟩

/-- Settles O38: `read_word()` by its two accesses, and a rewind is one store. -/
theorem ringCursorMovesAndRestoresStop : Obligations.RingCursorMovesAndRestoresStop := by
  unfold Obligations.RingCursorMovesAndRestoresStop
  refine ⟨fun s hready => ?_, fun s hsize => ?_⟩
  · rw [← nextStop_eq]
    exact ⟨readWord_ok hready, latchesReady_nextStop hready (by simp) (by simp) (by simp) (by simp)⟩
  · exact fifoWrite32_ok (by decide) hsize

/-! ### A ring that is not ready or empty (R195, `42_decoder.md` R210, R212) -/

/-- A pass below the bound on a ring without pending words ends the invocation. -/
theorem step_of_length_zero {s t : State} (hrun : s.trigger.isSome = true) (hbound : s.steps < s.cfg.maxLoop)
    (hlength : length s = .ok (0, t)) : step s = .next (finishInvocation t) := by
  rw [step_running hrun, drainPass, if_neg (not_le.2 hbound), hlength]
  exact if_pos rfl

theorem pending_of_not_ready_or_empty {s : State}
    (h : ¬ RingReady s (headerMin s).toNat (headerMax s).toNat (headerNext s).toNat (headerStop s).toNat
      ∨ headerNext s = headerStop s) : pending s = 0 := by
  rcases h with hnot | hempty
  · exact ringLength_of_not_ready hnot
  · rw [pending, hempty, ringLength_self]

/-- An invocation without progress and without an event that ends clears its own variables: no event is signalled and
the line stays. -/
theorem endOfInvocation_of_idle {s : State} (hprogressed : s.progressed = false) (hfired : s.fired = false) :
    endOfInvocation s = { s with syncing := false, trigger := none } := by
  simp [endOfInvocation, raiseLine, hprogressed, hfired]

/-- Settles O44: such a ring has no pending words, and `length()` changes the latches alone. -/
theorem notReadyRingIsEmpty : Obligations.NotReadyRingIsEmpty := by
  unfold Obligations.NotReadyRingIsEmpty
  intro s hvalid hquiet hrun hbound hring
  obtain ⟨-, hsize, -⟩ := Config.valid_sizes hvalid
  have hlength := length_of_quiet hquiet (by omega)
  rw [pending_of_not_ready_or_empty hring] at hlength
  have hstep := step_of_length_zero hrun hbound hlength
  refine ⟨hstep, fun hsync hprogressed hfired => hstep.trans ?_⟩
  have hother : (loadLatches s).trigger ≠ some .refresh := by simp [hsync]
  rw [finishInvocation_other hother]
  exact congrArg _ (endOfInvocation_of_idle (s := loadLatches s) hprogressed hfired)

end Sys2Proof.Machine

/-! PROOFS. The Command Decoder of `42_decoder.md`: the update, rectangle and FENCE commands, and the invocation, whose
every pass completes and which ends within its bound (R210, R212). -/

namespace Sys2Proof

/-! ### Format-F commands (`30_encoding.md` R91; R213) -/

/-- Under a valid configuration the number of a command without payload and its fixed words are that command. -/
theorem decodeCommand_fixed {c : Config} (hv : c.valid = true) {n : CmdName} {op : Word} (hop : c.opcode n = some op)
    {args : List Word} (hargs : args.length = c.fixedArgs n) (noPayload : c.payloadWords n args = 0)
    (rest : List Word) : decodeCommand c (op :: (args ++ rest)) = .ok (buildCommand n args [], rest) :=
  decodeCommand_complete (Config.lookup_opcode hv hop) (payload := []) hargs noPayload.symm

theorem incompleteBelow_fixedArgs {c : Config} (hv : c.valid = true) {n : CmdName} {op : Word}
    (hop : c.opcode n = some op) : Machine.IncompleteBelow c op (c.fixedArgs n) :=
  fun _ => decodeCommand_short (Config.lookup_opcode hv hop)

end Sys2Proof

namespace Sys2Proof.Machine

/-! ### UPDATE and UPDATE_VERBOSE (R215, R216) -/

/-- The effect the two commands share, with the rectangle inside the surface and not: exactly one append (R311). -/
theorem updateOrFallback_eq (op : CmdName) (s : State) (x y w h : Word) :
    (RectInside s x y w h → updateOrFallback op x y w h s
      = { s with queue := queueAfter s (argRect x y w h), out := outAfter s, outcome := some .applied })
    ∧ (¬ RectInside s x y w h → updateOrFallback op x y w h s
      = { s with queue := queueAfter s (fullRect s), out := outAfter s,
                 diag := s.diag ++ [.badRect op x y w h], outcome := some .applied }) := by
  refine ⟨fun hin => ?_, fun hout => ?_⟩
  · rw [updateOrFallback_inside hin, append_eq]
    rfl
  · rw [updateOrFallback_outside hout, fullSurfaceUpdate_eq]
    rfl

/-- Settles O21: the four words are those of the command, and its effect is the one append. -/
theorem updateEnqueuesOneRectangle : Obligations.UpdateEnqueuesOneRectangle := by
  unfold Obligations.UpdateEnqueuesOneRectangle
  refine ⟨rfl, fun c hv => ⟨fun x y w h => decodeCommand_fixed hv (n := .update) (args := [x, y, w, h]) rfl rfl rfl,
    incompleteBelow_fixedArgs hv (n := .update) rfl⟩, fun s x y w h => ?_⟩
  obtain ⟨hinside, houtside⟩ := updateOrFallback_eq .update s x y w h
  exact ⟨fun hin => congrArg _ (hinside hin), fun hout => congrArg _ (houtside hout)⟩

/-- Settles O22: as O21, with a fifth word the effect does not read. -/
theorem updateVerboseIgnoresItsReason : Obligations.UpdateVerboseIgnoresItsReason := by
  unfold Obligations.UpdateVerboseIgnoresItsReason
  refine ⟨rfl, fun c hv => ⟨fun x y w h reason =>
      decodeCommand_fixed hv (n := .updateVerbose) (args := [x, y, w, h, reason]) rfl rfl rfl,
    incompleteBelow_fixedArgs hv (n := .updateVerbose) rfl⟩, fun s x y w h reason => ?_⟩
  obtain ⟨hinside, houtside⟩ := updateOrFallback_eq .updateVerbose s x y w h
  exact ⟨fun hin => congrArg _ (hinside hin), fun hout => congrArg _ (houtside hout)⟩

/-! ### Rectangle commands that fail validation (R217, R219, `45_rect_engine.md` R293, R295) -/

theorem exec_rectCopy (sx sy dx dy w h : Word) (s : State) :
    exec (.rectCopy sx sy dx dy w h) s = execRectCopy sx sy dx dy w h s := rfl

theorem exec_rectFill (colour x y w h : Word) (s : State) :
    exec (.rectFill colour x y w h) s = execRectFill colour x y w h s := rfl

/-- A copy that fails its checks changes nothing, and the command falls back. -/
theorem exec_rectCopy_of_invalid {s : State} {sx sy dx dy w h : Word}
    (hbad : ¬ (RectInside s sx sy w h ∧ RectInside s dx dy w h ∧ RowsInFramebuffer s sx sy w h
      ∧ RowsInFramebuffer s dx dy w h)) :
    exec (.rectCopy sx sy dx dy w h) s = .next (skipped s.cfg.opc.rectCopy (fullSurfaceUpdate s)) := by
  have hfail : rectCopy sx sy dx dy w h s = .ok none := if_neg (mt copyOk_iff.1 hbad)
  rw [exec_rectCopy]
  unfold execRectCopy
  rw [hfail]

/-- So does a fill that has an opcode number. -/
theorem exec_rectFill_of_invalid {s : State} {op x y w h : Word} (colour : Word) (hop : s.cfg.opcRectFill = some op)
    (hbad : ¬ (RectInside s x y w h ∧ RowsInFramebuffer s x y w h)) :
    exec (.rectFill colour x y w h) s = .next (skipped op (fullSurfaceUpdate s)) := by
  have hfail : rectFill colour x y w h s = .ok none := if_neg (mt fillOk_iff.1 hbad)
  rw [exec_rectFill]
  unfold execRectFill
  rw [hfail]
  simp only [hop]

/-- The fallback both share: the whole surface, then the skip path (R220). -/
theorem skipped_fullSurfaceUpdate (op : Word) (s : State) :
    skipped op (fullSurfaceUpdate s)
      = skippedOnce op { s with queue := queueAfter s (fullRect s), out := outAfter s } := by
  rw [skipped_eq_skippedOnce, fullSurfaceUpdate_eq]

/-- Settles O23: the engine answers that it failed, and the command falls back. -/
theorem failedRectangleCommandsFallBack : Obligations.FailedRectangleCommandsFallBack := by
  unfold Obligations.FailedRectangleCommandsFallBack
  refine ⟨fun s sx sy dx dy w h hbad => ?_, fun s op colour x y w h hop hbad => ?_⟩
  · exact (exec_rectCopy_of_invalid hbad).trans (congrArg _ (skipped_fullSurfaceUpdate _ s))
  · exact (exec_rectFill_of_invalid colour hop hbad).trans (congrArg _ (skipped_fullSurfaceUpdate op s))

/-! ### FENCE (R218) -/

/-- The state in which FENCE turns to its goal: the value stored to header word 6, any-fence signalled. -/
def afterFenceLatch (f : Word) (s : State) : State :=
  irqEvent s.cfg.irq.anyFence { tick s with fifo := Memory.write32 (tick s).fifo 24 f }

@[simp] theorem afterFenceLatch_cfg (f : Word) (s : State) : (afterFenceLatch f s).cfg = s.cfg := by
  simp [afterFenceLatch]

@[simp] theorem afterFenceLatch_fifoMin (f : Word) (s : State) : (afterFenceLatch f s).fifoMin = s.fifoMin := by
  simp [afterFenceLatch]

/-- FENCE is its store, then any-fence, then its goal half. -/
theorem exec_fence_eq {s a t : State} {f : Word} (hstore : fifoWrite32 (4 * hdrFence) f s = .ok a)
    (hgoal : fenceGoal f (irqEvent a.cfg.irq.anyFence a) = .ok t) :
    exec (.fence f) s = .next { t with outcome := some .applied } := by
  change execFence f s = _
  rw [execFence, hstore, except_bind_ok, hgoal]
  rfl

/-- Under a valid configuration header word 6 lies in the FIFO memory, so FENCE gets to its goal half. -/
theorem exec_fence_of_goal {s t : State} {f : Word} (hv : s.cfg.valid = true)
    (hgoal : fenceGoal f (afterFenceLatch f s) = .ok t) :
    exec (.fence f) s = .next { t with outcome := some .applied } := by
  obtain ⟨-, hsize, -⟩ := Config.valid_sizes hv
  refine exec_fence_eq (fifoWrite32_ok (by decide) (by simp only [hdrFence]; omega)) ?_
  rw [← hgoal, afterFenceLatch, ← tick_cfg s]
  rfl

theorem fenceGoal_absent {s : State} (f : Word) (habsent : s.fifoMin.toNat < 4 * (s.cfg.hdr.fenceGoal + 1)) :
    fenceGoal f s = .ok s := by
  rw [fenceGoal, fenceGoalExists, decide_eq_false (not_le.2 habsent)]
  rfl

/-- Where the header region holds the goal word, it is read, and the event follows if it is the fence's value. -/
theorem fenceGoal_present {s : State} (f : Word) (hv : s.cfg.valid = true)
    (hpresent : 4 * (s.cfg.hdr.fenceGoal + 1) ≤ s.fifoMin.toNat) :
    fenceGoal f s = .ok (if Memory.read32 .fifo (tick s).fifo (4 * s.cfg.hdr.fenceGoal) = f
      then irqEvent s.cfg.irq.fenceGoal (tick s) else tick s) := by
  obtain ⟨-, -, -, hgoal⟩ := Config.valid_sizes hv
  rw [fenceGoal, fenceGoalExists, decide_eq_true hpresent, if_pos rfl, fifoRead32_ok (by omega) (by omega),
    except_bind_ok]
  simp only [tick_cfg]

/-- All FENCE can do under a valid configuration: it completes, behind its latch or behind its goal. -/
theorem exec_fence_cases {s : State} (f : Word) (hv : s.cfg.valid = true) :
    ∃ t : State, exec (.fence f) s = .next { t with outcome := some .applied }
      ∧ (t = afterFenceLatch f s ∨ t = tick (afterFenceLatch f s)
        ∨ t = irqEvent s.cfg.irq.fenceGoal (tick (afterFenceLatch f s))) := by
  rcases Nat.lt_or_ge s.fifoMin.toNat (4 * (s.cfg.hdr.fenceGoal + 1)) with habsent | hpresent
  · exact ⟨_, exec_fence_of_goal hv (fenceGoal_absent f (by simpa using habsent)), .inl rfl⟩
  · have hgoal := fenceGoal_present (s := afterFenceLatch f s) f (by rwa [afterFenceLatch_cfg]) (by simpa using hpresent)
    refine ⟨_, exec_fence_of_goal hv hgoal, .inr ?_⟩
    rw [afterFenceLatch_cfg]
    split
    · exact .inr rfl
    · exact .inl rfl

/-- Settles O27, over the goal word: outside the header region, different from the value, equal to it. -/
theorem fenceLatchesAndSignals : Obligations.FenceLatchesAndSignals := by
  unfold Obligations.FenceLatchesAndSignals
  refine ⟨rfl, fun c hv => ⟨fun f => decodeCommand_fixed hv (n := .fence) (args := [f]) rfl rfl rfl,
    incompleteBelow_fixedArgs hv (n := .fence) rfl⟩, fun s f hv => ?_⟩
  have hpresent := fenceGoal_present (s := afterFenceLatch f s) f (by rwa [afterFenceLatch_cfg])
  simp only [afterFenceLatch_cfg, afterFenceLatch_fifoMin] at hpresent
  refine ⟨fun hbelow => exec_fence_of_goal hv (fenceGoal_absent f (by simpa using hbelow)),
    fun hin hne => exec_fence_of_goal hv ?_, fun hin heq => exec_fence_of_goal hv ?_⟩
  · rw [hpresent hin]
    exact congrArg _ (if_neg hne)
  · rw [hpresent hin]
    exact congrArg _ (if_pos heq)

/-! ### The frame of FENCE (R218, `60_exceptions.md` R339) -/

/-- An event changes nothing but the status and `fired`. -/
theorem irqEvent_frame (bit : Word) (s : State) :
    irqEvent bit s = { s with irqStatus := (irqEvent bit s).irqStatus, fired := (irqEvent bit s).fired } := by
  unfold irqEvent
  (repeat' split) <;> rfl

theorem irqEvent_of_enabled {bit : Word} {s : State} (h : s.irqMask &&& bit ≠ 0) :
    irqEvent bit s = { s with irqStatus := s.irqStatus ||| bit, fired := true } := if_pos h

/-- With an empty mask, and unmasked events not recorded, no event does anything. -/
theorem irqEvent_of_dropped {s : State} (bit : Word) (hmask : s.irqMask = 0)
    (hdropped : s.cfg.irqStatusSetsUnmasked = false) : irqEvent bit s = s :=
  (if_neg (by simp [hmask])).trans (if_neg (by simp [hdropped]))

/-- An event withdraws nothing: `fired` and every status bit stay. -/
theorem irqEvent_keeps {s : State} {bits : Word} (bit : Word)
    (h : s.fired = true ∧ s.irqStatus &&& bits ≠ 0) :
    (irqEvent bit s).fired = true ∧ (irqEvent bit s).irqStatus &&& bits ≠ 0 := by
  obtain ⟨hfired, hstatus⟩ := h
  have hor : (s.irqStatus ||| bit) &&& bits ≠ 0 := by
    rw [BitVec.or_comm]
    exact and_or_ne_zero hstatus
  unfold irqEvent
  split
  · exact ⟨rfl, hor⟩
  · split
    · exact ⟨hfired, hor⟩
    · exact ⟨hfired, hstatus⟩

/-- The value of FENCE has been stored and any-fence signalled, and besides nothing but the status and `fired` has
changed. -/
structure FenceSignalled (f : Word) (s t : State) : Prop where
  eq : t = { s with fifo := Memory.write32 s.fifo 24 f, irqStatus := t.irqStatus, fired := t.fired }
  signalled : s.irqMask &&& s.cfg.irq.anyFence ≠ 0 → t.fired = true ∧ t.irqStatus &&& s.cfg.irq.anyFence ≠ 0
  dropped : s.irqMask = 0 → s.cfg.irqStatusSetsUnmasked = false → t.irqStatus = s.irqStatus ∧ t.fired = s.fired

theorem fenceSignalled_afterFenceLatch (f : Word) {s : State} (hquiet : Quiet s) :
    FenceSignalled f s (afterFenceLatch f s) := by
  rw [afterFenceLatch, tick_of_quiet hquiet]
  refine ⟨irqEvent_frame _ _, fun henabled => ?_, fun hmask hdropped => ?_⟩
  · rw [irqEvent_of_enabled (s := { s with fifo := Memory.write32 s.fifo 24 f }) henabled]
    refine ⟨rfl, and_or_ne_zero ?_⟩
    rw [BitVec.and_self]
    exact fun hzero => henabled (by simp [hzero])
  · rw [irqEvent_of_dropped (s := { s with fifo := Memory.write32 s.fifo 24 f }) _ hmask hdropped]
    exact ⟨rfl, rfl⟩

theorem FenceSignalled.irqEvent {f : Word} {s t : State} (h : FenceSignalled f s t) (bit : Word) :
    FenceSignalled f s (irqEvent bit t) where
  eq := by rw [irqEvent_frame, h.eq]
  signalled := fun henabled => irqEvent_keeps bit (h.signalled henabled)
  dropped := fun hmask hdropped => by
    rw [irqEvent_of_dropped bit (by rw [h.eq]; exact hmask) (by rw [h.eq]; exact hdropped)]
    exact h.dropped hmask hdropped

/-- Settles O28: the one or two events of FENCE leave the memory as the store made it. -/
theorem fenceWritesFourBytesAndStatusOnly : Obligations.FenceWritesFourBytesAndStatusOnly := by
  unfold Obligations.FenceWritesFourBytesAndStatusOnly
  intro s f hv hquiet _
  obtain ⟨t, hexec, hevents⟩ := exec_fence_cases f hv
  have hlatch := fenceSignalled_afterFenceLatch f hquiet
  have htick : tick (afterFenceLatch f s) = afterFenceLatch f s := tick_of_quiet (by rw [hlatch.eq]; exact hquiet)
  rw [htick] at hevents
  have hsignalled : FenceSignalled f s t := by
    rcases hevents with rfl | rfl | rfl
    · exact hlatch
    · exact hlatch
    · exact hlatch.irqEvent _
  have hfifo : t.fifo = Memory.write32 s.fifo 24 f := by rw [hsignalled.eq]
  refine ⟨_, hexec, ?_, ?_, fun a ha => ?_, hsignalled.signalled, hsignalled.dropped⟩
  · rw [hsignalled.eq]
  · simp only [hfifo]
    exact Memory.read32_write32 s.fifo 24 f
  · simp only [hfifo]
    rw [Memory.read_write32, if_neg (by omega)]

/-! ### The steps of an invocation (R210 to R212; log 2) -/

/-- Settles O1: the pass below its bound is the fetch and then `exec`. -/
theorem stepRunsTheFetchedInstruction : Obligations.StepRunsTheFetchedInstruction := by
  unfold Obligations.StepRunsTheFetchedInstruction
  intro s t u L i hrun hbound hlength hpending hfetch
  exact step_of_fetch hrun hbound hlength hpending hfetch

/-- A pass at the iteration bound ends the invocation. -/
theorem drainPass_at_bound {s : State} (hbound : s.cfg.maxLoop ≤ s.steps) :
    drainPass s = .next (finishInvocation s) := if_pos hbound

/-- Settles O35, over the line decision. -/
theorem invocationEndDecidesTheLine : Obligations.InvocationEndDecidesTheLine := by
  unfold Obligations.InvocationEndDecidesTheLine
  intro s e
  have hend : endOfInvocation s = { raiseLine e with syncing := false, trigger := none } := rfl
  refine ⟨fun hfired henabled => ?_, fun hnot => ?_, fun hsync hbound => ?_⟩
  · rcases raiseLine_cases e with ⟨-, hline⟩ | ⟨hnot, -⟩
    · rw [hend, hline]
    · exact absurd ⟨hfired, henabled⟩ hnot
  · rcases raiseLine_cases e with ⟨⟨hfired, henabled⟩, -⟩ | ⟨-, hline⟩
    · exact hnot.elim (by simp [hfired]) (absurd · henabled)
    · rw [hend, hline]
  · rw [step_running (by rw [hsync]; rfl), drainPass_at_bound hbound, finishInvocation_other (by simp [hsync])]

/-! ### Every pass of the drain loop completes (`60_exceptions.md` R330, `20_memory.md` R83) -/

/-- `read_word()` on ready latches completes and leaves them ready, whatever the guest writes in between. -/
theorem readWord_completes {s : State} (hready : LatchesReady s) :
    ∃ (w : Word) (t : State), readWord s = .ok (w, t) ∧ LatchesReady t :=
  ⟨_, _, readWord_ok hready, latchesReady_nextStop hready (by simp) (by simp) (by simp) (by simp)⟩

theorem readWords_completes (n : Nat) {s : State} (hready : LatchesReady s) :
    ∃ (ws : List Word) (t : State), readWords n s = .ok (ws, t) ∧ LatchesReady t := by
  induction n generalizing s with
  | zero => exact ⟨[], s, rfl, hready⟩
  | succ n ih =>
    obtain ⟨w, t, hread, hready'⟩ := readWord_completes hready
    obtain ⟨ws, u, hrest, hready''⟩ := ih hready'
    refine ⟨w :: ws, u, ?_, hready''⟩
    rw [readWords, hread, except_bind_ok]
    simp only
    rw [hrest, except_bind_ok]

/-- A length accounting completes: it reads its words, with the latches ready behind them, or rewinds (R213). -/
theorem takeWords_completes (n : Nat) {s : State} (hready : LatchesReady s) :
    ∃ (ws : Option (List Word)) (t : State), takeWords n s = .ok (ws, t) ∧ (ws.isSome = true → LatchesReady t) := by
  rw [takeWords]
  simp only
  split
  · have hsize : 4 * hdrStop + 4 ≤ s.cfg.fifoSize := by
      obtain ⟨-, -, -, h16, hlo, hhi, hsize⟩ := hready
      simp only [hdrStop]
      omega
    rw [rewind, fifoWrite32_ok (by decide) (by exact hsize), except_bind_ok]
    exact ⟨none, _, rfl, fun hsome => absurd hsome Bool.false_ne_true⟩
  · obtain ⟨ws, t, hread, hready'⟩ := readWords_completes n (s := { s with rem := s.rem - n }) hready
    rw [hread, except_bind_ok]
    exact ⟨some ws, t, rfl, fun _ => hready'⟩

theorem fetchArgs_completes (n : CmdName) {s : State} (hready : LatchesReady s) :
    ∃ (i : Option Instr) (t : State), fetchArgs n s = .ok (i, t) := by
  obtain ⟨args, t, hargs, hready'⟩ := takeWords_completes (s.cfg.fixedArgs n) hready
  rw [fetchArgs, hargs, except_bind_ok]
  cases args with
  | none => exact ⟨none, t, rfl⟩
  | some args =>
    obtain ⟨payload, u, hpayload, -⟩ := takeWords_completes (t.cfg.payloadWords n args) (hready' rfl)
    simp only
    rw [hpayload, except_bind_ok]
    cases payload with
    | none => exact ⟨none, u, rfl⟩
    | some payload => exact ⟨some (buildCommand n args payload), u, rfl⟩

/-- A fetch on the latches of a ready buffer completes. -/
theorem fetch_completes (L : Nat) {s : State} (hready : LatchesReady s) :
    ∃ (i : Option Instr) (t : State), fetch L s = .ok (i, t) := by
  obtain ⟨op, t, hread, hready'⟩ :=
    readWord_completes (s := { s with cmdStart := s.fifoStop, rem := (L : Int) - 1 }) hready
  rw [fetch, hread, except_bind_ok]
  simp only
  cases t.cfg.lookupOpcode op with
  | none => exact ⟨some (.unknown op), t, rfl⟩
  | some n => exact fetchArgs_completes n hready'

/-- A pending word means that the latches `length()` has loaded are ready, with the guest's accesses in between
(`41_ring_cursor.md` R193). -/
theorem length_latchesReady {s t : State} {L : Nat} (hlength : length s = .ok (L, t)) (hpending : L ≠ 0) :
    LatchesReady t := by
  have hcfg : t.cfg = s.cfg := by rw [(length_passEffect hlength).eq]
  obtain ⟨-, -, -, hL⟩ := length_cases hlength
  rw [hL] at hpending
  obtain ⟨hmn, hmx, -, hstop, h16, hsize, -, -, hlo, hhi, -⟩ := ringValid_of_ringLength_pos hpending
  exact ⟨hmn, hmx, hstop, h16, hlo, hhi, hcfg ▸ hsize⟩

theorem exec_rectCopy_completes (sx sy dx dy w h : Word) (s : State) :
    ∃ t : State, exec (.rectCopy sx sy dx dy w h) s = .next t := by
  rw [exec_rectCopy]
  unfold execRectCopy
  rcases rectCopy_cases sx sy dx dy w h s with ⟨-, hfail⟩ | ⟨u, -, -, -, hdone⟩
  · rw [hfail]
    exact ⟨_, rfl⟩
  · rw [hdone]
    exact ⟨_, rfl⟩

theorem exec_rectFill_completes (colour x y w h : Word) (s : State) :
    ∃ t : State, exec (.rectFill colour x y w h) s = .next t := by
  rw [exec_rectFill]
  unfold execRectFill
  rcases rectFill_cases colour x y w h s with ⟨-, hfail⟩ | ⟨u, -, -, -, hdone⟩
  · rw [hfail]
    cases s.cfg.opcRectFill <;> exact ⟨_, rfl⟩
  · rw [hdone]
    exact ⟨_, rfl⟩

/-- Under a valid configuration every command completes: only FENCE and the rectangle commands access a memory. -/
theorem exec_command_completes {c : Config} {i : Instr} {s : State} (hv : s.cfg.valid = true)
    (hi : isCommand c i = true) : ∃ t : State, exec i s = .next t := by
  cases i
  case fence f =>
    obtain ⟨t, hexec, -⟩ := exec_fence_cases f hv
    exact ⟨_, hexec⟩
  case rectCopy sx sy dx dy w h => exact exec_rectCopy_completes sx sy dx dy w h s
  case rectFill colour x y w h => exact exec_rectFill_completes colour x y w h s
  case defineCursor | defineAlphaCursor =>
    simp only [exec, execDefineCursor, execDefineAlphaCursor]
    split <;> exact ⟨_, rfl⟩
  case update | updateVerbose | invalidCmd | escape | defineScreen | destroyScreen | defineGmrfb | blitGmrfbToScreen
    | blitScreenToGmrfb | annotationFill | annotationCopy | defineGmr2 | remapGmr2 | dead | dead2 | nop | nopError
    | unknown => exact ⟨_, rfl⟩
  all_goals exact absurd hi Bool.false_ne_true

/-- A pass that leaves its invocation running: one iteration below the bound (R210). -/
structure PassContinues (s t : State) : Prop where
  cfg : t.cfg = s.cfg
  trigger : t.trigger = s.trigger
  below : s.steps < s.cfg.maxLoop
  steps : t.steps = s.steps + 1

@[simp] theorem finishInvocation_trigger (s : State) : (finishInvocation s).trigger = none := by
  rw [(finishInvocation_endEffect s).eq]

/-- A command behind its fetch completes, and its pass leaves the invocation running. -/
theorem finishPass_completes {s t u : State} {L : Nat} {i : Instr} (hv : s.cfg.valid = true)
    (hbelow : s.steps < s.cfg.maxLoop) (hlength : length s = .ok (L, t))
    (hfetch : fetch L { t with steps := t.steps + 1 } = .ok (some i, u)) :
    ∃ v : State, finishPass (some i, u) = .next v ∧ PassContinues s v := by
  obtain ⟨a, hmem, ht, -⟩ := length_cases hlength
  have hread := fetch_onlyFetch hfetch
  have hcmd := fetch_isCommand s.cfg hfetch
  have hcfg : u.cfg = s.cfg := by rw [hread.eq, ht, hmem.eq]
  obtain ⟨v, hexec⟩ := exec_command_completes (hcfg ▸ hv) hcmd
  have heffect := exec_commandEffect hcmd hexec
  simp only [finishPass, hexec]
  refine ⟨_, rfl, ?_, ?_, hbelow, ?_⟩ <;> rw [heffect.eq, hread.eq, ht, hmem.eq]

/-- Under a valid configuration every pass of the drain loop completes: it ends the invocation, or it is one of the
iterations left. -/
theorem drainPass_completes {s : State} (hv : s.cfg.valid = true) :
    ∃ t : State, drainPass s = .next t ∧ (t.trigger = none ∨ PassContinues s t) := by
  rcases Nat.lt_or_ge s.steps s.cfg.maxLoop with hbelow | hbound
  · obtain ⟨-, hsize, -⟩ := Config.valid_sizes hv
    obtain ⟨L, t, hlength⟩ : ∃ (L : Nat) (t : State), length s = .ok (L, t) := ⟨_, _, length_ok (by omega)⟩
    rw [drainPass, if_neg (not_le.2 hbelow), hlength]
    simp only
    split
    · exact ⟨_, rfl, .inl (finishInvocation_trigger t)⟩
    · rename_i hpending
      have hready := length_latchesReady hlength hpending
      obtain ⟨i, u, hfetch⟩ := fetch_completes L (s := { t with steps := t.steps + 1 }) hready
      rw [hfetch]
      cases i with
      | none => exact ⟨_, rfl, .inl (finishInvocation_trigger u)⟩
      | some i =>
        obtain ⟨v, hpass, hcontinues⟩ := finishPass_completes hv hbelow hlength hfetch
        exact ⟨v, hpass, .inr hcontinues⟩
  · exact ⟨_, drainPass_at_bound hbound, .inl (finishInvocation_trigger s)⟩

/-! ### An invocation ends (R210) -/

theorem run_succ (M : Host.Core) {s t : M.State} (k : Nat) (hstep : M.step s = .next t) :
    M.run (k + 1) s = M.run k t := by
  rw [Host.Core.run, hstep]

/-- With `n` iterations left, an invocation has ended after at most `n + 1` steps. -/
theorem invocation_ends {n : Nat} {s : State} (hv : s.cfg.valid = true) (hrun : s.trigger.isSome = true)
    (hleft : s.cfg.maxLoop - s.steps = n) :
    ∃ (k : Nat) (t : State), k ≤ n + 1 ∧ Host.Core.run Sys2Proof.core k s = .next t ∧ t.trigger = none := by
  induction n generalizing s with
  | zero =>
    have hstep := (step_running hrun).trans (drainPass_at_bound (by omega))
    exact ⟨1, _, le_rfl, run_succ Sys2Proof.core 0 hstep, finishInvocation_trigger s⟩
  | succ n ih =>
    obtain ⟨t, hpass, hend⟩ := drainPass_completes hv
    have hstep := (step_running hrun).trans hpass
    rcases hend with hended | hcontinues
    · exact ⟨1, t, by omega, run_succ Sys2Proof.core 0 hstep, hended⟩
    · obtain ⟨k, u, hk, hrest, hended⟩ := ih (s := t) (by rwa [hcontinues.cfg]) (by rwa [hcontinues.trigger])
        (by rw [hcontinues.cfg, hcontinues.steps]; omega)
      exact ⟨k + 1, u, by omega, (run_succ Sys2Proof.core k hstep).trans hrest, hended⟩

/-- Settles O47, by induction on the iterations left. -/
theorem invocationsEndWithinTheBound : Obligations.InvocationsEndWithinTheBound := by
  unfold Obligations.InvocationsEndWithinTheBound
  intro s hv hrun
  exact invocation_ends hv hrun rfl

end Sys2Proof.Machine

/-! PROOFS. The cursor-definition commands of `43_cursor_commands.md`: a valid definition is stored and forwarded
(R243, R246), an oversized one takes the skip path (R242). -/

namespace Sys2Proof.Machine

/-! ### What the two commands share -/

/-- R241 as a proposition. -/
theorem cursorValid_iff {c : Config} {width height : Word} {andWords xorWords : Nat} :
    cursorValid c width height andWords xorWords = true
      ↔ width.toNat ≤ 256 ∧ height.toNat ≤ 256 ∧ andWords ≤ c.cursorCap ∧ xorWords ≤ c.cursorCap := by
  simp only [cursorValid, Bool.and_eq_true, decide_eq_true_eq, and_assoc]
  exact Iff.rfl

/-- The state a valid definition leaves (R243, R246): the buffers take it, array elements behind its masks stay, and the
cursor sink gets its masks alone. An alpha definition has no AND mask, so that array stays whole. -/
def definedCursor (cur : CursorDef) (s : State) : State :=
  { s with
    cur := { cur with andMask := overwriteMask cur.andMask s.cur.andMask,
                      xorMask := overwriteMask cur.xorMask s.cur.xorMask },
    out := s.out ++ [.cursorDefine cur.kind cur],
    outcome := some .applied }

/-! ### DEFINE_CURSOR (R242, R243) -/

theorem exec_defineCursor (id hx hy w h ab xb : Word) (payload : List Word) (s : State) :
    exec (.defineCursor id hx hy w h ab xb payload) s = execDefineCursor id hx hy w h ab xb payload s := rfl

/-- The payload splits where the AND mask ends. -/
theorem exec_defineCursor_of_valid {s : State} {w h ab xb : Word} {andM xorM : List Word} (id hx hy : Word)
    (hand : andM.length = maskWords w ab h) (hxor : xorM.length = maskWords w xb h)
    (hvalid : cursorValid s.cfg w h andM.length xorM.length = true) :
    exec (.defineCursor id hx hy w h ab xb (andM ++ xorM)) s
      = .next (definedCursor ⟨.legacy, id, hx, hy, w, h, ab, xb, andM, xorM⟩ s) := by
  rw [exec_defineCursor]
  unfold execDefineCursor
  simp only [← hand, ← hxor, if_pos hvalid, List.take_left, List.drop_left, List.take_length]
  rfl

theorem exec_defineCursor_of_invalid {s : State} {w h ab xb : Word} (id hx hy : Word) (payload : List Word)
    (hinvalid : ¬ cursorValid s.cfg w h (maskWords w ab h) (maskWords w xb h) = true) :
    exec (.defineCursor id hx hy w h ab xb payload) s = .next (skippedOnce s.cfg.opc.defineCursor s) := by
  rw [exec_defineCursor, ← skipped_eq_skippedOnce]
  exact if_neg hinvalid

/-- Settles O29: the payload is the two masks, and the effect is decided by R241. -/
theorem defineCursorStoresAndForwards : Obligations.DefineCursorStoresAndForwards := by
  unfold Obligations.DefineCursorStoresAndForwards
  simp only [← maskWords_eq]
  refine ⟨rfl, fun c hv => ⟨fun id hx hy w h ab xb andM xorM rest hand hxor => ?complete,
    incompleteBelow_fixedArgs hv (n := .defineCursor) rfl, fun id hx hy w h ab xb ws => ?incomplete⟩,
    fun s id hx hy w h ab xb andM xorM hand hxor hwidth hheight handCap hxorCap => ?valid,
    fun s id hx hy w h ab xb payload hoversized => ?oversized⟩
  case complete =>
    have hpayload : (andM ++ xorM).length = c.payloadWords .defineCursor [id, hx, hy, w, h, ab, xb] := by
      rw [List.length_append, hand, hxor]
      rfl
    exact decodeCommand_complete (Config.lookup_opcode hv (n := .defineCursor) rfl) rfl hpayload
  case incomplete =>
    exact decodeCommand_short_payload (Config.lookup_opcode hv (n := .defineCursor) rfl)
      (args := [id, hx, hy, w, h, ab, xb]) rfl
  case valid =>
    exact exec_defineCursor_of_valid id hx hy hand hxor (cursorValid_iff.2 ⟨hwidth, hheight, handCap, hxorCap⟩)
  case oversized =>
    refine exec_defineCursor_of_invalid id hx hy payload fun hvalid => ?_
    obtain ⟨hwidth, hheight, handCap, hxorCap⟩ := cursorValid_iff.1 hvalid
    omega

/-! ### DEFINE_ALPHA_CURSOR (R242, R246) -/

theorem exec_defineAlphaCursor (id hx hy w h : Word) (pixels : List Word) (s : State) :
    exec (.defineAlphaCursor id hx hy w h pixels) s = execDefineAlphaCursor id hx hy w h pixels s := rfl

theorem exec_defineAlphaCursor_of_valid {s : State} {w h : Word} {pixels : List Word} (id hx hy : Word)
    (hpixels : pixels.length = alphaWords w h) (hvalid : cursorValid s.cfg w h 0 pixels.length = true) :
    exec (.defineAlphaCursor id hx hy w h pixels) s
      = .next (definedCursor ⟨.alpha, id, hx, hy, w, h, 0, 32, [], pixels⟩ s) := by
  rw [exec_defineAlphaCursor]
  unfold execDefineAlphaCursor
  simp only [← hpixels, if_pos hvalid, List.take_length]
  rfl

theorem exec_defineAlphaCursor_of_invalid {s : State} {w h : Word} (id hx hy : Word) (pixels : List Word)
    (hinvalid : ¬ cursorValid s.cfg w h 0 (alphaWords w h) = true) :
    exec (.defineAlphaCursor id hx hy w h pixels) s = .next (skippedOnce s.cfg.opc.defineAlphaCursor s) := by
  rw [exec_defineAlphaCursor, ← skipped_eq_skippedOnce]
  exact if_neg hinvalid

/-- Settles O30: as O29, with one payload word a pixel and no AND mask. -/
theorem defineAlphaCursorStoresAndForwards : Obligations.DefineAlphaCursorStoresAndForwards := by
  unfold Obligations.DefineAlphaCursorStoresAndForwards
  refine ⟨rfl, fun c hv => ⟨fun id hx hy w h pixels rest hpixels => ?complete,
    incompleteBelow_fixedArgs hv (n := .defineAlphaCursor) rfl, fun id hx hy w h ws => ?incomplete⟩,
    fun s id hx hy w h pixels hpixels hwidth hheight hcap => ?valid,
    fun s id hx hy w h pixels hoversized => ?oversized⟩
  case complete =>
    exact decodeCommand_complete (Config.lookup_opcode hv (n := .defineAlphaCursor) rfl)
      (args := [id, hx, hy, w, h]) rfl hpixels
  case incomplete =>
    exact decodeCommand_short_payload (Config.lookup_opcode hv (n := .defineAlphaCursor) rfl)
      (args := [id, hx, hy, w, h]) rfl
  case valid =>
    exact exec_defineAlphaCursor_of_valid id hx hy hpixels (cursorValid_iff.2 ⟨hwidth, hheight, by omega, hcap⟩)
  case oversized =>
    refine exec_defineAlphaCursor_of_invalid id hx hy pixels fun hvalid => ?_
    obtain ⟨hwidth, hheight, -, hcap⟩ := cursorValid_iff.1 hvalid
    rw [alphaWords] at hcap
    omega

end Sys2Proof.Machine

/-! PROOFS. The skip class of `44_skip_commands.md` and unknown opcodes: which words each consumes (R260 to R276, R280),
and the one effect they share (`42_decoder.md` R220). -/

namespace Sys2Proof

/-- The opcode value the skip path logs for an instruction: every member of the skip class has its own number, an
unknown command the word it was read from (R260, R280). -/
def Instr.skipOpcode (c : Config) : Instr → Option Word
  | .invalidCmd _ => some c.opc.invalidCmd
  | .escape _ _ _ => some c.opc.escape
  | .defineScreen _ _ => some c.opc.defineScreen
  | .destroyScreen _ => some c.opc.destroyScreen
  | .defineGmrfb _ => some c.opc.defineGmrfb
  | .blitGmrfbToScreen _ => some c.opc.blitGmrfbToScreen
  | .blitScreenToGmrfb _ => some c.opc.blitScreenToGmrfb
  | .annotationFill _ => some c.opc.annotationFill
  | .annotationCopy _ => some c.opc.annotationCopy
  | .defineGmr2 _ => some c.opc.defineGmr2
  | .remapGmr2 _ _ _ _ _ => some c.opc.remapGmr2
  | .dead _ => some c.opc.dead
  | .dead2 _ => some c.opc.dead2
  | .nop _ => some c.opc.nop
  | .nopError _ => some c.opc.nopError
  | .unknown op => some op
  | _ => none

/-- The format-F members of the skip class (R261). -/
def CmdName.isFixedSkip : CmdName → Bool
  | .invalidCmd | .destroyScreen | .defineGmrfb | .blitGmrfbToScreen | .blitScreenToGmrfb | .annotationFill
  | .annotationCopy | .defineGmr2 | .dead | .dead2 | .nop | .nopError => true
  | _ => false

/-- The tables' rows of the format-F skip commands: a number, no payload, and the skip path under that number. -/
theorem isFixedSkip_row {n : CmdName} (hn : n.isFixedSkip = true) (c : Config) (args : List Word) :
    c.opcode n = some ((c.opcode n).getD 0) ∧ c.payloadWords n args = 0
    ∧ (buildCommand n args []).skipOpcode c = c.opcode n := by
  cases n with
  | invalidCmd | destroyScreen | defineGmrfb | blitGmrfbToScreen | blitScreenToGmrfb | annotationFill | annotationCopy
  | defineGmr2 | dead | dead2 | nop | nopError => exact ⟨rfl, rfl, rfl⟩
  | _ => cases hn

/-! ### The computed payloads (`30_encoding.md` R97; R263, R264) -/

/-- Bytes rounded up to words. -/
theorem ceilDiv_four (bytes : Nat) : ceilDiv bytes 4 = (bytes + 3) / 4 := rfl

theorem escape_payloadWords_of_size {c : Config} {args : List Word} {size : Word} (h : args[1]? = some size) :
    c.payloadWords .escape args = (size.toNat + 3) / 4 := by
  simp only [Config.payloadWords, Config.escapePayload, h, escapeWords, ceilDiv_four]

theorem escape_payloadWords_of_unsized {c : Config} {args : List Word} (h : args[1]? = none) :
    c.payloadWords .escape args = Config.unstatedPayload c.opc.escape args := by
  simp only [Config.payloadWords, Config.escapePayload, h]

theorem defineScreen_payloadWords_of_size {c : Config} {args : List Word} {size : Word} (h : args[0]? = some size) :
    c.payloadWords .defineScreen args = max ((size.toNat + 3) / 4) 1 - 1 := by
  simp only [Config.payloadWords, Config.defineScreenPayload, h, defineScreenWords,
    ceilDiv_four]

theorem defineScreen_payloadWords_of_unsized {c : Config} {args : List Word} (h : args[0]? = none) :
    c.payloadWords .defineScreen args = Config.unstatedPayload c.opc.defineScreen args := by
  simp only [Config.payloadWords, Config.defineScreenPayload, h]

end Sys2Proof

namespace Sys2Proof.Machine

/-! ### The effect all of them share -/

/-- What the skip path logs an instruction under decides its whole effect: neither argument nor payload words are
looked at. -/
theorem exec_of_skipOpcode {i : Instr} {s : State} {op : Word} (h : i.skipOpcode s.cfg = some op) :
    exec i s = .next (skippedOnce op s) := by
  rw [← skipped_eq_skippedOnce]
  cases i with
  | invalidCmd | escape | defineScreen | destroyScreen | defineGmrfb | blitGmrfbToScreen | blitScreenToGmrfb
  | annotationFill | annotationCopy | defineGmr2 | remapGmr2 | dead | dead2 | nop | nopError | unknown =>
    obtain rfl := Option.some.inj h
    rfl
  | _ => cases h

/-! ### Format F (R261) -/

/-- The decoder's complete and incomplete case and the shared effect, for any format-F skip command. -/
theorem skipsFixed {n : CmdName} (hn : n.isFixedSkip = true) {num : Word} {k : Nat}
    (hnum : (Config.default.opcode n).getD 0 = num) (hcount : Config.default.fixedArgs n = k) :
    SkipsFixed (buildCommand n · []) (fun c => (c.opcode n).getD 0) (·.fixedArgs n) num k := by
  refine ⟨hnum, hcount, fun c hv => ⟨fun args rest hargs => ?_, ?_⟩, fun s args => ?_⟩
  · obtain ⟨hop, noPayload, -⟩ := isFixedSkip_row hn c args
    exact decodeCommand_fixed hv hop hargs noPayload rest
  · obtain ⟨hop, -, -⟩ := isFixedSkip_row hn c []
    exact incompleteBelow_fixedArgs hv hop
  · obtain ⟨hop, -, hskip⟩ := isFixedSkip_row hn s.cfg args
    exact exec_of_skipOpcode (hskip.trans hop)

/-- Settles O31: each is a format-F row, with its default number and count. -/
theorem fixedSkipCommandsOnlyConsume : Obligations.FixedSkipCommandsOnlyConsume := by
  unfold Obligations.FixedSkipCommandsOnlyConsume
  exact ⟨skipsFixed (n := .invalidCmd) rfl rfl rfl, skipsFixed (n := .destroyScreen) rfl rfl rfl,
    skipsFixed (n := .defineGmrfb) rfl rfl rfl, skipsFixed (n := .blitGmrfbToScreen) rfl rfl rfl,
    skipsFixed (n := .blitScreenToGmrfb) rfl rfl rfl, skipsFixed (n := .annotationFill) rfl rfl rfl,
    skipsFixed (n := .annotationCopy) rfl rfl rfl, skipsFixed (n := .defineGmr2) rfl rfl rfl,
    skipsFixed (n := .dead) rfl rfl rfl, skipsFixed (n := .dead2) rfl rfl rfl,
    skipsFixed (n := .nop) rfl rfl rfl, skipsFixed (n := .nopError) rfl rfl rfl⟩

/-! ### Format V (R263, R264, R272) -/

/-- Settles O32: the payload is the computed one, with or without the length-bearing word among the fixed words. -/
theorem variableSkipCommandsOnlyConsume : Obligations.VariableSkipCommandsOnlyConsume := by
  unfold Obligations.VariableSkipCommandsOnlyConsume
  refine ⟨⟨rfl, rfl, fun c hv args payload rest hargs hpayload => ?escape, fun _ _ _ _ => exec_of_skipOpcode rfl⟩,
    ⟨rfl, rfl, fun c hv args payload rest hargs hpayload => ?defineScreen, fun _ _ _ => exec_of_skipOpcode rfl⟩,
    ⟨rfl, fun c hv gmr flags off pages payload rest hpayload => ?remapGmr2, fun _ _ => rfl,
      fun _ _ _ _ _ _ => exec_of_skipOpcode rfl⟩,
    fun c hv => ⟨incompleteBelow_fixedArgs hv (n := .escape) rfl, incompleteBelow_fixedArgs hv (n := .defineScreen) rfl,
      incompleteBelow_fixedArgs hv (n := .remapGmr2) rfl, fun args ws size hargs hsize hshort => ?escapeShort,
      fun args ws size hargs hsize hshort => ?defineScreenShort, fun gmr flags off pages ws hshort => ?remapGmr2Short⟩⟩
  case escape =>
    refine decodeCommand_complete (Config.lookup_opcode hv (n := .escape) rfl) hargs (hpayload.trans ?_)
    split
    next size hsize => exact (escape_payloadWords_of_size hsize).symm
    next hunsized => exact (escape_payloadWords_of_unsized hunsized).symm
  case defineScreen =>
    refine decodeCommand_complete (Config.lookup_opcode hv (n := .defineScreen) rfl) hargs (hpayload.trans ?_)
    split
    next size hsize => exact (defineScreen_payloadWords_of_size hsize).symm
    next hunsized => exact (defineScreen_payloadWords_of_unsized hunsized).symm
  case remapGmr2 =>
    exact decodeCommand_complete (Config.lookup_opcode hv (n := .remapGmr2) rfl) (args := [gmr, flags, off, pages]) rfl
      hpayload
  case escapeShort =>
    exact decodeCommand_short_payload (Config.lookup_opcode hv (n := .escape) rfl) hargs
      (hshort.trans_eq (escape_payloadWords_of_size hsize).symm)
  case defineScreenShort =>
    exact decodeCommand_short_payload (Config.lookup_opcode hv (n := .defineScreen) rfl) hargs
      (hshort.trans_eq (defineScreen_payloadWords_of_size hsize).symm)
  case remapGmr2Short =>
    exact decodeCommand_short_payload (Config.lookup_opcode hv (n := .remapGmr2) rfl)
      (args := [gmr, flags, off, pages]) rfl hshort

/-! ### Unknown opcodes (R280) -/

/-- Settles O33: the decoder finds no command, and the skip path logs the word itself. -/
theorem unknownOpcodesConsumeOneWord : Obligations.UnknownOpcodesConsumeOneWord := by
  unfold Obligations.UnknownOpcodesConsumeOneWord
  exact ⟨fun _ _ rest hunnamed => decodeCommand_unknown (Config.lookup_eq_none.2 hunnamed) rest,
    fun _ _ => exec_of_skipOpcode rfl⟩

end Sys2Proof.Machine

/-! PROOFS. The Rectangle Engine of `45_rect_engine.md`: no access of a copy or a fill leaves the framebuffer (R292), and
what each leaves there without guest accesses, line by line (R296, R298) and as a snapshot (R297). -/

namespace Sys2Proof.Machine

/-! ### No access leaves the framebuffer (R292) -/

/-- What rectangle operations may do without guest accesses: store inside the framebuffer, and leave the FIFO memory and
what is the environment's alone. -/
structure StoresInFramebuffer (s t : State) : Prop where
  cfg : t.cfg = s.cfg
  fifo : t.fifo = s.fifo
  guestSched : t.guestSched = s.guestSched
  guestReads : t.guestReads = s.guestReads
  beyond : ∀ a : Nat, s.cfg.fbSize ≤ a → Memory.read .fb t.fb a = Memory.read .fb s.fb a

theorem StoresInFramebuffer.refl (s : State) : StoresInFramebuffer s s := ⟨rfl, rfl, rfl, rfl, fun _ _ => rfl⟩

theorem StoresInFramebuffer.trans {s t u : State} (h : StoresInFramebuffer s t) (k : StoresInFramebuffer t u) :
    StoresInFramebuffer s u :=
  ⟨k.cfg.trans h.cfg, k.fifo.trans h.fifo, k.guestSched.trans h.guestSched, k.guestReads.trans h.guestReads,
    fun a ha => (k.beyond a (h.cfg ▸ ha)).trans (h.beyond a ha)⟩

theorem StoresInFramebuffer.quiet {s t : State} (h : StoresInFramebuffer s t) (hq : Quiet s) : Quiet t :=
  h.guestSched.trans hq

theorem storesInFramebuffer_write {s : State} {off : Nat} (hoff : off < s.cfg.fbSize) (b : Byte) :
    StoresInFramebuffer s { s with fb := Memory.write s.fb off b } := by
  refine ⟨rfl, rfl, rfl, rfl, fun a ha => ?_⟩
  rw [Memory.read_write, if_neg (by omega)]

/-- Without guest accesses a row read changes nothing. -/
theorem fbRead_state_of_quiet : ∀ (n off : Nat) {s t : State} {bs : List Byte}, Quiet s →
    fbRead off n s = .ok (bs, t) → t = s
  | 0, _, _, _, _, _, h => by
    cases h
    rfl
  | n + 1, off, s, _, _, hq, h => by
    rw [fbRead, tick_of_quiet hq] at h
    split at h
    · split at h
      · rename_i hread
        cases h
        exact fbRead_state_of_quiet n (off + 1) hq hread
      · cases h
    · cases h

theorem fbWrite_storesInFramebuffer : ∀ (bs : List Byte) (off : Nat) {s t : State}, Quiet s →
    fbWrite off bs s = .ok t → StoresInFramebuffer s t
  | [], _, s, _, _, h => by
    cases h
    exact .refl s
  | b :: bs, off, s, _, hq, h => by
    rw [fbWrite, tick_of_quiet hq] at h
    split at h
    · rename_i hoff
      exact (storesInFramebuffer_write hoff b).trans (fbWrite_storesInFramebuffer bs (off + 1) hq h)
    · cases h

theorem copyLine_storesInFramebuffer {S : Surface} {b : Nat} {src dst : Rect} {line : Nat} {s t : State} (hq : Quiet s)
    (h : copyLine S b src dst line s = .ok t) : StoresInFramebuffer s t := by
  unfold copyLine at h
  split at h
  · rename_i hread
    obtain rfl := fbRead_state_of_quiet _ _ hq hread
    exact fbWrite_storesInFramebuffer _ _ hq h
  · cases h

theorem copyAll_storesInFramebuffer {S : Surface} {b : Nat} {src dst : Rect} : ∀ {lines : List Nat} {s t : State},
    Quiet s → copyAll S b src dst lines s = .ok t → StoresInFramebuffer s t
  | [], s, _, _, h => by
    cases h
    exact .refl s
  | line :: lines, s, _, hq, h => by
    rw [copyAll] at h
    split at h
    · rename_i hline
      have hstore := copyLine_storesInFramebuffer hq hline
      exact hstore.trans (copyAll_storesInFramebuffer (hstore.quiet hq) h)
    · cases h

theorem fillAll_storesInFramebuffer {S : Surface} {b : Nat} {row : List Byte} {dst : Rect} :
    ∀ {lines : List Nat} {s t : State}, Quiet s → fillAll S b row dst lines s = .ok t → StoresInFramebuffer s t
  | [], s, _, _, h => by
    cases h
    exact .refl s
  | line :: lines, s, _, hq, h => by
    rw [fillAll] at h
    split at h
    · rename_i hline
      have hstore := fbWrite_storesInFramebuffer _ _ hq hline
      exact hstore.trans (fillAll_storesInFramebuffer (hstore.quiet hq) h)
    · cases h

/-! ### What the two commands make of their operation -/

/-- No memory is accessed: both, the guest's schedule and the record of its reads stand as before (R293). -/
structure NoAccess (s t : State) : Prop where
  cfg : t.cfg = s.cfg
  fifo : t.fifo = s.fifo
  fb : t.fb = s.fb
  guestSched : t.guestSched = s.guestSched
  guestReads : t.guestReads = s.guestReads

theorem NoAccess.storesInFramebuffer {s t : State} (h : NoAccess s t) : StoresInFramebuffer s t :=
  ⟨h.cfg, h.fifo, h.guestSched, h.guestReads, fun _ _ => by rw [h.fb]⟩

theorem noAccess_applied_append (r : Rect) (s : State) : NoAccess s (setOutcome .applied (append r s)) := by
  constructor <;> simp

theorem noAccess_skipped_fullSurfaceUpdate (op : Word) (s : State) : NoAccess s (skipped op (fullSurfaceUpdate s)) := by
  constructor <;> simp

theorem noAccess_setOutcome_fullSurfaceUpdate (o : CommandOutcome) (s : State) :
    NoAccess s (setOutcome o (fullSurfaceUpdate s)) := by
  constructor <;> simp

theorem exec_rectCopy_of_done {s t : State} {sx sy dx dy w h : Word}
    (hdone : rectCopy sx sy dx dy w h s = .ok (some t)) :
    exec (.rectCopy sx sy dx dy w h) s = .next (setOutcome .applied t) := by
  rw [exec_rectCopy]
  unfold execRectCopy
  rw [hdone]

theorem exec_rectFill_of_done {s t : State} {colour x y w h : Word} (hdone : rectFill colour x y w h s = .ok (some t)) :
    exec (.rectFill colour x y w h) s = .next (setOutcome .applied t) := by
  rw [exec_rectFill]
  unfold execRectFill
  rw [hdone]

/-- All RECT_COPY can do: fall back without an access, or copy its lines and access nothing more. -/
theorem exec_rectCopy_cases (sx sy dx dy w h : Word) (s : State) :
    (copyOk s sx sy dx dy w h = false ∧ ∃ t, exec (.rectCopy sx sy dx dy w h) s = .next t ∧ NoAccess s t)
    ∨ (copyOk s sx sy dx dy w h = true ∧ ∃ u t, copyAll (surface s) (bypp s) (rectOf sx sy w h) (rectOf dx dy w h)
          (copyLines (s32 sy).toNat (s32 dy).toNat (s32 h).toNat) s = .ok u
        ∧ exec (.rectCopy sx sy dx dy w h) s = .next t ∧ NoAccess u t) := by
  rcases rectCopy_cases sx sy dx dy w h s with ⟨hbad, -⟩ | ⟨u, hok, -, hlines, hdone⟩
  · exact .inl ⟨hbad, _, exec_rectCopy_of_invalid (fun hok => by simp [copyOk_iff.2 hok] at hbad),
      noAccess_skipped_fullSurfaceUpdate _ s⟩
  · exact .inr ⟨hok, u, _, hlines, exec_rectCopy_of_done hdone, noAccess_applied_append _ u⟩

/-- All RECT_FILL can do: fall back without an access, or store its lines and access nothing more. -/
theorem exec_rectFill_cases (colour x y w h : Word) (s : State) :
    (fillOk s x y w h = false ∧ ∃ t, exec (.rectFill colour x y w h) s = .next t ∧ NoAccess s t)
    ∨ (fillOk s x y w h = true ∧ ∃ u t, fillAll (surface s) (bypp s) (fillRow (bypp s) (s32 w).toNat colour)
          (rectOf x y w h) (List.range (s32 h).toNat) s = .ok u
        ∧ exec (.rectFill colour x y w h) s = .next t ∧ NoAccess u t) := by
  rcases rectFill_cases colour x y w h s with ⟨hbad, hfail⟩ | ⟨u, hok, -, hlines, hdone⟩
  · refine .inl ⟨hbad, ?_⟩
    rw [exec_rectFill]
    unfold execRectFill
    rw [hfail]
    cases s.cfg.opcRectFill with
    | none => exact ⟨_, rfl, noAccess_setOutcome_fullSurfaceUpdate _ s⟩
    | some op => exact ⟨_, rfl, noAccess_skipped_fullSurfaceUpdate op s⟩
  · exact .inr ⟨hok, u, _, hlines, exec_rectFill_of_done hdone, noAccess_applied_append _ u⟩

theorem exec_rectCopy_storesInFramebuffer {s t : State} {sx sy dx dy w h : Word} (hq : Quiet s)
    (hexec : exec (.rectCopy sx sy dx dy w h) s = .next t) : StoresInFramebuffer s t := by
  rcases exec_rectCopy_cases sx sy dx dy w h s with ⟨-, t', ht', hno⟩ | ⟨-, u, t', hlines, ht', hno⟩ <;>
    cases hexec.symm.trans ht'
  · exact hno.storesInFramebuffer
  · exact (copyAll_storesInFramebuffer hq hlines).trans hno.storesInFramebuffer

theorem exec_rectFill_storesInFramebuffer {s t : State} {colour x y w h : Word} (hq : Quiet s)
    (hexec : exec (.rectFill colour x y w h) s = .next t) : StoresInFramebuffer s t := by
  rcases exec_rectFill_cases colour x y w h s with ⟨-, t', ht', hno⟩ | ⟨-, u, t', hlines, ht', hno⟩ <;>
    cases hexec.symm.trans ht'
  · exact hno.storesInFramebuffer
  · exact (fillAll_storesInFramebuffer hq hlines).trans hno.storesInFramebuffer

/-- The groups of the guest's schedule a copy uses up, counted from its lines (R66, R76). -/
theorem exec_rectCopy_guestSched {s t : State} {sx sy dx dy w h : Word}
    (hexec : exec (.rectCopy sx sy dx dy w h) s = .next t) :
    t.guestSched = s.guestSched.drop
      (if copyOk s sx sy dx dy w h = true then h.toNat * (2 * (w.toNat * bypp s)) else 0) := by
  rcases exec_rectCopy_cases sx sy dx dy w h s with ⟨hbad, t', ht', hno⟩ | ⟨hok, u, t', hlines, ht', hno⟩ <;>
    cases hexec.symm.trans ht'
  · rw [hno.guestSched, hbad, if_neg Bool.false_ne_true, List.drop_zero]
  · obtain ⟨⟨-, -, -, -, hw, -, hh, -⟩, -⟩ := copyOk_iff.1 hok
    rw [hno.guestSched, copyAll_guestSched hlines, copyLines_length, if_pos hok]
    simp only [rectOf, s32, s32_toNat hw, s32_toNat hh]

/-- The groups of the guest's schedule a fill uses up. -/
theorem exec_rectFill_guestSched {s t : State} {colour x y w h : Word}
    (hexec : exec (.rectFill colour x y w h) s = .next t) :
    t.guestSched = s.guestSched.drop
      (if fillOk s x y w h = true then h.toNat * (w.toNat * bypp s) else 0) := by
  rcases exec_rectFill_cases colour x y w h s with ⟨hbad, t', ht', hno⟩ | ⟨hok, u, t', hlines, ht', hno⟩ <;>
    cases hexec.symm.trans ht'
  · rw [hno.guestSched, hbad, if_neg Bool.false_ne_true, List.drop_zero]
  · obtain ⟨⟨-, -, -, -, hw, -, hh, -⟩, -⟩ := fillOk_iff.1 hok
    rw [hno.guestSched, fillAll_guestSched hlines, fillRow_length, List.length_range, if_pos hok]
    simp only [s32, s32_toNat hw, s32_toNat hh]

/-- Settles O25: both commands complete, a command's effect spares the register bank, and the lines of each store inside
the framebuffer alone and use up the schedule a byte at a time. -/
theorem rectangleEngineStaysInTheFramebuffer : Obligations.RectangleEngineStaysInTheFramebuffer := by
  unfold Obligations.RectangleEngineStaysInTheFramebuffer
  refine ⟨fun s i hi => ?_, fun s t sx sy dx dy w h hexec => ?_, fun s t colour x y w h hexec => ?_⟩
  · suffices h : ∃ t, exec i s = .next t ∧ SameRegisters s t ∧ (Quiet s → StoresInFramebuffer s t) by
      obtain ⟨t, hexec, hregs, hstore⟩ := h
      exact ⟨t, hexec, hregs, fun hq => ⟨(hstore hq).fifo, (hstore hq).guestSched, (hstore hq).guestReads,
        fun _ => (hstore hq).beyond⟩⟩
    rcases hi with ⟨sx, sy, dx, dy, w, h, rfl⟩ | ⟨colour, x, y, w, h, rfl⟩
    · obtain ⟨t, hexec⟩ := exec_rectCopy_completes sx sy dx dy w h s
      exact ⟨t, hexec, (exec_commandEffect (c := s.cfg) rfl hexec).sameRegisters,
        fun hq => exec_rectCopy_storesInFramebuffer hq hexec⟩
    · obtain ⟨t, hexec⟩ := exec_rectFill_completes colour x y w h s
      exact ⟨t, hexec, (exec_commandEffect (c := s.cfg) rfl hexec).sameRegisters,
        fun hq => exec_rectFill_storesInFramebuffer hq hexec⟩
  · simpa only [copyOk_iff] using exec_rectCopy_guestSched hexec
  · simpa only [fillOk_iff] using exec_rectFill_guestSched hexec

/-! ### The rows of a rectangle -/

theorem pixelAddr_eq_add (s : State) (x y : Word) (j k : Nat) : pixelAddr s x y j k = pixelAddr s x y j 0 + k := rfl

/-- The rows of a checked rectangle end inside the framebuffer, or are empty (R292). -/
theorem pixelRow_inside {s : State} {x y w h : Word} (hi : RectInside s x y w h) (hr : RowsInFramebuffer s x y w h)
    {j : Nat} (hj : j < h.toNat) :
    w.toNat * bypp s = 0 ∨ pixelAddr s x y j 0 + w.toNat * bypp s ≤ s.cfg.fbSize := by
  obtain ⟨-, -, -, -, hw, -, hh, -⟩ := hi
  have hr : w.toNat = 0 ∨ h.toNat = 0
      ∨ (y.toInt.toNat + h.toNat - 1) * stride s + (x.toInt.toNat + w.toNat) * bypp s ≤ s.cfg.fbSize := by
    rw [← s32_toNat hw, ← s32_toNat hh]
    exact hr.imp (fun e => by rw [e]; rfl) (Or.imp_left fun e => by rw [e]; rfl)
  exact row_inside hj hr

/-- A row write leaves an address that none of its bytes has as it was. -/
theorem Memory.read_writeBytes_of_unreached {space : Space} (m : Memory) {a b : Nat} {bs : List Byte}
    (h : ∀ k < bs.length, a + k ≠ b) : Memory.read space (Memory.writeBytes m a bs) b = Memory.read space m b := by
  rw [Memory.read_writeBytes, if_neg]
  rintro ⟨hlo, hhi⟩
  exact h (b - a) (by omega) (by omega)

theorem Memory.read_writeBytes_inside {space : Space} (m : Memory) (a : Nat) {bs : List Byte} {k : Nat}
    (hk : k < bs.length) : Memory.read space (Memory.writeBytes m a bs) (a + k) = bs.getD k 0 := by
  rw [Memory.read_writeBytes, if_pos (by omega), Nat.add_sub_cancel_left]

/-! ### Fill (R298) -/

/-- A memory after a scratch row is stored at the start of each of some lines, one after the other (R298). -/
def storeRows (row : List Byte) (start : Nat → Nat) (lines : List Nat) (m : Memory) : Memory :=
  lines.foldl (fun m j => Memory.writeBytes m (start j) row) m

theorem storeRows_wf {row : List Byte} {start : Nat → Nat} : ∀ (lines : List Nat) {m : Memory}, Memory.wf m →
    Memory.wf (storeRows row start lines m)
  | [], _, hm => hm
  | _ :: lines, _, hm => storeRows_wf lines (Memory.writeBytes_wf _ _ hm)

theorem read_storeRows_of_unreached {space : Space} {row : List Byte} {start : Nat → Nat} {a : Nat} :
    ∀ (lines : List Nat) (m : Memory), (∀ j ∈ lines, ∀ k < row.length, start j + k ≠ a) →
      Memory.read space (storeRows row start lines m) a = Memory.read space m a
  | [], _, _ => rfl
  | j :: lines, m, h =>
    (read_storeRows_of_unreached lines _ fun i hi => h i (List.mem_cons_of_mem j hi)).trans
      (Memory.read_writeBytes_of_unreached m (h j (List.mem_cons_self ..)))

theorem storeRows_range_succ (row : List Byte) (start : Nat → Nat) (n : Nat) (m : Memory) :
    storeRows row start (List.range (n + 1)) m
      = Memory.writeBytes (storeRows row start (List.range n) m) (start n) row := by
  rw [storeRows, List.range_succ, List.foldl_append]
  rfl

/-- Top to bottom, the last line to reach an address wins. -/
theorem read_storeRows_last {space : Space} {row : List Byte} {start : Nat → Nat} {m : Memory} {j k : Nat}
    (hk : k < row.length) : ∀ {n : Nat}, j < n →
      (∀ i : Nat, j < i → i < n → ∀ l < row.length, start i + l ≠ start j + k) →
      Memory.read space (storeRows row start (List.range n) m) (start j + k) = row.getD k 0
  | n + 1, hj, hlast => by
    rw [storeRows_range_succ]
    rcases Nat.lt_succ_iff_lt_or_eq.1 hj with hlt | rfl
    · rw [Memory.read_writeBytes_of_unreached _ (hlast n hlt (by omega))]
      exact read_storeRows_last hk hlt fun i hi hin => hlast i hi (by omega)
    · exact Memory.read_writeBytes_inside _ _ hk

/-- Without guest accesses the lines of a fill store the scratch row and change nothing else. -/
theorem fillAll_of_quiet {S : Surface} {b : Nat} {row : List Byte} {dst : Rect} : ∀ {lines : List Nat} {s : State},
    Quiet s →
    (∀ line ∈ lines, row.length = 0 ∨ (dst.y + line) * S.stride + dst.x * b + row.length ≤ s.cfg.fbSize) →
    fillAll S b row dst lines s
      = .ok { s with fb := storeRows row (fun j => (dst.y + j) * S.stride + dst.x * b) lines s.fb }
  | [], _, _, _ => rfl
  | line :: lines, s, hq, h => by
    have hline : fbWrite ((dst.y + line) * S.stride + dst.x * b) row s
        = .ok { s with fb := Memory.writeBytes s.fb ((dst.y + line) * S.stride + dst.x * b) row } := by
      rcases h line (List.mem_cons_self ..) with hempty | hin
      · rw [List.length_eq_zero_iff.1 hempty]
        rfl
      · exact fbWrite_of_quiet row _ s hq hin
    rw [fillAll, hline]
    exact fillAll_of_quiet (s := { s with fb := Memory.writeBytes s.fb _ row }) hq
      fun l hl => h l (List.mem_cons_of_mem _ hl)

theorem rectFill_of_quiet {s : State} {x y w h : Word} (colour : Word) (hq : Quiet s) (hi : RectInside s x y w h)
    (hr : RowsInFramebuffer s x y w h) :
    rectFill colour x y w h s = .ok (some (append (argRect x y w h) { s with
      fb := storeRows (fillRow (bypp s) w.toNat colour) (fun j => pixelAddr s x y j 0) (List.range h.toNat) s.fb })) := by
  obtain ⟨-, -, -, -, hw, -, hh, -⟩ := id hi
  have hlines := fillAll_of_quiet (S := surface s) (b := bypp s) (row := fillRow (bypp s) w.toNat colour)
    (dst := rectOf x y w h) (lines := List.range h.toNat) hq fun j hj => by
      rw [fillRow_length]
      exact pixelRow_inside hi hr (List.mem_range.1 hj)
  rw [← rectOf_eq hi, rectFill, if_pos (fillOk_iff.2 ⟨hi, hr⟩), s32, s32_toNat hw, s32, s32_toNat hh, hlines]
  rfl

/-- Settles O24: the lines store the scratch row from top to bottom, and a row's bytes are those of the pixel. -/
theorem rectFillWritesTheColourAndNothingElse : Obligations.RectFillWritesTheColourAndNothingElse := by
  unfold Obligations.RectFillWritesTheColourAndNothingElse
  refine ⟨fun c op hv hop => ⟨fun colour x y w h =>
      decodeCommand_fixed hv (n := .rectFill) (args := [colour, x, y, w, h]) hop rfl rfl,
    incompleteBelow_fixedArgs hv (n := .rectFill) hop⟩, fun s colour x y w h hq hwf hi hr => ?_⟩
  refine ⟨_, (exec_rectFill_of_done (rectFill_of_quiet colour hq hi hr)).trans (by rw [append_eq]; rfl),
    storeRows_wf _ hwf, fun j k hj hk hlast => ?_, fun a hunreached => ?_⟩
  · rw [pixelAddr_eq_add, read_storeRows_last (by rwa [fillRow_length]) hj, fillRow_getD hk]
    intro i hji hi l hl
    exact hlast i l hji hi (by rwa [fillRow_length] at hl)
  · refine read_storeRows_of_unreached _ _ fun j hj k hk => ?_
    exact hunreached j k (List.mem_range.1 hj) (by rwa [fillRow_length] at hk)

/-! ### Copy (R296) -/

theorem copyRow_inside (src dst : Nat) {n k : Nat} (f : Nat → Byte) (hk : k < n) :
    copyRow src dst n f (dst + k) = f (src + k) := by
  rw [copyRow, if_pos (by omega), Nat.add_sub_cancel_left]

theorem copyRow_of_unreached {src dst n a : Nat} (f : Nat → Byte) (h : ∀ k < n, dst + k ≠ a) :
    copyRow src dst n f a = f a := by
  rw [copyRow, if_neg]
  rintro ⟨hlo, hhi⟩
  exact h (a - dst) (by omega) (by omega)

section
variable {src dst : Nat → Nat} {n : Nat}

theorem foldl_copyRow_of_unreached {a : Nat} : ∀ (lines : List Nat) (f : Nat → Byte),
    (∀ j ∈ lines, ∀ k < n, dst j + k ≠ a) → lines.foldl (fun f j => copyRow (src j) (dst j) n f) f a = f a
  | [], _, _ => rfl
  | j :: lines, f, h =>
    (foldl_copyRow_of_unreached lines _ fun i hi => h i (List.mem_cons_of_mem j hi)).trans
      (copyRow_of_unreached f (h j (List.mem_cons_self ..)))

/-- Line `i` may be copied before line `j` without harm: its destination row shares no byte with the source row or the
destination row of line `j`. -/
def MayPrecede (src dst : Nat → Nat) (n i j : Nat) : Prop :=
  ∀ k < n, ∀ l < n, dst i + k ≠ src j + l ∧ dst i + k ≠ dst j + l

/-- Where every line may precede the lines after it, the copy is a snapshot copy (R297). -/
theorem foldl_copyRow_snapshot {j k : Nat} (hk : k < n) : ∀ {lines : List Nat} (f : Nat → Byte),
    lines.Pairwise (MayPrecede src dst n) → j ∈ lines →
    lines.foldl (fun f j => copyRow (src j) (dst j) n f) f (dst j + k) = f (src j + k)
  | i :: lines, f, horder, hj => by
    obtain ⟨hfirst, horder⟩ := List.pairwise_cons.1 horder
    rw [List.foldl_cons]
    rcases List.mem_cons.1 hj with rfl | hj
    · rw [foldl_copyRow_of_unreached lines _ fun l hl m hm => ((hfirst l hl k hk m hm).2).symm]
      exact copyRow_inside _ _ f hk
    · rw [foldl_copyRow_snapshot hk _ horder hj]
      exact copyRow_of_unreached f fun m hm => (hfirst j hj m hm k hk).1

end

/-- Without guest accesses a copy of valid rectangles copies its lines one after the other in the order of R296. -/
theorem rectCopy_of_quiet {s : State} {sx sy dx dy w h : Word} (hq : Quiet s) (hwf : Memory.wf s.fb)
    (hsi : RectInside s sx sy w h) (hdi : RectInside s dx dy w h) (hsr : RowsInFramebuffer s sx sy w h)
    (hdr : RowsInFramebuffer s dx dy w h) :
    ∃ m, rectCopy sx sy dx dy w h s = .ok (some (append (argRect dx dy w h) { s with fb := m })) ∧ Memory.wf m
      ∧ ∀ a, Memory.read .fb m a = copyRows s sx sy dx dy w h (Memory.read .fb s.fb) a := by
  obtain ⟨-, -, hsy, -, hw, -, hh, -⟩ := id hsi
  obtain ⟨-, -, hdy, -⟩ := id hdi
  have hwidth : (rectOf sx sy w h).w = w.toNat := s32_toNat hw
  obtain ⟨m, hlines, hm, hread⟩ := copyAll_of_quiet (S := surface s) (b := bypp s) (src := rectOf sx sy w h)
    (dst := rectOf dx dy w h) (lines := copyLines (s32 sy).toNat (s32 dy).toNat (s32 h).toNat) hq hwf fun j hj => by
      have hj : j < h.toNat := (mem_copyLines.1 hj).trans_eq (s32_toNat hh)
      rw [hwidth]
      exact ⟨pixelRow_inside hsi hsr hj, pixelRow_inside hdi hdr hj⟩
  refine ⟨m, ?_, hm, fun a => (hread a).trans ?_⟩
  · rw [rectCopy, if_pos (copyOk_iff.2 ⟨hsi, hdi, hsr, hdr⟩), hlines, rectOf_eq hdi]
  · rw [hwidth, s32, s32_toNat hsy, s32, s32_toNat hdy, s32, s32_toNat hh]
    rfl

/-! ### A copy as a snapshot (R297) -/

/-- Where rows are disjoint, bytes of a surface on different lines have different addresses. -/
theorem surfaceAddr_ne {stride y y' c c' : Nat} (hc : c < stride) (hc' : c' < stride) (hy : y ≠ y') :
    y * stride + c ≠ y' * stride + c' := by
  intro heq
  apply hy
  have hdiv : ∀ y c : Nat, c < stride → (y * stride + c) / stride = y := fun y c hc => by
    rw [Nat.mul_comm, Nat.mul_add_div (by omega), Nat.div_eq_of_lt hc, Nat.add_zero]
  rw [← hdiv y c hc, heq, hdiv y' c' hc']

/-- So have bytes of two rectangles inside the surface, on different lines of the surface. -/
theorem pixelAddr_ne {s : State} {x y x' y' w h : Word} (hstride : s.width.toNat * bypp s ≤ stride s)
    (hi : RectInside s x y w h) (hi' : RectInside s x' y' w h) {i j k l : Nat} (hk : k < w.toNat * bypp s)
    (hl : l < w.toNat * bypp s) (hline : y.toNat + i ≠ y'.toNat + j) :
    pixelAddr s x y i 0 + k ≠ pixelAddr s x' y' j 0 + l := by
  have hcol : ∀ {x y : Word} {c : Nat}, RectInside s x y w h → c < w.toNat * bypp s →
      x.toInt.toNat * bypp s + c < stride s := by
    rintro x y c ⟨hx, -, -, -, hw, -, -, -, hright, -⟩ hc
    have hwidth : x.toInt.toNat + w.toNat ≤ s.width.toNat := by
      rw [← s32_toNat hw]
      omega
    have := Nat.mul_le_mul_right (bypp s) hwidth
    rw [Nat.add_mul] at this
    omega
  have hline : y.toInt.toNat + i ≠ y'.toInt.toNat + j := by
    obtain ⟨-, -, hy, -⟩ := hi
    obtain ⟨-, -, hy', -⟩ := hi'
    rwa [s32_toNat hy, s32_toNat hy']
  simpa only [pixelAddr, Nat.add_zero, Nat.add_assoc] using surfaceAddr_ne (hcol hi hk) (hcol hi' hl) hline

/-- The order of R296: no line is copied after one that overwrites its source. -/
theorem copyLines_pairwise (sy dy h : Nat) :
    (copyLines sy dy h).Pairwise (fun i j => dy + i ≠ sy + j ∧ dy + i ≠ dy + j) := by
  unfold copyLines
  split
  · exact List.pairwise_reverse.2 (List.pairwise_lt_range.imp fun hij => by omega)
  · exact List.pairwise_lt_range.imp fun hij => by omega

/-- Where rows are disjoint, the lines of a copy leave in its destination what its source held before. -/
theorem copyRows_snapshot {s : State} {sx sy dx dy w h : Word} (hstride : s.width.toNat * bypp s ≤ stride s)
    (hsi : RectInside s sx sy w h) (hdi : RectInside s dx dy w h) (f : Nat → Byte) {j k : Nat} (hj : j < h.toNat)
    (hk : k < w.toNat * bypp s) :
    copyRows s sx sy dx dy w h f (pixelAddr s dx dy j k) = f (pixelAddr s sx sy j k) :=
  foldl_copyRow_snapshot (src := fun j => pixelAddr s sx sy j 0) (dst := fun j => pixelAddr s dx dy j 0) hk f
    ((copyLines_pairwise sy.toNat dy.toNat h.toNat).imp fun ⟨hsrc, hdst⟩ _ hk _ hl =>
      ⟨pixelAddr_ne hstride hdi hsi hk hl hsrc, pixelAddr_ne hstride hdi hdi hk hl hdst⟩)
    (mem_copyLines.2 hj)

theorem copyRows_of_unreached {s : State} {sx sy dx dy w h : Word} (f : Nat → Byte) {a : Nat}
    (hunreached : ∀ j k : Nat, j < h.toNat → k < w.toNat * bypp s → pixelAddr s dx dy j k ≠ a) :
    copyRows s sx sy dx dy w h f a = f a :=
  foldl_copyRow_of_unreached (src := fun j => pixelAddr s sx sy j 0) (dst := fun j => pixelAddr s dx dy j 0)
    (copyLines sy.toNat dy.toNat h.toNat) f fun j hj k hk => hunreached j k (mem_copyLines.1 hj) hk

/-- Settles O26: the copy is `copyRows`, whose frame and snapshot form follow from which lines reach an address. -/
theorem rectCopyIsASnapshotCopy : Obligations.RectCopyIsASnapshotCopy := by
  unfold Obligations.RectCopyIsASnapshotCopy
  intro s sx sy dx dy w h hq hwf hsi hdi hsr hdr
  obtain ⟨m, hdone, hm, hread⟩ := rectCopy_of_quiet hq hwf hsi hdi hsr hdr
  refine ⟨m, (exec_rectCopy_of_done hdone).trans (by rw [append_eq]; rfl), hm, hread, fun a hunreached => ?_,
    fun hstride j k hj hk => ?_⟩
  · rw [hread, copyRows_of_unreached _ hunreached]
  · rw [hread, copyRows_snapshot hstride hsi hdi _ hj hk]

end Sys2Proof.Machine

/-! PROOFS. The Delayed Redraw Queue of `46_redraw_queue.md`: `append` and `flush` (R311, R312), the order of queued
updates (R310, R313), and the two halves of `Refresh` around the decoder's invocation (R316 to R318). -/

namespace Sys2Proof.Machine

/-! ### `flush` and `append` (R311, R312) -/

theorem flush_of_valid {s : State} (hvalid : s.invalidated = false) :
    flush s = { s with out := s.out ++ s.queue.map updateEvent, queue := [] } := by
  simp [flush, hvalid]

theorem flush_of_invalidated {s : State} (hinvalid : s.invalidated = true) : flush s = { s with queue := [] } := by
  simp [flush, hinvalid]

theorem append_of_full {s : State} (r : Rect) (hfull : s.queue.length = 512) :
    append r s = { flush s with queue := [r] } := by
  simp [append, redrawCap, hfull]

theorem append_of_room {s : State} (r : Rect) (hroom : s.queue.length ≠ 512) :
    append r s = { s with queue := s.queue ++ [r] } := by
  simp [append, redrawCap, hroom]

/-- Settles O36. -/
theorem queueFlushesInOrderAndOnOverflow : Obligations.QueueFlushesInOrderAndOnOverflow := by
  unfold Obligations.QueueFlushesInOrderAndOnOverflow
  exact ⟨fun _ => ⟨flush_of_valid, flush_of_invalidated⟩, fun _ r => ⟨append_of_full r, append_of_room r⟩⟩

/-! ### Updates in command order (R310, R313) -/

theorem queueAfter_of_room {s : State} (r : Rect) (hroom : s.queue.length ≠ 512) :
    queueAfter s r = s.queue ++ [r] := by
  rw [queueAfter, if_neg hroom]

theorem outAfter_of_room {s : State} (hroom : s.queue.length ≠ 512) : outAfter s = s.out :=
  if_neg fun hfull => hroom hfull.1

theorem updateRect_inside {s : State} {x y w h : Word} (hin : RectInside s x y w h) :
    updateRect s x y w h = argRect x y w h := if_pos hin

theorem updateRect_outside {s : State} {x y w h : Word} (hout : ¬ RectInside s x y w h) :
    updateRect s x y w h = fullRect s := if_neg hout

/-- An UPDATE appends `updateRect`, its own rectangle or the whole surface (R215); the rest of its effect is a
diagnostic and the outcome. -/
theorem exec_update_eq (s : State) (x y w h : Word) : ∃ d : List Diag, exec (.update x y w h) s
    = .next { s with queue := queueAfter s (updateRect s x y w h), out := outAfter s, diag := d,
                     outcome := some .applied } := by
  obtain ⟨hinside, houtside⟩ := updateOrFallback_eq .update s x y w h
  by_cases hin : RectInside s x y w h
  · rw [updateRect_inside hin]
    exact ⟨_, congrArg _ (hinside hin)⟩
  · rw [updateRect_outside hin]
    exact ⟨_, congrArg _ (houtside hin)⟩

/-- An UPDATE for which the queue has room adds one rectangle at the end, flushes nothing, and leaves the surface that
decides the rectangle of a later one. -/
theorem exec_update_of_room {s : State} (x y w h : Word) (hroom : s.queue.length ≠ 512) :
    ∃ t : State, exec (.update x y w h) s = .next t ∧ t.queue = s.queue ++ [updateRect s x y w h] ∧ t.out = s.out
      ∧ updateRect t = updateRect s := by
  obtain ⟨d, hexec⟩ := exec_update_eq s x y w h
  exact ⟨_, hexec, queueAfter_of_room _ hroom, outAfter_of_room hroom, rfl⟩

theorem execAll_cons {i : Instr} {s t : State} (is : List Instr) (hexec : exec i s = .next t) :
    execAll (i :: is) s = execAll is t := by
  rw [execAll, hexec]

/-- Settles O48, by induction on the commands. -/
theorem updatesQueueInCommandOrder : Obligations.UpdatesQueueInCommandOrder := by
  unfold Obligations.UpdatesQueueInCommandOrder
  intro s ops
  induction ops generalizing s with
  | nil => exact fun _ => ⟨s, rfl, (List.append_nil _).symm, rfl⟩
  | cons o ops ih =>
    intro hfits
    rw [List.length_cons] at hfits
    obtain ⟨u, hexec, hqueue, hout, hrect⟩ :=
      exec_update_of_room o.1 o.2.1 o.2.2.1 o.2.2.2 (show s.queue.length ≠ 512 by omega)
    have hrest : u.queue.length + ops.length ≤ 512 := by
      rw [hqueue, List.length_append, List.length_singleton]
      omega
    obtain ⟨t, hrun, htqueue, htout⟩ := ih u hrest
    refine ⟨t, (execAll_cons _ hexec).trans hrun, ?_, htout.trans hout⟩
    rw [htqueue, hqueue, hrect, List.append_assoc]
    rfl

/-! ### The head of `Refresh` (R316 to R318) -/

theorem cursorBypassPoll_eq (s : State) : cursorBypassPoll s = { s with
    lastCursorCount := Config.drawWord s.draws, cursorX := Config.drawWord (s.draws + 1),
    cursorY := Config.drawWord (s.draws + 2), cursorOn := Config.drawWord (s.draws + 3), draws := s.draws + 4 } := rfl

theorem fifoMode_iff {s : State} : fifoMode s = true ↔ s.enable = true ∧ s.config = true := Bool.and_eq_true_iff

theorem refreshStart_of_fifoMode {s : State} (hmode : fifoMode s = true) :
    refreshStart s = startInvocation .refresh (cursorBypassPoll s) := if_pos hmode

theorem refreshStart_of_legacy {s : State} (hmode : ¬ fifoMode s = true) :
    refreshStart s = emit .legacyRender (cursorBypassPoll s) := if_neg hmode

/-- Settles O39: the step is the poll, then the path FIFO mode selects. -/
theorem refreshPollsThenTakesItsPath : Obligations.RefreshPollsThenTakesItsPath := by
  unfold Obligations.RefreshPollsThenTakesItsPath
  intro s rest hidle hinput t
  have hstep : step s = .next (refreshStart { s with inputs := rest }) := step_of_event hidle hinput
  refine ⟨fun hoff => hstep.trans ?_, fun henable hconfig => hstep.trans ?_⟩
  · have hlegacy : ¬ fifoMode { s with inputs := rest } = true := by
      rw [fifoMode_iff]
      rcases hoff with hoff | hoff <;> simp [hoff]
    rw [refreshStart_of_legacy hlegacy, cursorBypassPoll_eq]
    rfl
  · have hmode : fifoMode { s with inputs := rest } = true := fifoMode_iff.2 ⟨henable, hconfig⟩
    rw [refreshStart_of_fifoMode hmode, cursorBypassPoll_eq]
    rfl

/-! ### The end of a refresh (R316) -/

theorem refreshEnd_of_valid {s : State} (hvalid : s.invalidated = false) :
    refreshEnd s = { s with out := s.out ++ s.queue.map updateEvent, queue := [] } := by
  rw [← flush_of_valid hvalid]
  exact if_neg (by simp [hvalid])

theorem refreshEnd_of_invalidated {s : State} (hinvalid : s.invalidated = true) :
    refreshEnd s = { s with
      queue := [], invalidated := false,
      out := s.out ++ [.modeSet s.width.toNat s.height.toNat (stride s) s.bpp.toNat, .fullRedraw] } := by
  have hflag : (flush s).invalidated = true := hinvalid
  rw [refreshEnd]
  simp only [if_pos hflag]
  rw [flush_of_invalidated hinvalid]
  simp [emit, surface, stride, bypp]

@[simp] theorem endOfInvocation_stride (s : State) : stride (endOfInvocation s) = stride s := by
  simp [stride, bypp]

theorem finishInvocation_of_valid {s : State} (hrefresh : s.trigger = some .refresh)
    (hvalid : s.invalidated = false) : finishInvocation s
      = { endOfInvocation s with out := (endOfInvocation s).out ++ s.queue.map updateEvent, queue := [] } := by
  rw [finishInvocation_refresh hrefresh, refreshEnd_of_valid ((endOfInvocation_invalidated s).trans hvalid),
    endOfInvocation_queue]

theorem finishInvocation_of_invalidated {s : State} (hrefresh : s.trigger = some .refresh)
    (hinvalid : s.invalidated = true) : finishInvocation s
      = { endOfInvocation s with
          queue := [], invalidated := false,
          out := (endOfInvocation s).out
            ++ [.modeSet s.width.toNat s.height.toNat (stride s) s.bpp.toNat, .fullRedraw] } := by
  rw [finishInvocation_refresh hrefresh, refreshEnd_of_invalidated ((endOfInvocation_invalidated s).trans hinvalid)]
  simp only [endOfInvocation_width, endOfInvocation_height, endOfInvocation_stride, endOfInvocation_bpp]

/-- The step that ends an invocation is its exit (`42_decoder.md` R210), in a state that the pass up to there has
changed only in what `length()` and a fetch touch: the other end of a pass, a command, leaves the invocation running. -/
theorem step_ends_invocation {s t : State} (hrun : s.trigger.isSome = true) (hstep : step s = .next t)
    (hended : t.trigger = none) : ∃ u : State, PassEffect s u ∧ t = finishInvocation u := by
  rw [step_running hrun] at hstep
  rcases drainPass_cases hstep with ⟨u, hpass, rfl⟩ | ⟨u, v, hpass, hcmd, rfl⟩
  · exact ⟨u, hpass, rfl⟩
  · have hkept : v.trigger = s.trigger := by rw [hcmd.eq, hpass.eq]
    rw [← hkept, show v.trigger = none from hended] at hrun
    cases hrun

theorem PassEffect.trigger {s t : State} (h : PassEffect s t) : t.trigger = s.trigger := by rw [h.eq]

theorem PassEffect.sameRegisters {s t : State} (h : PassEffect s t) : SameRegisters s t := by
  rw [h.eq]
  simp only [SameRegisters, and_self]

/-- Settles O40: the exit of a refresh's invocation, and the steps that are that exit. -/
theorem refreshEndFlushesAndRedraws : Obligations.RefreshEndFlushesAndRedraws := by
  unfold Obligations.RefreshEndFlushesAndRedraws
  refine ⟨fun s hrefresh => ⟨finishInvocation_of_valid hrefresh, finishInvocation_of_invalidated hrefresh,
    fun hbound => ?_⟩, fun s t hrefresh hstep hended => ?_⟩
  · rw [step_running (by rw [hrefresh]; rfl), drainPass_at_bound hbound]
  · obtain ⟨u, hpass, rfl⟩ := step_ends_invocation (by rw [hrefresh]; rfl) hstep hended
    refine ⟨u, rfl, hpass.trigger.trans hrefresh, hpass.sameRegisters, ?_⟩
    rw [hpass.eq]
    simp only [and_self]

/-- Settles O53: the step is the exit of a refresh's invocation, which leaves the queue empty and the surface valid. -/
theorem refreshLeavesAnEmptyQueue : Obligations.RefreshLeavesAnEmptyQueue := by
  unfold Obligations.RefreshLeavesAnEmptyQueue
  intro s t hrefresh hstep hended
  obtain ⟨u, hpass, rfl⟩ := step_ends_invocation (by rw [hrefresh]; rfl) hstep hended
  exact (finishInvocation_endEffect u).refresh (hpass.trigger.trans hrefresh)

end Sys2Proof.Machine

/-! PROOFS. The Interrupt Controller of `60_exceptions.md` and what the core does in place of an exception: events and
acknowledge (R339 to R342), what every step keeps of status and line (R338, R340, R343, R345), the rewind of an
incomplete command (R332), and that no step is fatal (R330). -/

namespace Sys2Proof

/-! ### What the command decoder finds incomplete (`42_decoder.md` R213) -/

/-- Everything the command decoder finds incomplete: no word at all, a command short of fixed words, or one with its
fixed words there and short of the payload they declare. -/
inductive IncompleteCommand (c : Config) : List Word → Prop
  | empty : IncompleteCommand c []
  | fixed {op : Word} {n : CmdName} {ws : List Word} (named : c.lookupOpcode op = some n)
      (short : ws.length < c.fixedArgs n) : IncompleteCommand c (op :: ws)
  | payload {op : Word} {n : CmdName} {args ws : List Word} (named : c.lookupOpcode op = some n)
      (fixed : args.length = c.fixedArgs n) (short : ws.length < c.payloadWords n args) :
      IncompleteCommand c (op :: (args ++ ws))

theorem decodeCommand_incompleteCommand {c : Config} {ws : List Word}
    (h : decodeCommand c ws = .error .incomplete) : IncompleteCommand c ws := by
  cases ws with
  | nil => exact .empty
  | cons op ws =>
    cases hl : c.lookupOpcode op with
    | none =>
      rw [decodeCommand_unknown hl] at h
      cases h
    | some n =>
      rw [decodeCommand_known hl] at h
      split at h
      · rename_i hshort
        exact .fixed hl hshort
      · rename_i hfixed
        split at h
        · rename_i hshort
          have hwhole := IncompleteCommand.payload hl (List.length_take_of_le (not_lt.1 hfixed)) hshort
          rwa [List.take_append_drop] at hwhole
        · cases h

end Sys2Proof

namespace Sys2Proof.Machine

/-! ### Events, acknowledge and the status port (R339, R341, R342) -/

theorem irqEvent_of_recorded {bit : Word} {s : State} (hmasked : s.irqMask &&& bit = 0)
    (hrecorded : s.cfg.irqStatusSetsUnmasked = true) :
    irqEvent bit s = { s with irqStatus := s.irqStatus ||| bit } :=
  (if_neg (not_not_intro hmasked)).trans (if_pos hrecorded)

theorem irqEvent_of_masked {bit : Word} {s : State} (hmasked : s.irqMask &&& bit = 0)
    (hdropped : s.cfg.irqStatusSetsUnmasked = false) : irqEvent bit s = s :=
  (if_neg (not_not_intro hmasked)).trans (if_neg (by simp [hdropped]))

/-- Settles O34, over the mask and the configuration's choice. -/
theorem interruptEventsFollowTheMask : Obligations.InterruptEventsFollowTheMask := by
  unfold Obligations.InterruptEventsFollowTheMask
  exact fun _ _ => ⟨irqEvent_of_enabled, irqEvent_of_recorded, irqEvent_of_masked⟩

theorem acknowledge_of_last {s : State} {v : Word} (hlast : s.irqStatus &&& ~~~v = 0) (hraised : s.irqLine = true) :
    acknowledge v s = { s with irqStatus := 0, irqLine := false, out := s.out ++ [.irqLower] } := by
  rcases acknowledge_cases v s with ⟨-, -, heq⟩ | ⟨hkept, -⟩
  · exact heq
  · simp [hlast, hraised] at hkept

theorem acknowledge_of_kept {s : State} {v : Word} (hkept : s.irqStatus &&& ~~~v ≠ 0 ∨ s.irqLine = false) :
    acknowledge v s = { s with irqStatus := s.irqStatus &&& ~~~v } := by
  rcases acknowledge_cases v s with ⟨hlast, hraised, -⟩ | ⟨-, heq⟩
  · simp [hlast, hraised] at hkept
  · exact heq

/-- Settles O20: a write of the port is `acknowledge`, and a read delivers the status. -/
theorem irqStatusPortAcknowledgesAndReturns : Obligations.IrqStatusPortAcknowledgesAndReturns := by
  unfold Obligations.IrqStatusPortAcknowledgesAndReturns
  have hwrite : ∀ (s : State) (v : Word), exec (.portIrqStatusWrite v) s = .next (acknowledge v s) := fun _ _ => rfl
  exact ⟨fun s v => ⟨fun hlast hraised => (hwrite s v).trans (congrArg _ (acknowledge_of_last hlast hraised)),
    fun hkept => (hwrite s v).trans (congrArg _ (acknowledge_of_kept hkept))⟩, fun _ => rfl⟩

/-! ### What leaves the status and the line -/

/-- The configuration, the interrupt status and the line of `t` are those of `s`. -/
structure SameInterrupts (s t : State) : Prop where
  cfg : t.cfg = s.cfg
  status : t.irqStatus = s.irqStatus
  line : t.irqLine = s.irqLine

theorem PassEffect.sameInterrupts {s t : State} (h : PassEffect s t) : SameInterrupts s t := by
  rw [h.eq]
  exact ⟨rfl, rfl, rfl⟩

theorem RegisterEffect.sameInterrupts {s t : State} (h : RegisterEffect s t) : SameInterrupts s t := by
  rw [h.eq]
  exact ⟨rfl, rfl, rfl⟩

theorem StartEffect.sameInterrupts {s t : State} (h : StartEffect s t) : SameInterrupts s t := by
  rw [h.eq]
  exact ⟨rfl, rfl, rfl⟩

theorem CommandEffect.irqLine {s t : State} (h : CommandEffect s t) : t.irqLine = s.irqLine := by rw [h.eq]

/-- A reset clears the status and lowers the line (`70_reset_and_hazards.md` R370). -/
theorem resetEvent_interrupts (s : State) : (resetEvent s).irqStatus = 0 ∧ (resetEvent s).irqLine = false := by
  obtain ⟨mn, mx, next, stop, cur, d, heq, -, -⟩ := resetEvent_cases s
  rw [heq]
  exact ⟨rfl, rfl⟩

/-! ### The bits of the status (R338, R343) -/

/-- The status holds only bits of the three events. -/
def StatusInEvents (s : State) : Prop := s.irqStatus &&& ~~~(eventBits s.cfg) = 0

theorem SameInterrupts.statusInEvents {s t : State} (h : SameInterrupts s t) (hs : StatusInEvents s) :
    StatusInEvents t := by
  rw [StatusInEvents, h.cfg, h.status]
  exact hs

theorem CommandEffect.statusInEvents {s t : State} (h : CommandEffect s t) (hs : StatusInEvents s) :
    StatusInEvents t := by
  rw [StatusInEvents, h.keepsMode.1]
  exact h.bits hs

theorem EndEffect.statusInEvents {s t : State} (h : EndEffect s t) (hs : StatusInEvents s) : StatusInEvents t := by
  rw [StatusInEvents, h.keepsMode.1]
  exact h.bits hs

/-- An acknowledge sets no bit. -/
theorem acknowledge_statusInEvents (v : Word) {s : State} (hs : StatusInEvents s) :
    StatusInEvents (acknowledge v s) := by
  rcases acknowledge_cases v s with ⟨-, -, heq⟩ | ⟨-, heq⟩ <;> rw [heq]
  · exact BitVec.zero_and
  · change s.irqStatus &&& ~~~v &&& ~~~(eventBits s.cfg) = 0
    rw [BitVec.and_assoc, BitVec.and_comm (~~~v), ← BitVec.and_assoc, hs]
    exact BitVec.zero_and

theorem resetEvent_statusInEvents (s : State) : StatusInEvents (resetEvent s) := by
  rw [StatusInEvents, (resetEvent_interrupts s).1]
  exact BitVec.zero_and

/-- Settles O56, over what a step can be. -/
theorem stepsKeepTheStatusBits : Obligations.StepsKeepTheStatusBits := by
  unfold Obligations.StepsKeepTheStatusBits
  intro s t hs h
  change StatusInEvents t
  cases step_stepEffect h with
  | finish _ hpass => exact (finishInvocation_endEffect _).statusInEvents (hpass.sameInterrupts.statusInEvents hs)
  | command _ hpass hcmd => exact hcmd.statusInEvents (hpass.sameInterrupts.statusInEvents hs)
  | idle => exact hs
  | register _ _ hreg => exact hreg.sameInterrupts.statusInEvents hs
  | @acknowledge _ rest v => exact acknowledge_statusInEvents v (s := { s with inputs := rest }) hs
  | guest _ _ hmem => exact hmem.onlyFetch.passEffect.sameInterrupts.statusInEvents hs
  | refresh _ _ hstart => exact hstart.sameInterrupts.statusInEvents hs
  | reset => exact resetEvent_statusInEvents _

/-! ### What moves the line (R340, R341, R370) -/

/-- A line that stays where it is neither rises nor falls. -/
theorem line_unmoved {s t : State} {Raised Lowered : Prop} (h : t.irqLine = s.irqLine) :
    (s.irqLine = false → t.irqLine = true → Raised) ∧ (s.irqLine = true → t.irqLine = false → Lowered) := by
  rw [h]
  exact ⟨fun hlow hup => (nomatch hlow.symm.trans hup), fun hup hlow => nomatch hlow.symm.trans hup⟩

/-- The end of an invocation does not lower the line. -/
theorem EndEffect.line_stays_raised {s t : State} (h : EndEffect s t) (hraised : s.irqLine = true) :
    t.irqLine = true := h.line.2 (.inl hraised)

/-- An acknowledge that lowers the line leaves no status bit. -/
theorem acknowledge_line (v : Word) (s : State) :
    ((acknowledge v s).irqStatus = 0 ∧ (acknowledge v s).irqLine = false)
    ∨ (acknowledge v s).irqLine = s.irqLine := by
  rcases acknowledge_cases v s with ⟨-, -, heq⟩ | ⟨-, heq⟩ <;> rw [heq]
  · exact .inl ⟨rfl, rfl⟩
  · exact .inr rfl

/-- Settles O57, over what a step can be: the end of an invocation alone raises the line; the acknowledge and the reset
alone lower it. -/
theorem onlyTheseMoveTheInterruptLine : Obligations.OnlyTheseMoveTheInterruptLine := by
  unfold Obligations.OnlyTheseMoveTheInterruptLine
  intro s t h
  cases step_stepEffect h with
  | @finish u hrun hpass =>
    refine ⟨fun _ _ => ⟨hrun, finishInvocation_trigger u⟩, fun hup hlow => ?_⟩
    have hraised := (finishInvocation_endEffect u).line_stays_raised (hpass.sameInterrupts.line.trans hup)
    exact nomatch hlow.symm.trans hraised
  | command _ hpass hcmd => exact line_unmoved (hcmd.irqLine.trans hpass.sameInterrupts.line)
  | idle => exact line_unmoved rfl
  | register _ _ hreg => exact line_unmoved hreg.sameInterrupts.line
  | @acknowledge a rest v hidle hin hdec =>
    rcases acknowledge_line v { s with inputs := rest } with ⟨hstatus, hlow⟩ | hsame
    · exact ⟨fun _ hup => (nomatch hlow.symm.trans hup),
        fun _ _ => ⟨hidle, hstatus, .port a, rest, hin, .inr ⟨a, v, rfl, hdec⟩⟩⟩
    · exact line_unmoved hsame
  | guest _ _ hmem => exact line_unmoved hmem.onlyFetch.passEffect.sameInterrupts.line
  | refresh _ _ hstart => exact line_unmoved hstart.sameInterrupts.line
  | @reset rest hidle hin =>
    obtain ⟨hstatus, hlow⟩ := resetEvent_interrupts { s with inputs := rest }
    exact ⟨fun _ hup => (nomatch hlow.symm.trans hup),
      fun _ _ => ⟨hidle, hstatus, .reset, rest, hin, .inl rfl⟩⟩

/-! ### The line against the status (R345) -/

theorem PassEffect.lineInv {s t : State} (h : PassEffect s t) (hs : LineInv s) : LineInv t := by
  rw [h.eq]
  exact hs

/-- A bit a command adds, where unmasked events are dropped, comes with `fired` (R339). -/
theorem CommandEffect.lineInv {s t : State} (h : CommandEffect s t) (hrun : s.trigger.isSome = true)
    (hs : LineInv s) : LineInv t := by
  obtain ⟨hraised, hwaiting, henabled⟩ := hs
  have hcfg : t.cfg = s.cfg := by rw [h.eq]
  have htrigger : t.trigger = s.trigger := by rw [h.eq]
  have hmask : t.irqMask = s.irqMask := by rw [h.eq]
  rw [LineInv, hcfg, htrigger, hmask, h.irqLine]
  refine ⟨fun hline => h.status (hraised hline), fun hdrop hne hlow => ⟨hrun, ?_⟩,
    fun _ => h.enabled (henabled hrun)⟩
  by_cases hsame : t.irqStatus = s.irqStatus
  · exact h.fired (hwaiting hdrop (hsame ▸ hne) hlow).2
  · exact h.recorded hdrop hsame

/-- The line decision raises the line for the status bits that waited for it (R340). -/
theorem EndEffect.lineInv {s t : State} (h : EndEffect s t) (hrun : s.trigger.isSome = true) (hs : LineInv s) :
    LineInv t := by
  obtain ⟨hraised, hwaiting, henabled⟩ := hs
  have hended : t.trigger = none := by rw [h.eq]
  refine ⟨fun hline => ?_, fun hdrop hne hlow => ?_, fun hstill => by simp [hended] at hstill⟩
  · rcases h.line.1 hline with hbefore | ⟨-, hbit⟩
    · exact h.status (hraised hbefore)
    · intro hzero
      simp [hzero] at hbit
  · rw [h.keepsMode.1] at hdrop
    have hlowBefore : s.irqLine = false := by
      rw [← Bool.not_eq_true]
      exact fun hup => nomatch hlow.symm.trans (h.line_stays_raised hup)
    have hfired : t.fired = true := by
      by_cases hsame : t.irqStatus = s.irqStatus
      · exact h.fired (hwaiting hdrop (hsame ▸ hne) hlowBefore).2
      · exact h.recorded hdrop hsame
    have hup : t.irqLine = true := h.line.2 (.inr ⟨hfired, h.enabled (henabled hrun) hfired⟩)
    exact nomatch hlow.symm.trans hup

/-- Between invocations a status bit has the line raised, where unmasked events are dropped; so what leaves both, and
starts at most an invocation in which nothing has fired, keeps the invariant. -/
theorem SameInterrupts.lineInv {s t : State} (h : SameInterrupts s t) (hidle : s.trigger = none)
    (hstart : t.trigger = none ∨ t.fired = false) (hs : LineInv s) : LineInv t := by
  obtain ⟨hraised, hwaiting, -⟩ := hs
  rw [LineInv, h.cfg, h.status, h.line]
  refine ⟨hraised, fun hdrop hne hlow => ?_, fun hrun hfired => ?_⟩
  · have := (hwaiting hdrop hne hlow).1
    simp [hidle] at this
  · simp [hrun, hfired, ← Option.not_isSome_iff_eq_none] at hstart

theorem RegisterEffect.lineInv {s t : State} (h : RegisterEffect s t) (hidle : s.trigger = none) (hs : LineInv s) :
    LineInv t :=
  h.sameInterrupts.lineInv hidle (h.running.imp (fun hsame => hsame.1.trans hidle) And.right) hs

theorem StartEffect.lineInv {s t : State} (h : StartEffect s t) (hidle : s.trigger = none) (hs : LineInv s) :
    LineInv t :=
  h.sameInterrupts.lineInv hidle (h.running.imp (fun hsame => hsame.1.trans hidle) And.right) hs

/-- An acknowledge that leaves the line raised leaves a status bit (R341). -/
theorem acknowledge_lineInv (v : Word) {s : State} (hidle : s.trigger = none) (hs : LineInv s) :
    LineInv (acknowledge v s) := by
  obtain ⟨-, hwaiting, -⟩ := hs
  have hnone : ∀ {p : Prop}, s.trigger.isSome = true → p := fun hrun => by simp [hidle] at hrun
  rcases acknowledge_cases v s with ⟨-, -, heq⟩ | ⟨hkept, heq⟩ <;> rw [heq]
  · exact ⟨fun hup => absurd hup Bool.false_ne_true, fun _ hne => absurd rfl hne, hnone⟩
  · refine ⟨fun hup => hkept.resolve_right (by simpa using hup), fun hdrop hne hlow => ?_, hnone⟩
    have hbefore : s.irqStatus ≠ 0 := fun hzero => hne (by simp [hzero])
    exact hnone (hwaiting hdrop hbefore hlow).1

theorem resetEvent_lineInv (s : State) : LineInv (resetEvent s) := by
  obtain ⟨mn, mx, next, stop, cur, d, heq, -, -⟩ := resetEvent_cases s
  rw [heq]
  exact State.resetOf_lineInv s.cfg

/-- Settles O58, over what a step can be. -/
theorem stepsKeepTheLineInvariant : Obligations.StepsKeepTheLineInvariant := by
  unfold Obligations.StepsKeepTheLineInvariant
  intro s t hs h
  cases step_stepEffect h with
  | finish hrun hpass => exact (finishInvocation_endEffect _).lineInv (hpass.trigger ▸ hrun) (hpass.lineInv hs)
  | command hrun hpass hcmd => exact hcmd.lineInv (hpass.trigger ▸ hrun) (hpass.lineInv hs)
  | idle => exact hs
  | register hidle _ hreg => exact hreg.lineInv hidle hs
  | @acknowledge _ rest v hidle => exact acknowledge_lineInv v (s := { s with inputs := rest }) hidle hs
  | guest _ _ hmem => exact hmem.onlyFetch.passEffect.lineInv hs
  | refresh hidle _ hstart => exact hstart.lineInv hidle hs
  | reset => exact resetEvent_lineInv _

/-! ### The rewind of an incomplete command (R332; `41_ring_cursor.md` R194, `42_decoder.md` R213) -/

/-- A decode step that began in `s` and was rewound: `stop` is latched and stored as it was then, and the accounting
stands at the words found missing. -/
def rewound (s : State) (missing : Int) : State :=
  { s with cmdStart := s.fifoStop, rem := missing, fifo := Memory.write32 s.fifo 12 s.fifoStop,
           outcome := some .rewound }

section
variable {s : State} (hquiet : Quiet s) (hready : LatchesReady s) (hwf : Memory.wf s.fifo)
include hquiet hready hwf

/-- `Take(k)` where fewer than `k` more words are pending (R213). -/
theorem takeWords_short_consumed {L n k : Nat} (hshort : L < n + k) :
    takeWords k (consumed s L n) = .ok (none, rewound s ((L : Int) - n - k)) := by
  obtain ⟨-, -, -, h16, hlo, hhi, hsize⟩ := hready
  have hrem : (consumed s L n).rem < k := by
    simp only [consumed]
    omega
  rw [takeWords_short_of_quiet (s := consumed s L n) hquiet (by rw [consumed_cfg]; omega) hrem]
  simp only [consumed, rewound, Memory.write32_write32 hwf]

/-- The fetch of a command whose words are not all pending rewinds it. -/
theorem fetch_of_incomplete {L : Nat} (hpending : L ≠ 0)
    (hdec : decodeCommand s.cfg (ringWords s.fifo s.fifoMin s.fifoMax s.fifoStop L) = .error .incomplete) :
    ∃ missing : Int, missing < 0 ∧ fetch L s = .ok (none, rewound s missing) := by
  generalize hws : ringWords s.fifo s.fifoMin s.fifoMax s.fifoStop L = ws at hdec
  have hL : L = ws.length := by rw [← hws, ringWords_length]
  have hread := readWord_opcode hquiet hready L
  cases decodeCommand_incompleteCommand hdec with
  | empty => exact absurd hL hpending
  | @fixed op n ws named short =>
    obtain ⟨hop, -⟩ := ringWords_eq_append (xs := [op]) hws
    rw [List.head_eq_of_cons_eq hop] at hread
    rw [List.length_cons] at hL
    have hshort : L < 1 + s.cfg.fixedArgs n := by omega
    refine ⟨(L : Int) - (1 : Nat) - s.cfg.fixedArgs n, by omega, ?_⟩
    rw [fetch, hread, except_bind_ok]
    simp only [consumed_cfg, named]
    rw [fetchArgs, consumed_cfg, takeWords_short_consumed hquiet hready hwf hshort, except_bind_ok]
  | @payload op n args ws named fixed short =>
    obtain ⟨hop, hbehind⟩ := ringWords_eq_append (xs := [op]) hws
    have hargs : ringWords s.fifo s.fifoMin s.fifoMax (ringAfter s.fifoMin s.fifoMax s.fifoStop 1) args.length = args :=
      (ringWords_eq_append hbehind).1
    rw [List.head_eq_of_cons_eq hop] at hread
    rw [List.length_cons, List.length_append] at hL
    have htake := takeWords_consumed hquiet hready hwf (L := L) (n := 1) (k := args.length) (by omega)
    rw [hargs, fixed] at htake
    have hshort : L < 1 + s.cfg.fixedArgs n + s.cfg.payloadWords n args := by omega
    refine ⟨(L : Int) - (1 + s.cfg.fixedArgs n : Nat) - s.cfg.payloadWords n args, by omega, ?_⟩
    rw [fetch, hread, except_bind_ok]
    simp only [consumed_cfg, named]
    rw [fetchArgs, consumed_cfg, htake, except_bind_ok]
    simp only
    rw [consumed_cfg, takeWords_short_consumed hquiet hready hwf hshort, except_bind_ok]

end

/-- A pass of the drain loop whose fetch rewinds ends the invocation (R210). -/
theorem step_of_rewind {s t u : State} {L : Nat} (hrun : s.trigger.isSome = true)
    (hbound : s.steps < s.cfg.maxLoop) (hlength : length s = .ok (L, t)) (hpending : L ≠ 0)
    (hfetch : fetch L { t with steps := t.steps + 1 } = .ok (none, u)) : step s = .next (finishInvocation u) := by
  rw [step_running hrun, drainPass, if_neg (not_le.2 hbound), hlength]
  simp only
  rw [if_neg hpending, hfetch]
  rfl

/-- Settles O46: STOP is stored as it was read, and the fetch of an incomplete command rewinds it. -/
theorem incompleteCommandsAreRewound : Obligations.IncompleteCommandsAreRewound := by
  unfold Obligations.IncompleteCommandsAreRewound
  intro s hv hquiet hwf hrun hbound hpending hdec
  refine ⟨Memory.read_write32_read32 s.fifo 12, ?_⟩
  obtain ⟨-, hsize, -⟩ := Config.valid_sizes hv
  obtain ⟨missing, hnegative, hfetch⟩ :=
    fetch_of_incomplete (s := { loadLatches s with steps := s.steps + 1 }) hquiet (latchesReady_of_pending hpending)
      hwf hpending hdec
  exact ⟨missing, hnegative, step_of_rewind hrun hbound (length_of_quiet hquiet (by omega)) hpending hfetch⟩

/-! ### No step is fatal (R330) -/

/-- Every port operation completes, whatever register the value port selects. -/
theorem exec_portOperation_completes {c : Config} {a : PortAccess} {i : Instr} (hdec : decodePort c a = .ok i)
    (s : State) : ∃ t : State, exec i s = .next t := by
  unfold decodePort at hdec
  split at hdec
  · split at hdec
    · split at hdec <;> cases hdec <;> exact ⟨_, rfl⟩
    · split at hdec
      · split at hdec <;> cases hdec
        · obtain ⟨t, hwrite, -⟩ := accessSelected_write _ s
          exact ⟨t, hwrite⟩
        · obtain ⟨t, hread, -⟩ := accessSelected_read s
          exact ⟨t, hread⟩
      · split at hdec
        · split at hdec <;> cases hdec <;> exact ⟨_, rfl⟩
        · cases hdec
  · cases hdec

theorem portEvent_completes {a : PortAccess} {s : State} (h : (decodePort s.cfg a).isOk = true) :
    ∃ t : State, portEvent a s = .next t := by
  cases hdec : decodePort s.cfg a with
  | error e =>
    rw [hdec] at h
    exact absurd h Bool.false_ne_true
  | ok i =>
    rw [portEvent_of_decoded hdec]
    exact exec_portOperation_completes hdec s

theorem handleEvent_completes {e : Event} {s : State} (h : inputOk s.cfg e = true) :
    ∃ t : State, handleEvent e s = .next t := by
  cases e with
  | port a => exact portEvent_completes h
  | guestWrite w => exact ⟨_, handleEvent_guestWrite (of_decide_eq_true h)⟩
  | guestRead space a => exact ⟨_, handleEvent_guestRead (of_decide_eq_true h)⟩
  | refresh | reset => exact ⟨_, rfl⟩

/-- Settles O49: a pass of a running invocation completes, and so does every event with a meaning. -/
theorem everyStepHasANextState : Obligations.EveryStepHasANextState := by
  unfold Obligations.EveryStepHasANextState
  intro s hv hok
  cases ht : s.trigger with
  | some k =>
    obtain ⟨t, hpass, -⟩ := drainPass_completes hv
    exact ⟨t, (step_running (by rw [ht]; rfl)).trans hpass⟩
  | none =>
    cases hin : s.inputs with
    | nil =>
      refine ⟨s, ?_⟩
      rw [step_idle ht, nextEvent, hin]
    | cons e rest =>
      rw [nextInputOk, hin] at hok
      rw [step_of_event ht hin]
      exact handleEvent_completes (s := { s with inputs := rest }) hok

end Sys2Proof.Machine
